-- ==== Sys2Proof/Word.lean ====
section
/-! DEFINITION. The word types of the engine (00_scope.md R20, R36; 30_encoding.md R150). -/

namespace Sys2Proof

/-- One byte of memory. -/
abbrev Byte := BitVec 8

/-- "Word: an unsigned 32-bit value. All memory addresses and registers carry this type." (00_scope.md R20). -/
abbrev Word := BitVec 32

/-- A 64-bit product or accumulator, `HI || LO` (10_state.md R67). -/
abbrev DWord := BitVec 64

/-- A 5-bit register number 0..31 (30_encoding.md R156). -/
abbrev RegNum := BitVec 5

/-- The 16-bit `imm` field (30_encoding.md R150). -/
abbrev Imm16 := BitVec 16

/-- The 26-bit `index` field (30_encoding.md R150). -/
abbrev Index26 := BitVec 26

/-- The first value listed for a key; the reading of every finite table of the model. -/
def assoc {α β : Type} [DecidableEq α] (k : α) : List (α × β) → Option β
  | [] => none
  | (k', v) :: rest => if k' = k then some v else assoc k rest

end Sys2Proof
end

