-- ==== Sys2Proof/Config.lean ====
section
/-! DEFINITION. The instance parameters of 00_scope.md R21: the mnemonics and their groups
(30_encoding.md R164), the plain-data parameters (`Config`, log 1) and the free values. -/

namespace Sys2Proof

/-- The mnemonics of opcode_table.json, one constructor per row (30_encoding.md R163). -/
inductive Mnemonic where
  | sll | movci | srl | sra | sllv | srlv | srav | jr | jalr | movz | movn | syscall | break_
  | sync | mfhi | mthi | mflo | mtlo | mult | multu | div | divu | add | addu | sub | subu | and
  | or | xor | nor | slt | sltu | tge | tgeu | tlt | tltu | teq | tne | bltz | bgez | bltzl | bgezl
  | tgei | tgeiu | tlti | tltiu | teqi | tnei | bltzal | bgezal | bltzall | bgezall | synci | madd
  | maddu | mul | msub | msubu | clz | clo | sdbbp | j | jal | beq | bne | blez | bgtz | addi
  | addiu | slti | sltiu | andi | ori | xori | lui | cop0 | cop1 | cop2 | cop1x | beql | bnel
  | blezl | bgtzl | jalx | special3 | lb | lh | lwl | lw | lbu | lhu | lwr | sb | sh | swl | sw
  | swr | cache | ll | lwc1 | lwc2 | pref | ldc1 | ldc2 | sc | swc1 | swc2 | sdc1 | sdc2
  deriving DecidableEq, Repr

/-- The groups of 30_encoding.md R164. -/
inductive Group where
  | core | unaligned | llsc | cmov | mul | madd | clz | sync | likely
  | syscall | brk | trap | cop | ase | r2
  deriving DecidableEq, Repr

/-- The group of each mnemonic (30_encoding.md R157 to R160, R164). -/
def Mnemonic.group : Mnemonic → Group
  | .sll | .srl | .sra | .sllv | .srlv | .srav | .jr | .jalr | .mfhi | .mthi | .mflo | .mtlo
  | .mult | .multu | .div | .divu | .add | .addu | .sub | .subu | .and | .or | .xor | .nor | .slt
  | .sltu | .bltz | .bgez | .bltzal | .bgezal | .j | .jal | .beq | .bne | .blez | .bgtz | .addi
  | .addiu | .slti | .sltiu | .andi | .ori | .xori | .lui | .lb | .lh | .lw | .lbu | .lhu | .sb
  | .sh | .sw => .core
  | .lwl | .lwr | .swl | .swr => .unaligned
  | .ll | .sc => .llsc
  | .movz | .movn => .cmov
  | .mul => .mul
  | .madd | .maddu | .msub | .msubu => .madd
  | .clz | .clo => .clz
  | .sync => .sync
  | .bltzl | .bgezl | .bltzall | .bgezall | .beql | .bnel | .blezl | .bgtzl => .likely
  | .syscall => .syscall
  | .break_ => .brk
  | .tge | .tgeu | .tlt | .tltu | .teq | .tne | .tgei | .tgeiu | .tlti | .tltiu | .teqi | .tnei => .trap
  | .movci | .cop0 | .cop1 | .cop2 | .cop1x | .cache | .lwc1 | .lwc2 | .pref | .ldc1 | .ldc2
  | .swc1 | .swc2 | .sdc1 | .sdc2 => .cop
  | .sdbbp | .jalx => .ase
  | .synci | .special3 => .r2

/-- The control-transfer instructions (30_encoding.md R170). -/
def Mnemonic.isCT : Mnemonic → Bool
  | .jr | .jalr | .bltz | .bgez | .bltzl | .bgezl | .bltzal | .bgezal | .bltzall | .bgezall | .j
  | .jal | .beq | .bne | .blez | .bgtz | .beql | .bnel | .blezl | .bgtzl => true
  | .sll | .movci | .srl | .sra | .sllv | .srlv | .srav | .movz | .movn | .syscall | .break_
  | .sync | .mfhi | .mthi | .mflo | .mtlo | .mult | .multu | .div | .divu | .add | .addu | .sub
  | .subu | .and | .or | .xor | .nor | .slt | .sltu | .tge | .tgeu | .tlt | .tltu | .teq | .tne
  | .tgei | .tgeiu | .tlti | .tltiu | .teqi | .tnei | .synci | .madd | .maddu | .mul | .msub
  | .msubu | .clz | .clo | .sdbbp | .addi | .addiu | .slti | .sltiu | .andi | .ori | .xori | .lui
  | .cop0 | .cop1 | .cop2 | .cop1x | .jalx | .special3 | .lb | .lh | .lwl | .lw | .lbu | .lhu
  | .lwr | .sb | .sh | .swl | .sw | .swr | .cache | .ll | .lwc1 | .lwc2 | .pref | .ldc1 | .ldc2
  | .sc | .swc1 | .swc2 | .sdc1 | .sdc2 => false

/-- The value of an optional group's presence parameter (00_scope.md R21). -/
inductive Presence where
  | implemented | invalid | unknown
  deriving DecidableEq, Repr

/-- The value of an unmodelled group's parameter: it has no `implemented` setting (00_scope.md R7, R21). -/
inductive Absence where
  | invalid | unknown
  deriving DecidableEq, Repr

/-- An unmodelled group's verdict, read as a presence. -/
def Absence.toPresence : Absence → Presence
  | .invalid => .invalid
  | .unknown => .unknown

/-- `P_STRICT_FIELDS` (30_encoding.md R167). -/
inductive StrictFields where
  | ignore | invalid | refuse
  deriving DecidableEq, Repr

/-- `P_REGFILE_DATA` (20_memory.md R114). `aliased` is the spec's value `alias`. -/
inductive RegFileData where
  | aliased | refuse
  deriving DecidableEq, Repr

/-- `P_HALF_ODD` (20_memory.md R109). -/
inductive HalfOdd where
  | refuse | unaligned | clearBit0 | bytes
  deriving DecidableEq, Repr

/-- `P_CT_IN_DS` (40_step_cycle.md R204). -/
inductive CtInDs where
  | pair | refuse
  deriving DecidableEq, Repr

/-- `P_HALTED` (40_step_cycle.md R212): the decided default, which reads the sentinel word, or another predicate of
the memory, the `n`-th of the free ones (log 12). -/
inductive Halting where
  | sentinel
  | other (n : Nat)
  deriving DecidableEq, Repr

/-- `P_ORACLE_KEYOF` (20_memory.md R119): the decided default, the bytes of the key words, or another function of the
memory, the `n`-th of the free ones (log 13). -/
inductive KeyOf where
  | keyWords
  | other (n : Nat)
  deriving DecidableEq, Repr

/-- An oracle key and a preimage are byte strings (20_memory.md R119, R120). -/
abbrev Key := List Byte

/-- The plain-data parameters of 00_scope.md R21. They are fixed for the run; State carries them
because they are arguments of the model (log 1), so a statement over all states holds for every
instance. -/
structure Config where
  /-- `P_REG_BASE` -/
  regBase : Word
  /-- `P_GROUP_UNALIGNED` -/
  groupUnaligned : Presence
  /-- `P_GROUP_LLSC` -/
  groupLlsc : Presence
  /-- `P_GROUP_CMOV` -/
  groupCmov : Presence
  /-- `P_GROUP_MUL` -/
  groupMul : Presence
  /-- `P_GROUP_MADD` -/
  groupMadd : Presence
  /-- `P_GROUP_CLZ` -/
  groupClz : Presence
  /-- `P_GROUP_SYNC` -/
  groupSync : Presence
  /-- `P_GROUP_LIKELY` -/
  groupLikely : Presence
  /-- `P_GROUP_SYSCALL` -/
  groupSyscall : Absence
  /-- `P_GROUP_BREAK` -/
  groupBreak : Absence
  /-- `P_GROUP_TRAP` -/
  groupTrap : Absence
  /-- `P_GROUP_COP` -/
  groupCop : Absence
  /-- `P_GROUP_ASE` -/
  groupAse : Absence
  /-- `P_GROUP_R2` -/
  groupR2 : Absence
  /-- `P_STRICT_FIELDS` -/
  strictFields : StrictFields
  /-- `P_REGFILE_DATA` -/
  regfileData : RegFileData
  /-- `P_HALF_ODD` -/
  halfOdd : HalfOdd
  /-- `P_CT_IN_DS` -/
  ctInDs : CtInDs
  /-- `P_GAS_COST` of every mnemonic that `gasSpecial` does not list. -/
  gasBase : Nat
  /-- `P_GAS_COST` of the mnemonics it lists. -/
  gasSpecial : List (Mnemonic × Nat)
  /-- `P_ORACLE_KEY_BASE` -/
  oracleKeyBase : Word
  /-- `P_ORACLE_KEY_WORDS` -/
  oracleKeyWords : Nat
  /-- `P_ORACLE_KEYOF` -/
  oracleKeyOf : KeyOf
  /-- `P_ORACLE_TRIGGER` -/
  oracleTrigger : Word
  /-- `P_ORACLE_WIN_BASE` -/
  oracleWinBase : Word
  /-- `P_ORACLE_WIN_WORDS` -/
  oracleWinWords : Nat
  /-- `P_ORACLE_LAYOUT`, as a finite table from preimage bytes to window words (log 19). -/
  oracleLayout : List (List Byte × List Word)
  /-- `P_HALTED` -/
  halting : Halting
  /-- `P_HALT_SENTINEL` -/
  haltSentinel : Word
  /-- `P_HALT_PENDING` -/
  haltPending : Word
  /-- `P_RESULT_A` -/
  resultA : Word
  /-- `P_RESULT_B` -/
  resultB : Word
  deriving DecidableEq, Repr

namespace Config

/-- `P_SLOT_PC` = 32 (00_scope.md R21; 10_state.md R52; log 27). -/
def slotPC : Nat := 32

/-- `P_SLOT_HI` = 33 (00_scope.md R21; 10_state.md R52). -/
def slotHI : Nat := 33

/-- `P_SLOT_LO` = 34 (00_scope.md R21; 10_state.md R52). -/
def slotLO : Nat := 34

/-- The number of slots of the Register File View (10_state.md R52). -/
def slots : Nat := 35

/-- The presence of a group: CORE is always there, an optional group has a three-valued parameter,
an unmodelled one a two-valued parameter (00_scope.md R7, R21). -/
def presence (c : Config) : Group → Presence
  | .core => .implemented
  | .unaligned => c.groupUnaligned
  | .llsc => c.groupLlsc
  | .cmov => c.groupCmov
  | .mul => c.groupMul
  | .madd => c.groupMadd
  | .clz => c.groupClz
  | .sync => c.groupSync
  | .likely => c.groupLikely
  | .syscall => c.groupSyscall.toPresence
  | .brk => c.groupBreak.toPresence
  | .trap => c.groupTrap.toPresence
  | .cop => c.groupCop.toPresence
  | .ase => c.groupAse.toPresence
  | .r2 => c.groupR2.toPresence

/-- `P_GAS_COST(m)` (40_step_cycle.md R215): it depends on the mnemonic alone. -/
def gasCost (c : Config) (m : Mnemonic) : Nat := (assoc m c.gasSpecial).getD c.gasBase

/-- `P_DIV0(signed, rs, hi, lo) = (hi', lo')` (42_muldiv.md R303, R304): HI and LO after a division by
zero. A free value: nothing in the model constrains it (log 9). -/
opaque div0 : Bool → Word → Word → Word → Word × Word

/-- `P_DIV_OVF(hi, lo) = (hi', lo')` (42_muldiv.md R303): HI and LO after `0x80000000 / -1`. A free
value (log 10). -/
opaque divOvf : Word → Word → Word × Word

/-- `P_MUL_HILO(rs, rt, hi, lo) = (hi', lo')` (42_muldiv.md R309): HI and LO after MUL. A free value
(log 11). -/
opaque mulHiLo : Word → Word → Word → Word → Word × Word

/-- The halting predicates other than the default, numbered, of the memory `M` (00_scope.md R21, R22;
40_step_cycle.md R212). Free values (log 12). -/
opaque haltedBy : Nat → List Host.Cell → Bool

/-- The key functions other than the default, numbered, of the memory `M` (00_scope.md R21; 20_memory.md R119).
Free values (log 13). -/
opaque keyBy : Nat → List Host.Cell → Key

/-- The instance that `State.reset` carries (logs 2 to 8). Every value is a DESIGN CHOICE of the model;
the addresses of the Register File View and of the oracle mailbox are those of the spec's own examples
(95_test_vectors.md preamble; 44_load_store.md, the worked oracle example). -/
def instanceAtReset : Config where
  regBase := 0xC0000000
  groupUnaligned := .implemented
  groupLlsc := .implemented
  groupCmov := .implemented
  groupMul := .implemented
  groupMadd := .implemented
  groupClz := .implemented
  groupSync := .implemented
  groupLikely := .implemented
  groupSyscall := .invalid
  groupBreak := .invalid
  groupTrap := .invalid
  groupCop := .invalid
  groupAse := .invalid
  groupR2 := .invalid
  strictFields := .ignore
  regfileData := .aliased
  halfOdd := .clearBit0
  ctInDs := .pair
  gasBase := 1
  gasSpecial := []
  oracleKeyBase := 0x30000000
  oracleKeyWords := 1
  oracleKeyOf := .keyWords
  oracleTrigger := 0x30000010
  oracleWinBase := 0x30000020
  oracleWinWords := 2
  oracleLayout := []
  halting := .sentinel
  haltSentinel := 0xBFFFFFF0
  haltPending := 0
  resultA := 0xBFFFFFF4
  resultB := 0xBFFFFFF8

end Config

end Sys2Proof
end

