-- ==== Sys2Proof/Syntax.lean ====
section
/-! DEFINITION. The instructions: one constructor per row of opcode_table.json (30_encoding.md R163). -/

namespace Sys2Proof

/-- The instructions of 30_encoding.md R163, one constructor per mnemonic. Each carries the
operand fields of its row in the order they stand in the word, from bit 25 down; a field that the
row fixes (R167) stands in the Operation alone (log 23). `code` is bits 25..6 and `stype` bits 10..6 (R150). -/
inductive Instr where
  -- SPECIAL (op 0x00, 30_encoding.md R158)
  | sll (rt rd : RegNum) (sa : BitVec 5)
  | movci (rs rt rd : RegNum) (sa : BitVec 5)
  | srl (rt rd : RegNum) (sa : BitVec 5)
  | sra (rt rd : RegNum) (sa : BitVec 5)
  | sllv (rs rt rd : RegNum)
  | srlv (rs rt rd : RegNum)
  | srav (rs rt rd : RegNum)
  | jr (rs : RegNum)
  | jalr (rs rd : RegNum)
  | movz (rs rt rd : RegNum)
  | movn (rs rt rd : RegNum)
  | syscall (code : BitVec 20)
  | break_ (code : BitVec 20)
  | sync (stype : BitVec 5)
  | mfhi (rd : RegNum)
  | mthi (rs : RegNum)
  | mflo (rd : RegNum)
  | mtlo (rs : RegNum)
  | mult (rs rt : RegNum)
  | multu (rs rt : RegNum)
  | div (rs rt : RegNum)
  | divu (rs rt : RegNum)
  | add (rs rt rd : RegNum)
  | addu (rs rt rd : RegNum)
  | sub (rs rt rd : RegNum)
  | subu (rs rt rd : RegNum)
  | and (rs rt rd : RegNum)
  | or (rs rt rd : RegNum)
  | xor (rs rt rd : RegNum)
  | nor (rs rt rd : RegNum)
  | slt (rs rt rd : RegNum)
  | sltu (rs rt rd : RegNum)
  | tge (rs rt rd : RegNum) (sa : BitVec 5)
  | tgeu (rs rt rd : RegNum) (sa : BitVec 5)
  | tlt (rs rt rd : RegNum) (sa : BitVec 5)
  | tltu (rs rt rd : RegNum) (sa : BitVec 5)
  | teq (rs rt rd : RegNum) (sa : BitVec 5)
  | tne (rs rt rd : RegNum) (sa : BitVec 5)
  -- REGIMM (op 0x01, 30_encoding.md R159)
  | bltz (rs : RegNum) (imm : Imm16)
  | bgez (rs : RegNum) (imm : Imm16)
  | bltzl (rs : RegNum) (imm : Imm16)
  | bgezl (rs : RegNum) (imm : Imm16)
  | tgei (rs : RegNum) (imm : Imm16)
  | tgeiu (rs : RegNum) (imm : Imm16)
  | tlti (rs : RegNum) (imm : Imm16)
  | tltiu (rs : RegNum) (imm : Imm16)
  | teqi (rs : RegNum) (imm : Imm16)
  | tnei (rs : RegNum) (imm : Imm16)
  | bltzal (rs : RegNum) (imm : Imm16)
  | bgezal (rs : RegNum) (imm : Imm16)
  | bltzall (rs : RegNum) (imm : Imm16)
  | bgezall (rs : RegNum) (imm : Imm16)
  | synci (rs : RegNum) (imm : Imm16)
  -- SPECIAL2 (op 0x1C, 30_encoding.md R160)
  | madd (rs rt : RegNum)
  | maddu (rs rt : RegNum)
  | mul (rs rt rd : RegNum)
  | msub (rs rt : RegNum)
  | msubu (rs rt : RegNum)
  | clz (rs rd : RegNum)
  | clo (rs rd : RegNum)
  | sdbbp (code : BitVec 20)
  -- primary opcodes (30_encoding.md R157)
  | j (index : Index26)
  | jal (index : Index26)
  | beq (rs rt : RegNum) (imm : Imm16)
  | bne (rs rt : RegNum) (imm : Imm16)
  | blez (rs : RegNum) (imm : Imm16)
  | bgtz (rs : RegNum) (imm : Imm16)
  | addi (rs rt : RegNum) (imm : Imm16)
  | addiu (rs rt : RegNum) (imm : Imm16)
  | slti (rs rt : RegNum) (imm : Imm16)
  | sltiu (rs rt : RegNum) (imm : Imm16)
  | andi (rs rt : RegNum) (imm : Imm16)
  | ori (rs rt : RegNum) (imm : Imm16)
  | xori (rs rt : RegNum) (imm : Imm16)
  | lui (rt : RegNum) (imm : Imm16)
  | cop0 (rs rt : RegNum) (imm : Imm16)
  | cop1 (rs rt : RegNum) (imm : Imm16)
  | cop2 (rs rt : RegNum) (imm : Imm16)
  | cop1x (rs rt : RegNum) (imm : Imm16)
  | beql (rs rt : RegNum) (imm : Imm16)
  | bnel (rs rt : RegNum) (imm : Imm16)
  | blezl (rs : RegNum) (imm : Imm16)
  | bgtzl (rs : RegNum) (imm : Imm16)
  | jalx (index : Index26)
  | special3 (rs rt : RegNum) (imm : Imm16)
  | lb (rs rt : RegNum) (imm : Imm16)
  | lh (rs rt : RegNum) (imm : Imm16)
  | lwl (rs rt : RegNum) (imm : Imm16)
  | lw (rs rt : RegNum) (imm : Imm16)
  | lbu (rs rt : RegNum) (imm : Imm16)
  | lhu (rs rt : RegNum) (imm : Imm16)
  | lwr (rs rt : RegNum) (imm : Imm16)
  | sb (rs rt : RegNum) (imm : Imm16)
  | sh (rs rt : RegNum) (imm : Imm16)
  | swl (rs rt : RegNum) (imm : Imm16)
  | sw (rs rt : RegNum) (imm : Imm16)
  | swr (rs rt : RegNum) (imm : Imm16)
  | cache (rs rt : RegNum) (imm : Imm16)
  | ll (rs rt : RegNum) (imm : Imm16)
  | lwc1 (rs rt : RegNum) (imm : Imm16)
  | lwc2 (rs rt : RegNum) (imm : Imm16)
  | pref (rs rt : RegNum) (imm : Imm16)
  | ldc1 (rs rt : RegNum) (imm : Imm16)
  | ldc2 (rs rt : RegNum) (imm : Imm16)
  | sc (rs rt : RegNum) (imm : Imm16)
  | swc1 (rs rt : RegNum) (imm : Imm16)
  | swc2 (rs rt : RegNum) (imm : Imm16)
  | sdc1 (rs rt : RegNum) (imm : Imm16)
  | sdc2 (rs rt : RegNum) (imm : Imm16)
  deriving DecidableEq, Repr

/-- The descriptor the decoder gives (30_encoding.md R161, R163): the constructor of the mnemonic, the raw fields of
the word, each an unsigned number of its width, and the word itself (log 23). -/
structure Operation where
  instr : Instr
  rs : RegNum
  rt : RegNum
  rd : RegNum
  sa : BitVec 5
  funct : BitVec 6
  imm : Imm16
  index : Index26
  word : Word
  deriving DecidableEq, Repr

/-- The mnemonic of an instruction (30_encoding.md R163); its group and its gas cost follow from it. -/
def Instr.mnemonic : Instr → Mnemonic
  | .sll .. => .sll
  | .movci .. => .movci
  | .srl .. => .srl
  | .sra .. => .sra
  | .sllv .. => .sllv
  | .srlv .. => .srlv
  | .srav .. => .srav
  | .jr .. => .jr
  | .jalr .. => .jalr
  | .movz .. => .movz
  | .movn .. => .movn
  | .syscall .. => .syscall
  | .break_ .. => .break_
  | .sync .. => .sync
  | .mfhi .. => .mfhi
  | .mthi .. => .mthi
  | .mflo .. => .mflo
  | .mtlo .. => .mtlo
  | .mult .. => .mult
  | .multu .. => .multu
  | .div .. => .div
  | .divu .. => .divu
  | .add .. => .add
  | .addu .. => .addu
  | .sub .. => .sub
  | .subu .. => .subu
  | .and .. => .and
  | .or .. => .or
  | .xor .. => .xor
  | .nor .. => .nor
  | .slt .. => .slt
  | .sltu .. => .sltu
  | .tge .. => .tge
  | .tgeu .. => .tgeu
  | .tlt .. => .tlt
  | .tltu .. => .tltu
  | .teq .. => .teq
  | .tne .. => .tne
  | .bltz .. => .bltz
  | .bgez .. => .bgez
  | .bltzl .. => .bltzl
  | .bgezl .. => .bgezl
  | .tgei .. => .tgei
  | .tgeiu .. => .tgeiu
  | .tlti .. => .tlti
  | .tltiu .. => .tltiu
  | .teqi .. => .teqi
  | .tnei .. => .tnei
  | .bltzal .. => .bltzal
  | .bgezal .. => .bgezal
  | .bltzall .. => .bltzall
  | .bgezall .. => .bgezall
  | .synci .. => .synci
  | .madd .. => .madd
  | .maddu .. => .maddu
  | .mul .. => .mul
  | .msub .. => .msub
  | .msubu .. => .msubu
  | .clz .. => .clz
  | .clo .. => .clo
  | .sdbbp .. => .sdbbp
  | .j .. => .j
  | .jal .. => .jal
  | .beq .. => .beq
  | .bne .. => .bne
  | .blez .. => .blez
  | .bgtz .. => .bgtz
  | .addi .. => .addi
  | .addiu .. => .addiu
  | .slti .. => .slti
  | .sltiu .. => .sltiu
  | .andi .. => .andi
  | .ori .. => .ori
  | .xori .. => .xori
  | .lui .. => .lui
  | .cop0 .. => .cop0
  | .cop1 .. => .cop1
  | .cop2 .. => .cop2
  | .cop1x .. => .cop1x
  | .beql .. => .beql
  | .bnel .. => .bnel
  | .blezl .. => .blezl
  | .bgtzl .. => .bgtzl
  | .jalx .. => .jalx
  | .special3 .. => .special3
  | .lb .. => .lb
  | .lh .. => .lh
  | .lwl .. => .lwl
  | .lw .. => .lw
  | .lbu .. => .lbu
  | .lhu .. => .lhu
  | .lwr .. => .lwr
  | .sb .. => .sb
  | .sh .. => .sh
  | .swl .. => .swl
  | .sw .. => .sw
  | .swr .. => .swr
  | .cache .. => .cache
  | .ll .. => .ll
  | .lwc1 .. => .lwc1
  | .lwc2 .. => .lwc2
  | .pref .. => .pref
  | .ldc1 .. => .ldc1
  | .ldc2 .. => .ldc2
  | .sc .. => .sc
  | .swc1 .. => .swc1
  | .swc2 .. => .swc2
  | .sdc1 .. => .sdc1
  | .sdc2 .. => .sdc2

/-- The group of an instruction (30_encoding.md R164). -/
def Instr.group (i : Instr) : Group := i.mnemonic.group

/-- Whether the instruction is a control transfer, with a delay slot (30_encoding.md R170). -/
def Instr.isCT (i : Instr) : Bool := i.mnemonic.isCT

end Sys2Proof
end

