-- ==== Sys2Proof/WellFormed.lean ====
section
/-! DEFINITION. Well-formedness: the valid parameter sets (00_scope.md R21; 20_memory.md R110) and the
instructions an instance admits (30_encoding.md R166). Each check is a Bool of its own. -/

namespace Sys2Proof

/-- A range of `words` words from byte address `base`, as natural numbers (20_memory.md R110). -/
structure WordRange where
  base : Nat
  words : Nat
  deriving DecidableEq, Repr

namespace WordRange

/-- The range starts at a word address. -/
def aligned (r : WordRange) : Bool := r.base % 4 == 0

/-- "No range wraps past address 2^32 - 1" (20_memory.md R110). -/
def noWrap (r : WordRange) : Bool := decide (r.base + 4 * r.words ≤ 2 ^ 32)

/-- Two ranges have no word in common. -/
def disjoint (r q : WordRange) : Bool :=
  decide (r.words = 0 ∨ q.words = 0 ∨ r.base + 4 * r.words ≤ q.base ∨ q.base + 4 * q.words ≤ r.base)

end WordRange

namespace Config

/-- REGR, the Register File View (20_memory.md R110). -/
def regRange (c : Config) : WordRange := ⟨c.regBase.toNat, slots⟩

/-- KEYR, the oracle key words (20_memory.md R110). -/
def keyRange (c : Config) : WordRange := ⟨c.oracleKeyBase.toNat, c.oracleKeyWords⟩

/-- TRIG, the oracle trigger word (20_memory.md R110). -/
def trigRange (c : Config) : WordRange := ⟨c.oracleTrigger.toNat, 1⟩

/-- WINR, the oracle window (20_memory.md R110). -/
def winRange (c : Config) : WordRange := ⟨c.oracleWinBase.toNat, c.oracleWinWords⟩

/-- HALTW, the halt-protocol words, one range each (20_memory.md R110). -/
def haltRanges (c : Config) : List WordRange :=
  [⟨c.haltSentinel.toNat, 1⟩, ⟨c.resultA.toNat, 1⟩, ⟨c.resultB.toNat, 1⟩]

/-- Every address parameter is a "Word, multiple of 4" (00_scope.md R21). -/
def wfAligned (c : Config) : Bool :=
  c.regRange.aligned && c.keyRange.aligned && c.trigRange.aligned && c.winRange.aligned
    && c.haltRanges.all WordRange.aligned

/-- `P_REG_BASE + 4*34 + 3 < 2^32`, and no other range wraps (00_scope.md R21; 20_memory.md R110). -/
def wfNoWrap (c : Config) : Bool :=
  c.regRange.noWrap && c.keyRange.noWrap && c.winRange.noWrap

/-- `P_ORACLE_KEY_WORDS` is "Nat, at least 1" (00_scope.md R21). -/
def wfKeyWords (c : Config) : Bool := decide (1 ≤ c.oracleKeyWords)

/-- "REGR, KEYR and WINR are pairwise disjoint" (20_memory.md R110). -/
def wfDisjoint (c : Config) : Bool :=
  c.regRange.disjoint c.keyRange && c.regRange.disjoint c.winRange && c.keyRange.disjoint c.winRange

/-- "TRIG is in neither REGR nor KEYR. It may lie inside WINR." (20_memory.md R110). -/
def wfTrigger (c : Config) : Bool :=
  c.trigRange.disjoint c.regRange && c.trigRange.disjoint c.keyRange

/-- "HALTW is disjoint from REGR, KEYR, TRIG and WINR" (20_memory.md R110). -/
def wfHalt (c : Config) : Bool :=
  c.haltRanges.all fun h =>
    h.disjoint c.regRange && h.disjoint c.keyRange && h.disjoint c.trigRange && h.disjoint c.winRange

/-- A valid parameter set: "A parameter set that breaks them is outside the spec" (20_memory.md R110; log 25). -/
def wf (c : Config) : Bool :=
  c.wfAligned && c.wfNoWrap && c.wfKeyWords && c.wfDisjoint && c.wfTrigger && c.wfHalt

end Config

/-- The instance admits the instruction: its group is there (30_encoding.md R166). Operand fields need no
check, since each has exactly its field's width. -/
def Instr.wf (c : Config) (i : Instr) : Bool := c.presence i.group == .implemented

end Sys2Proof
end

