-- ==== Sys2Proof/Decode.lean ====
section
/-! DEFINITION. Decoding (30_encoding.md): the field positions (R150), the opcode maps (R157 to R160), the
decode procedure with its three verdicts (R161), and the encoder written from the same tables. -/

namespace Sys2Proof

/-- `op = w[31:26]` (00_scope.md R36; 30_encoding.md R150). -/
def opField (w : Word) : BitVec 6 := w.extractLsb' 26 6

/-- `rs = w[25:21]` (30_encoding.md R150). -/
def rsField (w : Word) : RegNum := w.extractLsb' 21 5

/-- `rt = w[20:16]` (30_encoding.md R150). -/
def rtField (w : Word) : RegNum := w.extractLsb' 16 5

/-- `rd = w[15:11]` (30_encoding.md R150). -/
def rdField (w : Word) : RegNum := w.extractLsb' 11 5

/-- `sa = w[10:6]`, which is `stype` for SYNC (30_encoding.md R150). -/
def saField (w : Word) : BitVec 5 := w.extractLsb' 6 5

/-- `funct = w[5:0]` (30_encoding.md R150). -/
def functField (w : Word) : BitVec 6 := w.extractLsb' 0 6

/-- `imm = w[15:0]` (30_encoding.md R150). -/
def immField (w : Word) : Imm16 := w.extractLsb' 0 16

/-- `index = w[25:0]` (30_encoding.md R150). -/
def indexField (w : Word) : Index26 := w.extractLsb' 0 26

/-- `code = w[25:6]` (30_encoding.md R150). -/
def codeField (w : Word) : BitVec 20 := w.extractLsb' 6 20

/-- Part 1 of `specialMap`. -/
def specialMapA : List (Nat × Mnemonic) :=
  [(0x00, .sll), (0x01, .movci), (0x02, .srl), (0x03, .sra), (0x04, .sllv), (0x06, .srlv),
   (0x07, .srav), (0x08, .jr), (0x09, .jalr), (0x0A, .movz), (0x0B, .movn), (0x0C, .syscall),
   (0x0D, .break_), (0x0F, .sync), (0x10, .mfhi), (0x11, .mthi)]

/-- Part 2 of `specialMap`. -/
def specialMapB : List (Nat × Mnemonic) :=
  [(0x12, .mflo), (0x13, .mtlo), (0x18, .mult), (0x19, .multu), (0x1A, .div), (0x1B, .divu),
   (0x20, .add), (0x21, .addu), (0x22, .sub), (0x23, .subu), (0x24, .and), (0x25, .or),
   (0x26, .xor), (0x27, .nor), (0x2A, .slt), (0x2B, .sltu)]

/-- Part 3 of `specialMap`. -/
def specialMapC : List (Nat × Mnemonic) :=
  [(0x30, .tge), (0x31, .tgeu), (0x32, .tlt), (0x33, .tltu), (0x34, .teq), (0x36, .tne)]

/-- The SPECIAL map, selected by `funct`; a selector it does not list is reserved (30_encoding.md R158). -/
def specialMap : List (Nat × Mnemonic) := specialMapA ++ specialMapB ++ specialMapC

/-- The REGIMM map, selected by the `rt` field (30_encoding.md R159). -/
def regimmMap : List (Nat × Mnemonic) :=
  [(0x00, .bltz), (0x01, .bgez), (0x02, .bltzl), (0x03, .bgezl), (0x08, .tgei), (0x09, .tgeiu),
   (0x0A, .tlti), (0x0B, .tltiu), (0x0C, .teqi), (0x0E, .tnei), (0x10, .bltzal), (0x11, .bgezal),
   (0x12, .bltzall), (0x13, .bgezall), (0x1F, .synci)]

/-- The SPECIAL2 map, selected by `funct` (30_encoding.md R160). -/
def special2Map : List (Nat × Mnemonic) :=
  [(0x00, .madd), (0x01, .maddu), (0x02, .mul), (0x04, .msub), (0x05, .msubu), (0x20, .clz),
   (0x21, .clo), (0x3F, .sdbbp)]

/-- Part 1 of `primaryMap`. -/
def primaryMapA : List (Nat × Mnemonic) :=
  [(0x02, .j), (0x03, .jal), (0x04, .beq), (0x05, .bne), (0x06, .blez), (0x07, .bgtz),
   (0x08, .addi), (0x09, .addiu), (0x0A, .slti), (0x0B, .sltiu), (0x0C, .andi), (0x0D, .ori),
   (0x0E, .xori), (0x0F, .lui), (0x10, .cop0), (0x11, .cop1)]

/-- Part 2 of `primaryMap`. -/
def primaryMapB : List (Nat × Mnemonic) :=
  [(0x12, .cop2), (0x13, .cop1x), (0x14, .beql), (0x15, .bnel), (0x16, .blezl), (0x17, .bgtzl),
   (0x1D, .jalx), (0x1F, .special3), (0x20, .lb), (0x21, .lh), (0x22, .lwl), (0x23, .lw),
   (0x24, .lbu), (0x25, .lhu), (0x26, .lwr), (0x28, .sb)]

/-- Part 3 of `primaryMap`. -/
def primaryMapC : List (Nat × Mnemonic) :=
  [(0x29, .sh), (0x2A, .swl), (0x2B, .sw), (0x2E, .swr), (0x2F, .cache), (0x30, .ll),
   (0x31, .lwc1), (0x32, .lwc2), (0x33, .pref), (0x35, .ldc1), (0x36, .ldc2), (0x38, .sc),
   (0x39, .swc1), (0x3A, .swc2), (0x3D, .sdc1), (0x3E, .sdc2)]

/-- The primary map, selected by `op`, less its three second-level maps (30_encoding.md R157). -/
def primaryMap : List (Nat × Mnemonic) := primaryMapA ++ primaryMapB ++ primaryMapC

/-- The entry a word selects: `e` of 30_encoding.md R161, or none for a reserved entry (R165). -/
def selectMnemonic (w : Word) : Option Mnemonic :=
  let op := (opField w).toNat
  if op = 0x00 then assoc (functField w).toNat specialMap
  else if op = 0x01 then assoc (rtField w).toNat regimmMap
  else if op = 0x1C then assoc (functField w).toNat special2Map
  else assoc op primaryMap

/-- The descriptor of a mnemonic, with the operand fields read from the word (30_encoding.md R163). -/
def Instr.ofFields (w : Word) : Mnemonic → Instr
  | .sll => .sll (rtField w) (rdField w) (saField w)
  | .movci => .movci (rsField w) (rtField w) (rdField w) (saField w)
  | .srl => .srl (rtField w) (rdField w) (saField w)
  | .sra => .sra (rtField w) (rdField w) (saField w)
  | .sllv => .sllv (rsField w) (rtField w) (rdField w)
  | .srlv => .srlv (rsField w) (rtField w) (rdField w)
  | .srav => .srav (rsField w) (rtField w) (rdField w)
  | .jr => .jr (rsField w)
  | .jalr => .jalr (rsField w) (rdField w)
  | .movz => .movz (rsField w) (rtField w) (rdField w)
  | .movn => .movn (rsField w) (rtField w) (rdField w)
  | .syscall => .syscall (codeField w)
  | .break_ => .break_ (codeField w)
  | .sync => .sync (saField w)
  | .mfhi => .mfhi (rdField w)
  | .mthi => .mthi (rsField w)
  | .mflo => .mflo (rdField w)
  | .mtlo => .mtlo (rsField w)
  | .mult => .mult (rsField w) (rtField w)
  | .multu => .multu (rsField w) (rtField w)
  | .div => .div (rsField w) (rtField w)
  | .divu => .divu (rsField w) (rtField w)
  | .add => .add (rsField w) (rtField w) (rdField w)
  | .addu => .addu (rsField w) (rtField w) (rdField w)
  | .sub => .sub (rsField w) (rtField w) (rdField w)
  | .subu => .subu (rsField w) (rtField w) (rdField w)
  | .and => .and (rsField w) (rtField w) (rdField w)
  | .or => .or (rsField w) (rtField w) (rdField w)
  | .xor => .xor (rsField w) (rtField w) (rdField w)
  | .nor => .nor (rsField w) (rtField w) (rdField w)
  | .slt => .slt (rsField w) (rtField w) (rdField w)
  | .sltu => .sltu (rsField w) (rtField w) (rdField w)
  | .tge => .tge (rsField w) (rtField w) (rdField w) (saField w)
  | .tgeu => .tgeu (rsField w) (rtField w) (rdField w) (saField w)
  | .tlt => .tlt (rsField w) (rtField w) (rdField w) (saField w)
  | .tltu => .tltu (rsField w) (rtField w) (rdField w) (saField w)
  | .teq => .teq (rsField w) (rtField w) (rdField w) (saField w)
  | .tne => .tne (rsField w) (rtField w) (rdField w) (saField w)
  | .bltz => .bltz (rsField w) (immField w)
  | .bgez => .bgez (rsField w) (immField w)
  | .bltzl => .bltzl (rsField w) (immField w)
  | .bgezl => .bgezl (rsField w) (immField w)
  | .tgei => .tgei (rsField w) (immField w)
  | .tgeiu => .tgeiu (rsField w) (immField w)
  | .tlti => .tlti (rsField w) (immField w)
  | .tltiu => .tltiu (rsField w) (immField w)
  | .teqi => .teqi (rsField w) (immField w)
  | .tnei => .tnei (rsField w) (immField w)
  | .bltzal => .bltzal (rsField w) (immField w)
  | .bgezal => .bgezal (rsField w) (immField w)
  | .bltzall => .bltzall (rsField w) (immField w)
  | .bgezall => .bgezall (rsField w) (immField w)
  | .synci => .synci (rsField w) (immField w)
  | .madd => .madd (rsField w) (rtField w)
  | .maddu => .maddu (rsField w) (rtField w)
  | .mul => .mul (rsField w) (rtField w) (rdField w)
  | .msub => .msub (rsField w) (rtField w)
  | .msubu => .msubu (rsField w) (rtField w)
  | .clz => .clz (rsField w) (rdField w)
  | .clo => .clo (rsField w) (rdField w)
  | .sdbbp => .sdbbp (codeField w)
  | .j => .j (indexField w)
  | .jal => .jal (indexField w)
  | .beq => .beq (rsField w) (rtField w) (immField w)
  | .bne => .bne (rsField w) (rtField w) (immField w)
  | .blez => .blez (rsField w) (immField w)
  | .bgtz => .bgtz (rsField w) (immField w)
  | .addi => .addi (rsField w) (rtField w) (immField w)
  | .addiu => .addiu (rsField w) (rtField w) (immField w)
  | .slti => .slti (rsField w) (rtField w) (immField w)
  | .sltiu => .sltiu (rsField w) (rtField w) (immField w)
  | .andi => .andi (rsField w) (rtField w) (immField w)
  | .ori => .ori (rsField w) (rtField w) (immField w)
  | .xori => .xori (rsField w) (rtField w) (immField w)
  | .lui => .lui (rtField w) (immField w)
  | .cop0 => .cop0 (rsField w) (rtField w) (immField w)
  | .cop1 => .cop1 (rsField w) (rtField w) (immField w)
  | .cop2 => .cop2 (rsField w) (rtField w) (immField w)
  | .cop1x => .cop1x (rsField w) (rtField w) (immField w)
  | .beql => .beql (rsField w) (rtField w) (immField w)
  | .bnel => .bnel (rsField w) (rtField w) (immField w)
  | .blezl => .blezl (rsField w) (immField w)
  | .bgtzl => .bgtzl (rsField w) (immField w)
  | .jalx => .jalx (indexField w)
  | .special3 => .special3 (rsField w) (rtField w) (immField w)
  | .lb => .lb (rsField w) (rtField w) (immField w)
  | .lh => .lh (rsField w) (rtField w) (immField w)
  | .lwl => .lwl (rsField w) (rtField w) (immField w)
  | .lw => .lw (rsField w) (rtField w) (immField w)
  | .lbu => .lbu (rsField w) (rtField w) (immField w)
  | .lhu => .lhu (rsField w) (rtField w) (immField w)
  | .lwr => .lwr (rsField w) (rtField w) (immField w)
  | .sb => .sb (rsField w) (rtField w) (immField w)
  | .sh => .sh (rsField w) (rtField w) (immField w)
  | .swl => .swl (rsField w) (rtField w) (immField w)
  | .sw => .sw (rsField w) (rtField w) (immField w)
  | .swr => .swr (rsField w) (rtField w) (immField w)
  | .cache => .cache (rsField w) (rtField w) (immField w)
  | .ll => .ll (rsField w) (rtField w) (immField w)
  | .lwc1 => .lwc1 (rsField w) (rtField w) (immField w)
  | .lwc2 => .lwc2 (rsField w) (rtField w) (immField w)
  | .pref => .pref (rsField w) (rtField w) (immField w)
  | .ldc1 => .ldc1 (rsField w) (rtField w) (immField w)
  | .ldc2 => .ldc2 (rsField w) (rtField w) (immField w)
  | .sc => .sc (rsField w) (rtField w) (immField w)
  | .swc1 => .swc1 (rsField w) (rtField w) (immField w)
  | .swc2 => .swc2 (rsField w) (rtField w) (immField w)
  | .sdc1 => .sdc1 (rsField w) (rtField w) (immField w)
  | .sdc2 => .sdc2 (rsField w) (rtField w) (immField w)

/-- The instruction a word selects, whatever the parameters say of it; none where the entry is
reserved (30_encoding.md R161, R165). -/
def decodeWord (w : Word) : Option Instr := (selectMnemonic w).map (Instr.ofFields w)

/-- `fieldsOK(e, w)`: the fields MIPS32 fixes at zero, and those that must agree (30_encoding.md R167). -/
def fieldsOK (w : Word) : Mnemonic → Bool
  | .sll | .srl | .sra | .lui =>
    rsField w == 0
  | .sllv | .srlv | .srav | .movz | .movn | .add | .addu | .sub | .subu | .and | .or | .xor | .nor
  | .slt | .sltu | .mul =>
    saField w == 0
  | .jr | .mthi | .mtlo =>
    rtField w == 0 && rdField w == 0 && saField w == 0
  | .jalr =>
    rtField w == 0 && saField w == 0
  | .sync =>
    rsField w == 0 && rtField w == 0 && rdField w == 0
  | .mfhi | .mflo =>
    rsField w == 0 && rtField w == 0 && saField w == 0
  | .mult | .multu | .div | .divu | .madd | .maddu | .msub | .msubu =>
    rdField w == 0 && saField w == 0
  | .clz | .clo =>
    saField w == 0 && rtField w == rdField w
  | .blez | .bgtz | .blezl | .bgtzl =>
    rtField w == 0
  | .movci | .syscall | .break_ | .tge | .tgeu | .tlt | .tltu | .teq | .tne | .bltz | .bgez
  | .bltzl | .bgezl | .tgei | .tgeiu | .tlti | .tltiu | .teqi | .tnei | .bltzal | .bgezal
  | .bltzall | .bgezall | .synci | .sdbbp | .j | .jal | .beq | .bne | .addi | .addiu | .slti
  | .sltiu | .andi | .ori | .xori | .cop0 | .cop1 | .cop2 | .cop1x | .beql | .bnel | .jalx
  | .special3 | .lb | .lh | .lwl | .lw | .lbu | .lhu | .lwr | .sb | .sh | .swl | .sw | .swr
  | .cache | .ll | .lwc1 | .lwc2 | .pref | .ldc1 | .ldc2 | .sc | .swc1 | .swc2 | .sdc1 | .sdc2 =>
    true

/-- The descriptor of the instruction `i` of the word `w` (30_encoding.md R161, R163). -/
def describe (w : Word) (i : Instr) : Operation where
  instr := i
  rs := rsField w
  rt := rtField w
  rd := rdField w
  sa := saField w
  funct := functField w
  imm := immField w
  index := indexField w
  word := w

/-- The verdicts of `decode` (30_encoding.md R161): `Op`, `InvalidOpcode`, and `Refuse` with its reason,
GROUP_UNKNOWN(g) or FIELDS (60_exceptions.md R507). -/
inductive Verdict where
  | op (o : Operation)
  | invalidOpcode
  | groupUnknown (g : Group)
  | fieldsRefused
  deriving DecidableEq, Repr

/-- The last check of the decode procedure: the must-be-zero fields under `P_STRICT_FIELDS`
(30_encoding.md R161, R167). -/
def fieldsVerdict (c : Config) (w : Word) (i : Instr) : Verdict :=
  if fieldsOK w i.mnemonic then .op (describe w i)
  else match c.strictFields with
    | .ignore => .op (describe w i)
    | .invalid => .invalidOpcode
    | .refuse => .fieldsRefused

/-- `decode(w)` (30_encoding.md R161): reserved, then the group, then the fields. -/
def decode (c : Config) (w : Word) : Verdict :=
  match decodeWord w with
  | none => .invalidOpcode
  | some i =>
    match c.presence i.group with
    | .invalid => .invalidOpcode
    | .unknown => .groupUnknown i.group
    | .implemented => fieldsVerdict c w i

/-- The big-endian bytes of a word (20_memory.md R103, R119). -/
def wordBytes (w : Word) : List Byte :=
  [w.extractLsb' 24 8, w.extractLsb' 16 8, w.extractLsb' 8 8, w.extractLsb' 0 8]

/-- The word of four bytes, the first in bits 31..24 (20_memory.md R103, R104). -/
def wordOfBytes (b0 b1 b2 b3 : Byte) : Word := b0 ++ b1 ++ b2 ++ b3

/-- Why bytes do not decode: fewer than four of them, or a reserved entry (30_encoding.md R150, R165). -/
inductive DecodeError where
  | tooShort
  | reserved (w : Word)
  deriving DecidableEq, Repr

/-- The instruction at the head of a byte string and the bytes after it: every instruction is one
big-endian word (30_encoding.md R150; 20_memory.md R104). -/
def decodeBytes : List Byte → Except DecodeError (Instr × List Byte)
  | b0 :: b1 :: b2 :: b3 :: rest =>
    match decodeWord (wordOfBytes b0 b1 b2 b3) with
    | some i => .ok (i, rest)
    | none => .error (.reserved (wordOfBytes b0 b1 b2 b3))
  | _ => .error .tooShort

/-- What the decoder reads from an instruction whose bits are `w`, laid out big-endian; `nbits` is how
many of them the opcode table gives, the bits above are 0. -/
def decodeTableWord (nbits w : Nat) : Option Instr :=
  match decodeBytes (wordBytes (BitVec.ofNat 32 (w % 2 ^ nbits))) with
  | .ok (i, _) => some i
  | .error _ => none

/-- The R-type layout (30_encoding.md R151). -/
def rType (op : BitVec 6) (rs rt rd : RegNum) (sa : BitVec 5) (funct : BitVec 6) : Word :=
  op ++ rs ++ rt ++ rd ++ sa ++ funct

/-- The I-type layout, and with a selector for `rt` the REGIMM layout (30_encoding.md R152, R153). -/
def iType (op : BitVec 6) (rs rt : RegNum) (imm : Imm16) : Word := op ++ rs ++ rt ++ imm

/-- The J-type layout (30_encoding.md R154). -/
def jType (op : BitVec 6) (index : Index26) : Word := op ++ index

/-- The layout with a 20-bit `code` field (30_encoding.md R150). -/
def codeType (op : BitVec 6) (code : BitVec 20) (funct : BitVec 6) : Word := op ++ code ++ funct

/-- The word of an instruction, every fixed field at the value 30_encoding.md R167 gives it. -/
def encode : Instr → Word
  | .sll rt rd sa => rType 0x00 0 rt rd sa 0x00
  | .movci rs rt rd sa => rType 0x00 rs rt rd sa 0x01
  | .srl rt rd sa => rType 0x00 0 rt rd sa 0x02
  | .sra rt rd sa => rType 0x00 0 rt rd sa 0x03
  | .sllv rs rt rd => rType 0x00 rs rt rd 0 0x04
  | .srlv rs rt rd => rType 0x00 rs rt rd 0 0x06
  | .srav rs rt rd => rType 0x00 rs rt rd 0 0x07
  | .jr rs => rType 0x00 rs 0 0 0 0x08
  | .jalr rs rd => rType 0x00 rs 0 rd 0 0x09
  | .movz rs rt rd => rType 0x00 rs rt rd 0 0x0A
  | .movn rs rt rd => rType 0x00 rs rt rd 0 0x0B
  | .syscall code => codeType 0x00 code 0x0C
  | .break_ code => codeType 0x00 code 0x0D
  | .sync stype => rType 0x00 0 0 0 stype 0x0F
  | .mfhi rd => rType 0x00 0 0 rd 0 0x10
  | .mthi rs => rType 0x00 rs 0 0 0 0x11
  | .mflo rd => rType 0x00 0 0 rd 0 0x12
  | .mtlo rs => rType 0x00 rs 0 0 0 0x13
  | .mult rs rt => rType 0x00 rs rt 0 0 0x18
  | .multu rs rt => rType 0x00 rs rt 0 0 0x19
  | .div rs rt => rType 0x00 rs rt 0 0 0x1A
  | .divu rs rt => rType 0x00 rs rt 0 0 0x1B
  | .add rs rt rd => rType 0x00 rs rt rd 0 0x20
  | .addu rs rt rd => rType 0x00 rs rt rd 0 0x21
  | .sub rs rt rd => rType 0x00 rs rt rd 0 0x22
  | .subu rs rt rd => rType 0x00 rs rt rd 0 0x23
  | .and rs rt rd => rType 0x00 rs rt rd 0 0x24
  | .or rs rt rd => rType 0x00 rs rt rd 0 0x25
  | .xor rs rt rd => rType 0x00 rs rt rd 0 0x26
  | .nor rs rt rd => rType 0x00 rs rt rd 0 0x27
  | .slt rs rt rd => rType 0x00 rs rt rd 0 0x2A
  | .sltu rs rt rd => rType 0x00 rs rt rd 0 0x2B
  | .tge rs rt rd sa => rType 0x00 rs rt rd sa 0x30
  | .tgeu rs rt rd sa => rType 0x00 rs rt rd sa 0x31
  | .tlt rs rt rd sa => rType 0x00 rs rt rd sa 0x32
  | .tltu rs rt rd sa => rType 0x00 rs rt rd sa 0x33
  | .teq rs rt rd sa => rType 0x00 rs rt rd sa 0x34
  | .tne rs rt rd sa => rType 0x00 rs rt rd sa 0x36
  | .bltz rs imm => iType 0x01 rs 0x00 imm
  | .bgez rs imm => iType 0x01 rs 0x01 imm
  | .bltzl rs imm => iType 0x01 rs 0x02 imm
  | .bgezl rs imm => iType 0x01 rs 0x03 imm
  | .tgei rs imm => iType 0x01 rs 0x08 imm
  | .tgeiu rs imm => iType 0x01 rs 0x09 imm
  | .tlti rs imm => iType 0x01 rs 0x0A imm
  | .tltiu rs imm => iType 0x01 rs 0x0B imm
  | .teqi rs imm => iType 0x01 rs 0x0C imm
  | .tnei rs imm => iType 0x01 rs 0x0E imm
  | .bltzal rs imm => iType 0x01 rs 0x10 imm
  | .bgezal rs imm => iType 0x01 rs 0x11 imm
  | .bltzall rs imm => iType 0x01 rs 0x12 imm
  | .bgezall rs imm => iType 0x01 rs 0x13 imm
  | .synci rs imm => iType 0x01 rs 0x1F imm
  | .madd rs rt => rType 0x1C rs rt 0 0 0x00
  | .maddu rs rt => rType 0x1C rs rt 0 0 0x01
  | .mul rs rt rd => rType 0x1C rs rt rd 0 0x02
  | .msub rs rt => rType 0x1C rs rt 0 0 0x04
  | .msubu rs rt => rType 0x1C rs rt 0 0 0x05
  | .clz rs rd => rType 0x1C rs rd rd 0 0x20
  | .clo rs rd => rType 0x1C rs rd rd 0 0x21
  | .sdbbp code => codeType 0x1C code 0x3F
  | .j index => jType 0x02 index
  | .jal index => jType 0x03 index
  | .beq rs rt imm => iType 0x04 rs rt imm
  | .bne rs rt imm => iType 0x05 rs rt imm
  | .blez rs imm => iType 0x06 rs 0 imm
  | .bgtz rs imm => iType 0x07 rs 0 imm
  | .addi rs rt imm => iType 0x08 rs rt imm
  | .addiu rs rt imm => iType 0x09 rs rt imm
  | .slti rs rt imm => iType 0x0A rs rt imm
  | .sltiu rs rt imm => iType 0x0B rs rt imm
  | .andi rs rt imm => iType 0x0C rs rt imm
  | .ori rs rt imm => iType 0x0D rs rt imm
  | .xori rs rt imm => iType 0x0E rs rt imm
  | .lui rt imm => iType 0x0F 0 rt imm
  | .cop0 rs rt imm => iType 0x10 rs rt imm
  | .cop1 rs rt imm => iType 0x11 rs rt imm
  | .cop2 rs rt imm => iType 0x12 rs rt imm
  | .cop1x rs rt imm => iType 0x13 rs rt imm
  | .beql rs rt imm => iType 0x14 rs rt imm
  | .bnel rs rt imm => iType 0x15 rs rt imm
  | .blezl rs imm => iType 0x16 rs 0 imm
  | .bgtzl rs imm => iType 0x17 rs 0 imm
  | .jalx index => jType 0x1D index
  | .special3 rs rt imm => iType 0x1F rs rt imm
  | .lb rs rt imm => iType 0x20 rs rt imm
  | .lh rs rt imm => iType 0x21 rs rt imm
  | .lwl rs rt imm => iType 0x22 rs rt imm
  | .lw rs rt imm => iType 0x23 rs rt imm
  | .lbu rs rt imm => iType 0x24 rs rt imm
  | .lhu rs rt imm => iType 0x25 rs rt imm
  | .lwr rs rt imm => iType 0x26 rs rt imm
  | .sb rs rt imm => iType 0x28 rs rt imm
  | .sh rs rt imm => iType 0x29 rs rt imm
  | .swl rs rt imm => iType 0x2A rs rt imm
  | .sw rs rt imm => iType 0x2B rs rt imm
  | .swr rs rt imm => iType 0x2E rs rt imm
  | .cache rs rt imm => iType 0x2F rs rt imm
  | .ll rs rt imm => iType 0x30 rs rt imm
  | .lwc1 rs rt imm => iType 0x31 rs rt imm
  | .lwc2 rs rt imm => iType 0x32 rs rt imm
  | .pref rs rt imm => iType 0x33 rs rt imm
  | .ldc1 rs rt imm => iType 0x35 rs rt imm
  | .ldc2 rs rt imm => iType 0x36 rs rt imm
  | .sc rs rt imm => iType 0x38 rs rt imm
  | .swc1 rs rt imm => iType 0x39 rs rt imm
  | .swc2 rs rt imm => iType 0x3A rs rt imm
  | .sdc1 rs rt imm => iType 0x3D rs rt imm
  | .sdc2 rs rt imm => iType 0x3E rs rt imm

end Sys2Proof
end

