-- ==== Sys2Proof/Machine/Memory.lean ====
section
/-! DEFINITION. The memory `M` (10_state.md R51): a list of (address, byte) pairs in one canonical form, with
the word store built on it in big-endian order (20_memory.md R100 to R103). -/

namespace Sys2Proof.Machine

/-- The memory: the bytes that are not 0, by address. Materialization "is not observable" (10_state.md R51),
so a byte that holds 0 is not listed (log 17). -/
abbrev Memory := List Host.Cell

namespace Memory

/-- What an unlisted address reads as: "Unmapped addresses read as zero" (10_state.md R51). -/
def unlisted : Byte := 0

/-- The byte at an address. -/
def readByte : Memory → Nat → Byte
  | [], _ => unlisted
  | (a, b) :: rest, x => if a = x then b else readByte rest x

/-- Drops every entry of an address. -/
def erase : Memory → Nat → Memory
  | [], _ => []
  | (a, b) :: rest, x => if a = x then erase rest x else (a, b) :: erase rest x

/-- Puts an entry before the first entry with a greater address. -/
def insert : Memory → Nat → Byte → Memory
  | [], x, v => [(x, v)]
  | (a, b) :: rest, x, v => if x < a then (x, v) :: (a, b) :: rest else (a, b) :: insert rest x v

/-- Writes a byte and keeps the canonical form: writing what an unlisted address reads as removes the
entry. -/
def writeByte (m : Memory) (x : Nat) (v : Byte) : Memory :=
  if v = unlisted then erase m x else insert (erase m x) x v

/-- The entries are byte addresses, strictly rising, from `lo` on, and none holds what an unlisted address
reads as. -/
def wfFrom : Memory → Nat → Bool
  | [], _ => true
  | (a, b) :: rest, lo =>
    decide (lo ≤ a) && decide (a < 2 ^ 32) && (b != unlisted) && wfFrom rest (a + 1)

/-- The canonical form. -/
def wf (m : Memory) : Bool := wfFrom m 0

/-- `Mword(a)`: the byte at `a` is the most significant one (20_memory.md R103). The engine uses it at word
addresses only (20_memory.md R100; log 18). -/
def mword (m : Memory) (a : Word) : Word :=
  wordOfBytes (readByte m a.toNat) (readByte m (a + 1).toNat) (readByte m (a + 2).toNat)
    (readByte m (a + 3).toNat)

/-- `Mword(a) := v` (20_memory.md R102, R103). -/
def setMword (m : Memory) (a : Word) (v : Word) : Memory :=
  writeByte
    (writeByte
      (writeByte
        (writeByte m a.toNat (v.extractLsb' 24 8))
        (a + 1).toNat (v.extractLsb' 16 8))
      (a + 2).toNat (v.extractLsb' 8 8))
    (a + 3).toNat (v.extractLsb' 0 8)

/-- The words of a list stored one after the other from `base` (20_memory.md R121: the window). -/
def setMwords (m : Memory) (base : Word) : List Word → Memory
  | [] => m
  | w :: ws => setMwords (setMword m base w) (base + 4) ws

end Memory

/-- The address of slot `k` of the Register File View, `P_REG_BASE + 4*k` (10_state.md R52). -/
def slotAddr (c : Config) (k : Nat) : Word := c.regBase + BitVec.ofNat 32 (4 * k)

end Sys2Proof.Machine
end

