-- ==== Sys2Proof/Machine/State.lean ====
section
/-! DEFINITION. The state of the engine (10_state.md R50), the reasons a step can stop, and the state at the
start of a run (70_reset_and_hazards.md R550). -/

namespace Sys2Proof.Machine

/-- The five error kinds, each with the information its rule gives for diagnosis (60_exceptions.md R500,
R506; log 15). An error is no Fault of the model: it sets `status` (log 14). -/
inductive EngineError where
  /-- a word access or a fetch at an address that is not a multiple of 4 (R501) -/
  | unalignedAccess (a : Word)
  /-- the word does not decode (R502) -/
  | invalidOpcode (w : Word)
  /-- ADD, ADDI or SUB overflowed, at this pc (R503) -/
  | arithmeticOverflow (pc : Word)
  /-- the charge exceeds the remaining gas (R504) -/
  | outOfGas
  /-- the key is in neither the cache nor the provider (R505) -/
  | oracleMiss (key : Key)
  deriving DecidableEq, Repr

/-- The five kinds, which port OUTCOME carries (00_scope.md R11; 60_exceptions.md R500). -/
inductive ErrorKind where
  | unalignedAccess
  | invalidOpcode
  | arithmeticOverflow
  | outOfGas
  | oracleMiss
  deriving DecidableEq, Repr

/-- The numeric codes of 60_exceptions.md R500. -/
def ErrorKind.code : ErrorKind → Nat
  | .unalignedAccess => 1
  | .invalidOpcode => 2
  | .arithmeticOverflow => 3
  | .outOfGas => 4
  | .oracleMiss => 5

/-- The kind of an error, without its diagnostic argument (60_exceptions.md R506). -/
def EngineError.kind : EngineError → ErrorKind
  | .unalignedAccess _ => .unalignedAccess
  | .invalidOpcode _ => .invalidOpcode
  | .arithmeticOverflow _ => .arithmeticOverflow
  | .outOfGas => .outOfGas
  | .oracleMiss _ => .oracleMiss

/-- The run status (10_state.md R68). -/
inductive Status where
  | running
  | halted
  | budget
  | error (e : EngineError)
  deriving DecidableEq, Repr

/-- Why there is no next state because the run is over. -/
inductive Fault where
  /-- Raised by `step` alone, in a state whose status is not RUNNING: the run has returned its outcome and
  "a new run starts from reset" (60_exceptions.md R522; 40_step_cycle.md R200). Safe: the model stops. -/
  | runEnded
  deriving DecidableEq, Repr

/-- The refusals: the model's verdict that the spec gives a case no meaning under the current parameters
(00_scope.md R34; 60_exceptions.md R507). Each is safe: the model stops, and "it errs toward
unprovable". -/
inductive Refusal where
  /-- Raised by an arm of `exec` whose instruction has no meaning yet; no arm is left. Safe. -/
  | notModelled (mnemonic : String)
  /-- GROUP_UNKNOWN(g), raised at decode, and by the meaning of an instruction of an unmodelled group, when
  the group's parameter is `unknown` (30_encoding.md R166). Safe. -/
  | groupUnknown (g : Group)
  /-- FIELDS, raised at decode when a must-be-zero check fails and `P_STRICT_FIELDS` is `refuse`
  (30_encoding.md R167). Safe. -/
  | fields
  /-- CT_IN_DS, raised before the gas charge when a control transfer stands in a delay slot and `P_CT_IN_DS`
  is `refuse` (40_step_cycle.md R204). Safe. -/
  | ctInDs
  /-- REGFILE_DATA, raised by a load or store of a register slot when `P_REGFILE_DATA` is `refuse`
  (20_memory.md R112, R113). Safe. -/
  | regfileData
  /-- HALF_ODD, raised by LH, LHU or SH at an odd address when `P_HALF_ODD` is `refuse` (20_memory.md R109).
  Safe. -/
  | halfOdd
  /-- ORACLE_ACCESS, raised by a store to TRIG or WINR and by a load of TRIG that is not LW (20_memory.md
  R118). Safe. -/
  | oracleAccess
  /-- ORACLE_FIT, raised by the trigger load when `P_ORACLE_LAYOUT` cannot place the preimage (20_memory.md
  R121, R123). Safe. -/
  | oracleFit
  /-- SC_NO_LL, raised by SC when `llbit` is false (44_load_store.md R421). Safe. -/
  | scNoLl
  /-- Raised by `step` in a state whose refusal mark is set: "A state with the mark set has no next state"
  (10_state.md R74). Safe. -/
  | alreadyRefused
  deriving DecidableEq, Repr

/-- The run's inputs that stay fixed while it runs (port RUN, 00_scope.md R10). -/
structure RunInputs where
  /-- `MAX_STEPS`, the step budget. -/
  maxSteps : Nat
  /-- `ORACLE`: the keys the provider has, with their preimages (20_memory.md R120; log 19). -/
  oracle : List (Key × List Byte)
  /-- Whether an observer `OBS` is supplied (00_scope.md R10, R14; log 24). -/
  observer : Bool
  deriving DecidableEq, Repr

/-- The state `S` of 10_state.md R50. The 32 general registers, PC, HI and LO are words of `mem`, the
Register File View (10_state.md R52). -/
structure State where
  /-- `M` (10_state.md R51) -/
  mem : Memory
  /-- the next program counter (10_state.md R62) -/
  npc : Word
  /-- the gas counter (10_state.md R68) -/
  gas : Nat
  /-- the number of committed steps (10_state.md R68) -/
  steps : Nat
  /-- the oracle cache (10_state.md R71) -/
  cache : List (Key × List Byte)
  /-- the run status (10_state.md R68) -/
  status : Status
  /-- the delay-slot ghost bit (10_state.md R72) -/
  ds : Bool
  /-- the load-linked bit (10_state.md R73; log 26) -/
  llbit : Bool
  /-- the refusal mark, with its reason (10_state.md R74) -/
  refused : Option Refusal
  /-- the instance parameters (00_scope.md R21; log 1) -/
  cfg : Config
  /-- the run's inputs (00_scope.md R10) -/
  inputs : RunInputs
  deriving DecidableEq, Repr

namespace State

/-- The reset sequence `reset(M0, START_PC, GAS0)` of 70_reset_and_hazards.md R550, for any instance. -/
def start (c : Config) (inp : RunInputs) (m0 : Memory) (startPC : Word) (gas0 : Nat) : State where
  mem := Memory.setMword m0 (slotAddr c Config.slotPC) startPC
  npc := startPC + 4
  gas := gas0
  steps := 0
  cache := []
  status := .running
  ds := false
  llbit := false
  refused := none
  cfg := c
  inputs := inp

/-- The machine right after reset, with nothing loaded: `start` on the model's instance (logs 2 to 8). -/
def reset : State :=
  start Config.instanceAtReset ⟨1000000000, [], false⟩ [] 0x00001000 1000000000

end State

end Sys2Proof.Machine
end

