-- ==== Sys2Proof/Machine/Operands.lean ====
section
/-! DEFINITION. The operand forms of 30_encoding.md R155, the sub-word helpers of 20_memory.md R106 and R107,
the unaligned merges of 44_load_store.md R410 to R413, and the results that are functions of operands
alone (41_alu.md, 42_muldiv.md). -/

namespace Sys2Proof.Machine

/-- `simm`: `sext_16(imm)` (30_encoding.md R155). -/
def simm (imm : Imm16) : Word := imm.signExtend 32

/-- `zimm`: `zext_16(imm)` (30_encoding.md R155). -/
def zimm (imm : Imm16) : Word := imm.zeroExtend 32

/-- `uimm`: `imm << 16` (30_encoding.md R155). -/
def uimm (imm : Imm16) : Word := imm.zeroExtend 32 <<< 16

/-- `shamt`: `zext_5(sa)` (30_encoding.md R155). -/
def shamt (sa : BitVec 5) : Nat := sa.toNat

/-- `vshamt`: `x[rs][4:0]` (30_encoding.md R155). -/
def vshamt (r : Word) : Nat := (r.extractLsb' 0 5).toNat

/-- `boff`: `sext_16(imm) << 2` (30_encoding.md R155). -/
def boff (imm : Imm16) : Word := simm imm <<< 2

/-- The target of a conditional branch, `pc + 4 + boff` (30_encoding.md R155; 43_branch_jump.md R350). -/
def branchTarget (pc : Word) (imm : Imm16) : Word := pc + 4 + boff imm

/-- `jidx`: `(pc + 4)[31:28] || index || 00` (30_encoding.md R155; 43_branch_jump.md R351). -/
def jumpTarget (pc : Word) (index : Index26) : Word :=
  (pc + 4).extractLsb' 28 4 ++ index ++ (0 : BitVec 2)

/-- The link value `pc + 8` (43_branch_jump.md R352). -/
def linkValue (pc : Word) : Word := pc + 8

/-- The effective address `x[rs] + sext_16(imm)`, mod 2^32 (44_load_store.md R400; 20_memory.md R130). -/
def effectiveAddress (base : Word) (imm : Imm16) : Word := base + simm imm

/-- The word address of a byte address, `addr & ~3` (20_memory.md R109, R112). -/
def wordAddress (a : Word) : Word := a &&& ~~~3

/-- `addr mod 4`, the place of a byte in its word counted from the most significant end (20_memory.md R103). -/
def byteOffset (a : Word) : Nat := a.toNat % 4

/-- Byte `j` of a word, byte 0 the most significant one (20_memory.md R103). -/
def byteAt (w : Word) (j : Nat) : Byte := w.extractLsb' (24 - 8 * j) 8

/-- `extract(w, addr, 1)` (20_memory.md R106). -/
def extractByte (w a : Word) : Word := (w >>> (24 - 8 * byteOffset a)) &&& 0xFF

/-- `extract(w, addr, 2)`, at an even address (20_memory.md R106). -/
def extractHalf (w a : Word) : Word := (w >>> (16 - 8 * byteOffset a)) &&& 0xFFFF

/-- `insert(w, addr, 1, v)` (20_memory.md R107). -/
def insertByte (w a v : Word) : Word :=
  let sh := 24 - 8 * byteOffset a
  (w &&& ~~~((0xFF : Word) <<< sh)) ||| ((v &&& 0xFF) <<< sh)

/-- `insert(w, addr, 2, v)`, at an even address (20_memory.md R107). -/
def insertHalf (w a v : Word) : Word :=
  let sh := 16 - 8 * byteOffset a
  (w &&& ~~~((0xFFFF : Word) <<< sh)) ||| ((v &&& 0xFFFF) <<< sh)

/-- `sext_8` (00_scope.md R31). -/
def sextByte (v : Word) : Word := (v.extractLsb' 0 8).signExtend 32

/-- `sext_16` (00_scope.md R31). -/
def sextHalf (v : Word) : Word := (v.extractLsb' 0 16).signExtend 32

/-- `zext_8` (00_scope.md R31). -/
def zextByte (v : Word) : Word := (v.extractLsb' 0 8).zeroExtend 32

/-- `zext_16` (00_scope.md R31). -/
def zextHalf (v : Word) : Word := (v.extractLsb' 0 16).zeroExtend 32

/-- The register after LWL: bytes `k..3` of the memory word in the top of the old value
(44_load_store.md R410). -/
def mergeLwl (w old ea : Word) : Word :=
  let k := byteOffset ea
  (w <<< (8 * k)) ||| (old &&& ((1 : Word) <<< (8 * k) - 1))

/-- The register after LWR: bytes `0..k` of the memory word in the bottom of the old value
(44_load_store.md R411). -/
def mergeLwr (w old ea : Word) : Word :=
  let sh := 8 * (3 - byteOffset ea)
  (old &&& ~~~((0xFFFFFFFF : Word) >>> sh)) ||| (w >>> sh)

/-- The memory word after SWL: the top `4-k` bytes of the register in bytes `k..3`
(44_load_store.md R412). -/
def mergeSwl (w r ea : Word) : Word :=
  let k := byteOffset ea
  (w &&& ~~~((0xFFFFFFFF : Word) >>> (8 * k))) ||| (r >>> (8 * k))

/-- The memory word after SWR: the low `k+1` bytes of the register in bytes `0..k`
(44_load_store.md R413). -/
def mergeSwr (w r ea : Word) : Word :=
  let sh := 8 * (3 - byteOffset ea)
  (r <<< sh) ||| (w &&& ((1 : Word) <<< sh - 1))

/-- How many of the bits `n-1 .. 0` of a word equal `b` before the first that does not, counted from bit
`n-1` down: the loop of 41_alu.md R277 and R278. -/
def leadingRun (b : Bool) (w : Word) : Nat → Nat
  | 0 => 0
  | n + 1 => if w.getLsbD n = b then 1 + leadingRun b w n else 0

/-- The count CLZ writes, 0..32 (41_alu.md R277). -/
def countLeadingZeros (w : Word) : Nat := leadingRun false w 32

/-- The count CLO writes, 0..32 (41_alu.md R278). -/
def countLeadingOnes (w : Word) : Nat := leadingRun true w 32

/-- `HI <- u[63:32]` (42_muldiv.md R300). -/
def hiHalf (u : DWord) : Word := u.extractLsb' 32 32

/-- `LO <- u[31:0]` (42_muldiv.md R300). -/
def loHalf (u : DWord) : Word := u.extractLsb' 0 32

/-- The signed product, exact, mod 2^64 (42_muldiv.md R301). -/
def signedProduct (a b : Word) : DWord := BitVec.ofInt 64 (a.toInt * b.toInt)

/-- The unsigned product, exact (42_muldiv.md R302). -/
def unsignedProduct (a b : Word) : DWord := BitVec.ofNat 64 (a.toNat * b.toNat)

/-- HI and LO after DIV (42_muldiv.md R303): the quotient rounds toward zero and goes to LO, the remainder
goes to HI; division by zero and `-2^31 / -1` are free values (logs 9, 10). -/
def signedDivide (a b hi lo : Word) : Word × Word :=
  if b.toInt = 0 then Config.div0 true a hi lo
  else if a.toInt = -2 ^ 31 ∧ b.toInt = -1 then Config.divOvf hi lo
  else
    let q := a.toInt.tdiv b.toInt
    let r := a.toInt - q * b.toInt
    (BitVec.ofInt 32 r, BitVec.ofInt 32 q)

/-- HI and LO after DIVU (42_muldiv.md R304); division by zero is a free value (log 9). -/
def unsignedDivide (a b hi lo : Word) : Word × Word :=
  if b = 0 then Config.div0 false a hi lo
  else (BitVec.ofNat 32 (a.toNat % b.toNat), BitVec.ofNat 32 (a.toNat / b.toNat))

end Sys2Proof.Machine
end

