-- ==== Sys2Proof/Machine/Flags.lean ====
section
/-! DEFINITION. The engine has no status flags, condition codes or predicate registers (10_state.md R66).
"Branch and set conditions are computed from general registers when the instruction executes": these are
those conditions. -/

namespace Sys2Proof.Machine

/-- The exact signed result lies in `[-2^31, 2^31)`; outside it ADD, ADDI and SUB raise
ArithmeticOverflow (41_alu.md R251, R253, R255). -/
def fitsSigned (r : Int) : Bool := decide (-2 ^ 31 ≤ r ∧ r < 2 ^ 31)

/-- `signed(a) < signed(b)` (41_alu.md R257, R259). -/
def signedLess (a b : Word) : Bool := decide (a.toInt < b.toInt)

/-- `unsigned(a) < unsigned(b)` (41_alu.md R258, R260). -/
def unsignedLess (a b : Word) : Bool := decide (a.toNat < b.toNat)

/-- The 0 or 1 that a set instruction writes (41_alu.md R257 to R260). -/
def setWord (b : Bool) : Word := if b then 1 else 0

/-- `x[rs] == x[rt]` (43_branch_jump.md R354). -/
def condEq (a b : Word) : Bool := decide (a = b)

/-- `x[rs] != x[rt]` (43_branch_jump.md R355). -/
def condNe (a b : Word) : Bool := decide (a ≠ b)

/-- `signed(x[rs]) <= 0` (43_branch_jump.md R356). -/
def condLez (a : Word) : Bool := decide (a.toInt ≤ 0)

/-- `signed(x[rs]) > 0` (43_branch_jump.md R357). -/
def condGtz (a : Word) : Bool := decide (0 < a.toInt)

/-- `signed(x[rs]) < 0` (43_branch_jump.md R358). -/
def condLtz (a : Word) : Bool := decide (a.toInt < 0)

/-- `signed(x[rs]) >= 0` (43_branch_jump.md R359). -/
def condGez (a : Word) : Bool := decide (0 ≤ a.toInt)

end Sys2Proof.Machine
end

