-- ==== Sys2Proof/Machine/Ops.lean ====
section
/-! DEFINITION. The named operations over memory and registers: the Register File View (10_state.md R55 to R58),
the data accesses with their routing (20_memory.md R109, R111 to R114), the oracle trigger (20_memory.md
R119 to R124), the commit of a step's control outcome (40_step_cycle.md R206), and the one way an error
ends a step (60_exceptions.md R520). -/

namespace Sys2Proof.Machine

/-- The answer of one step or of one meaning. -/
abbrev StepOutcome := Host.Outcome State Fault Refusal

/-- What an access inside an instruction's rule yields: a value, an error, or a refusal
(40_step_cycle.md R206; 00_scope.md R34). -/
inductive Res (α : Type) where
  | ok (a : α)
  | error (e : EngineError)
  | refuse (r : Refusal)
  deriving DecidableEq, Repr

/-- One access after another; the first error or refusal decides (60_exceptions.md R510). -/
def Res.andThen {α β : Type} : Res α → (α → Res β) → Res β
  | .ok a, k => k a
  | .error e, _ => .error e
  | .refuse r, _ => .refuse r

namespace State

/-- `Mword(a)` of the state's memory (10_state.md R51). -/
def mword (s : State) (a : Word) : Word := Memory.mword s.mem a

/-- `Mword(a) := v`. -/
def setMword (s : State) (a v : Word) : State := { s with mem := Memory.setMword s.mem a v }

/-- The word of slot `k` of the Register File View (10_state.md R52). -/
def slot (s : State) (k : Nat) : Word := s.mword (slotAddr s.cfg k)

/-- Writes the word of slot `k`. -/
def setSlot (s : State) (k : Nat) (v : Word) : State := s.setMword (slotAddr s.cfg k) v

/-- `getReg(n)`, `x[n]`: register 0 reads 0 whatever its slot holds (10_state.md R54, R55). -/
def getReg (s : State) (n : RegNum) : Word := if n = 0 then 0 else s.slot n.toNat

/-- `setReg(n, v)`, `x[n] <- v`: a write of register 0 has no effect (10_state.md R54, R56). -/
def setReg (s : State) (n : RegNum) (v : Word) : State := if n = 0 then s else s.setSlot n.toNat v

/-- `getPC()` (10_state.md R57). -/
def getPC (s : State) : Word := s.slot Config.slotPC

/-- `setPC(v)` (10_state.md R57). -/
def setPC (s : State) (v : Word) : State := s.setSlot Config.slotPC v

/-- `HI` (10_state.md R58). -/
def getHI (s : State) : Word := s.slot Config.slotHI

/-- `HI <- v` (10_state.md R58). -/
def setHI (s : State) (v : Word) : State := s.setSlot Config.slotHI v

/-- `LO` (10_state.md R58). -/
def getLO (s : State) : Word := s.slot Config.slotLO

/-- `LO <- v` (10_state.md R58). -/
def setLO (s : State) (v : Word) : State := s.setSlot Config.slotLO v

/-- `llbit <- b` (44_load_store.md R420). -/
def setLlbit (s : State) (b : Bool) : State := { s with llbit := b }

/-- `(HI, LO) <- p` (42_muldiv.md R300). -/
def setHiLo (s : State) (p : Word × Word) : State := (s.setHI p.1).setLO p.2

/-- `HI <- u[63:32]`, `LO <- u[31:0]` (42_muldiv.md R300). -/
def setAcc (s : State) (u : DWord) : State := s.setHiLo (hiHalf u, loHalf u)

/-- `acc = (HI || LO)` (42_muldiv.md R310). -/
def getAcc (s : State) : DWord := s.getHI ++ s.getLO

end State

/-- An error ends the step: `status` becomes ERROR(k) and nothing else of the instruction commits; PC,
`npc` and every register stay, and `gas` is what the charge left (60_exceptions.md R520, R521;
40_step_cycle.md R207). There is no vector and no saved pc. A next state, from which no further step goes
(log 14). -/
def takeError (e : EngineError) (s : State) : StepOutcome := .next { s with status := .error e }

/-- The verdict on an instruction of an unmodelled group `g`, whose word is `w`: InvalidOpcode(w) or a
refusal, by the group's parameter, which is never `implemented` (45_system.md R450, R451;
30_encoding.md R166). -/
def unmodelled (g : Group) (w : Word) (s : State) : StepOutcome :=
  match s.cfg.presence g with
  | .unknown => .refused (.groupUnknown g)
  | .invalid => takeError (.invalidOpcode w) s
  | .implemented => takeError (.invalidOpcode w) s

/-- The control outcome of an instruction (00_scope.md R34; 40_step_cycle.md R206). -/
inductive Ctl where
  | seq
  | branchTo (t : Word)
  | annul
  deriving DecidableEq, Repr

/-- The new `(pc, npc)` of a control outcome, from the start-of-step `npc` (40_step_cycle.md R206). -/
def Ctl.nextPair (npc : Word) : Ctl → Word × Word
  | .seq => (npc, npc + 4)
  | .branchTo t => (npc, t)
  | .annul => (npc + 4, npc + 8)

/-- The end of a committed step (40_step_cycle.md R206): after the instruction's writes, `setPC` last, then
`npc` and `ds`. `ct` says whether the instruction is a control transfer. -/
def commit (ct : Bool) (c : Ctl) (s : State) : State :=
  let p := c.nextPair s.npc
  { s.setPC p.1 with npc := p.2, ds := ct && !(c == .annul) }

/-- A sequential instruction commits its writes (41_alu.md R250). -/
def commitSeq (s : State) : StepOutcome := .next (commit false .seq s)

/-- Ends a sequential instruction whose accesses may have failed. -/
def finish {α : Type} (s : State) (r : Res α) (k : α → State) : StepOutcome :=
  match r with
  | .ok a => commitSeq (k a)
  | .error e => takeError e s
  | .refuse q => .refused q

/-- The outcome of a signed add or subtract with exact result `r`, for register `n`
(41_alu.md R251, R253, R255). -/
def signedResult (n : RegNum) (r : Int) (s : State) : StepOutcome :=
  if fitsSigned r then commitSeq (s.setReg n (BitVec.ofInt 32 r))
  else takeError (.arithmeticOverflow s.getPC) s

/-- An ordinary branch on `cond`; `s'` is the state with the link written, or `s` itself
(43_branch_jump.md R353). -/
def branch (cond : Bool) (imm : Imm16) (s s' : State) : StepOutcome :=
  .next (commit true (if cond then .branchTo (branchTarget s.getPC imm) else .seq) s')

/-- A branch-likely on `cond`: it annuls its delay slot when not taken (43_branch_jump.md R366). -/
def branchLikely (cond : Bool) (imm : Imm16) (s s' : State) : StepOutcome :=
  .next (commit true (if cond then .branchTo (branchTarget s.getPC imm) else .annul) s')

/-- A jump to `t`; `s'` is the state with the link written, or the start state (43_branch_jump.md R353). -/
def jump (t : Word) (s' : State) : StepOutcome := .next (commit true (.branchTo t) s')

/-- The link `x[n] <- pc + 8` (43_branch_jump.md R352). -/
def link (n : RegNum) (s : State) : State := s.setReg n (linkValue s.getPC)

/-- The classes of a word address (20_memory.md R111). -/
inductive AddrClass where
  | reg | trig | key | win | plain
  deriving DecidableEq, Repr

/-- Membership of a word address in the range of `n` words from `base` (20_memory.md R110; log 28). -/
def inWords (base : Word) (n : Nat) (wa : Word) : Bool :=
  let off := (wa - base).toNat
  off % 4 == 0 && decide (off < 4 * n)

/-- `class(wa)` (20_memory.md R111): the Register File View, the trigger, the key words, the window, or
plain memory, the first that holds. -/
def classOf (c : Config) (wa : Word) : AddrClass :=
  if inWords c.regBase Config.slots wa then .reg
  else if wa = c.oracleTrigger then .trig
  else if inWords c.oracleKeyBase c.oracleKeyWords wa then .key
  else if inWords c.oracleWinBase c.oracleWinWords wa then .win
  else .plain

/-- The slot of a word address in the Register File View, `(wa - P_REG_BASE)/4` (20_memory.md R114). -/
def slotIndex (c : Config) (wa : Word) : Nat := (wa - c.regBase).toNat / 4

/-- `slotRead(wa)` (20_memory.md R114): register `k`, PC, HI or LO through the view's rules. -/
def slotRead (wa : Word) (s : State) : Word :=
  let k := slotIndex s.cfg wa
  if k < 32 then s.getReg (BitVec.ofNat 5 k) else s.slot k

/-- `slotWrite(wa, v)` (20_memory.md R114); a write of slot 0 has no effect, and a write of the PC slot is
overridden by the step's own commit. -/
def slotWrite (wa v : Word) (s : State) : State :=
  let k := slotIndex s.cfg wa
  if k < 32 then s.setReg (BitVec.ofNat 5 k) v else s.setSlot k v

/-- The default of `P_ORACLE_KEYOF(M)`: the big-endian bytes of the `n` words from `base`, in address
order (20_memory.md R119). -/
def keyBytes (m : Memory) (base : Word) : Nat → Key
  | 0 => []
  | n + 1 => wordBytes (Memory.mword m base) ++ keyBytes m (base + 4) n

/-- The key of a trigger, `P_ORACLE_KEYOF(M)` (20_memory.md R119; log 13). -/
def oracleKey (s : State) : Key :=
  match s.cfg.oracleKeyOf with
  | .keyWords => keyBytes s.mem s.cfg.oracleKeyBase s.cfg.oracleKeyWords
  | .other n => Config.keyBy n s.mem

/-- The cache, then the provider (20_memory.md R121, R124). -/
def oracleAnswer (s : State) (key : Key) : Option (List Byte) :=
  match assoc key s.cache with
  | some bytes => some bytes
  | none => assoc key s.inputs.oracle

/-- The request a trigger sends on port ORACLE: none when the cache holds the key (00_scope.md R13;
20_memory.md R121). -/
def oracleRequest (s : State) : Option Key :=
  match assoc (oracleKey s) s.cache with
  | some _ => none
  | none => some (oracleKey s)

/-- `P_ORACLE_LAYOUT(bytes)`: none, or exactly `P_ORACLE_WIN_WORDS` words (20_memory.md R123; log 19). -/
def oracleLayout (c : Config) (bytes : List Byte) : Option (List Word) :=
  match assoc bytes c.oracleLayout with
  | some ws => if ws.length = c.oracleWinWords then some ws else none
  | none => none

/-- `cache[key] := bytes` (20_memory.md R121): on a cache hit the entry is already there (log 20). -/
def cachePut (key : Key) (bytes : List Byte) (cache : List (Key × List Byte)) :
    List (Key × List Byte) :=
  match assoc key cache with
  | some _ => cache
  | none => (key, bytes) :: cache

/-- The word the trigger load returns, for window words `ws` (20_memory.md R121). -/
def triggerWord (s : State) (ws : List Word) : Word :=
  let c := s.cfg
  if inWords c.oracleWinBase c.oracleWinWords c.oracleTrigger
  then ws.getD ((c.oracleTrigger - c.oracleWinBase).toNat / 4) 0
  else s.mword c.oracleTrigger

/-- `oracleTrigger()` (20_memory.md R121): the returned word, and the state with the window and the cache
written. -/
def oracleTrigger (s : State) : Res (Word × State) :=
  let key := oracleKey s
  match oracleAnswer s key with
  | none => .error (.oracleMiss key)
  | some bytes =>
    match oracleLayout s.cfg bytes with
    | none => .refuse .oracleFit
    | some ws =>
      .ok (triggerWord s ws,
        { s with
          mem := Memory.setMwords s.mem s.cfg.oracleWinBase ws
          cache := cachePut key bytes s.cache })

/-- The routing of a load (20_memory.md R112): the word at word address `wa`. `lw` says whether the
executing instruction is LW, which alone may trigger the oracle (R118). -/
def routeRead (lw : Bool) (wa : Word) (s : State) : Res (Word × State) :=
  match classOf s.cfg wa with
  | .reg =>
    match s.cfg.regfileData with
    | .refuse => .refuse .regfileData
    | .aliased => .ok (slotRead wa s, s)
  | .trig => if lw then oracleTrigger s else .refuse .oracleAccess
  | .key => .ok (s.mword wa, s)
  | .win => .ok (s.mword wa, s)
  | .plain => .ok (s.mword wa, s)

/-- The routing of a store (20_memory.md R113): the word at word address `wa` is replaced by `f` of it. -/
def routeWrite (wa : Word) (f : Word → Word) (s : State) : Res State :=
  match classOf s.cfg wa with
  | .reg =>
    match s.cfg.regfileData with
    | .refuse => .refuse .regfileData
    | .aliased => .ok (slotWrite wa (f (slotRead wa s)) s)
  | .trig => .refuse .oracleAccess
  | .win => .refuse .oracleAccess
  | .key => .ok (s.setMword wa (f (s.mword wa)))
  | .plain => .ok (s.setMword wa (f (s.mword wa)))

/-- `MemRead(addr, 4)` (20_memory.md R112). -/
def memReadWord (lw : Bool) (a : Word) (s : State) : Res (Word × State) :=
  if byteOffset a = 0 then routeRead lw (wordAddress a) s else .error (.unalignedAccess a)

/-- `MemRead(addr, 1)` (20_memory.md R112). -/
def memReadByte (a : Word) (s : State) : Res Word :=
  (routeRead false (wordAddress a) s).andThen fun p => .ok (extractByte p.1 a)

/-- `MemRead(addr, 2)` at an even address (20_memory.md R112). -/
def memReadEvenHalf (a : Word) (s : State) : Res Word :=
  (routeRead false (wordAddress a) s).andThen fun p => .ok (extractHalf p.1 a)

/-- `MemRead(addr, 2)`, an odd address by `P_HALF_ODD` (20_memory.md R109, R112). -/
def memReadHalf (a : Word) (s : State) : Res Word :=
  if a.getLsbD 0 then
    match s.cfg.halfOdd with
    | .refuse => .refuse .halfOdd
    | .unaligned => .error (.unalignedAccess a)
    | .clearBit0 => memReadEvenHalf (a &&& ~~~1) s
    | .bytes =>
      (memReadByte a s).andThen fun hi =>
        (memReadByte (a + 1) s).andThen fun lo => .ok ((hi <<< 8) ||| lo)
  else memReadEvenHalf a s

/-- `MemWrite(addr, 4, v)` (20_memory.md R113). -/
def memWriteWord (a v : Word) (s : State) : Res State :=
  if byteOffset a = 0 then routeWrite (wordAddress a) (fun _ => v) s else .error (.unalignedAccess a)

/-- `MemWrite(addr, 1, v)` (20_memory.md R113). -/
def memWriteByte (a v : Word) (s : State) : Res State :=
  routeWrite (wordAddress a) (fun w => insertByte w a v) s

/-- `MemWrite(addr, 2, v)` at an even address (20_memory.md R113). -/
def memWriteEvenHalf (a v : Word) (s : State) : Res State :=
  routeWrite (wordAddress a) (fun w => insertHalf w a v) s

/-- `MemWrite(addr, 2, v)`, an odd address by `P_HALF_ODD` (20_memory.md R109, R113); the second byte write
reads the word as the first left it (40_step_cycle.md R208). -/
def memWriteHalf (a v : Word) (s : State) : Res State :=
  if a.getLsbD 0 then
    match s.cfg.halfOdd with
    | .refuse => .refuse .halfOdd
    | .unaligned => .error (.unalignedAccess a)
    | .clearBit0 => memWriteEvenHalf (a &&& ~~~1) v s
    | .bytes => (memWriteByte a (v >>> 8) s).andThen fun s1 => memWriteByte (a + 1) v s1
  else memWriteEvenHalf a v s

/-- `P_HALTED(M)` (40_step_cycle.md R212; log 12): the default is
`Mword(P_HALT_SENTINEL) != P_HALT_PENDING`. -/
def haltedNow (s : State) : Bool :=
  match s.cfg.halting with
  | .sentinel => s.mword s.cfg.haltSentinel != s.cfg.haltPending
  | .other n => Config.haltedBy n s.mem

/-- `success(M) = ((Mword(P_RESULT_A) & Mword(P_RESULT_B)) == 1)`, which the caller computes
(40_step_cycle.md R212). -/
def success (s : State) : Bool := (s.mword s.cfg.resultA &&& s.mword s.cfg.resultB) == 1

/-- Port OUTCOME (00_scope.md R11; 40_step_cycle.md R213): `(remainingGas, error)`, once the run is over. Only the
kind of an error is part of it (60_exceptions.md R506). -/
def outcome (s : State) : Option (Nat × Option ErrorKind) :=
  match s.status with
  | .running => none
  | .halted => some (s.gas, none)
  | .budget => some (s.gas, none)
  | .error e => some (s.gas, some e.kind)

end Sys2Proof.Machine
end

