-- ==== Sys2Proof/Machine/Alu.lean ====
section
/-! DEFINITION. The integer ALU, shift, set, conditional-move and count instructions (41_alu.md). Every operand is
read from the start state and the control outcome is `seq` (41_alu.md R250). -/

namespace Sys2Proof.Machine

/-- ADD (41_alu.md R251). -/
def execAdd (rs rt rd : RegNum) (s : State) : StepOutcome :=
  signedResult rd ((s.getReg rs).toInt + (s.getReg rt).toInt) s

/-- ADDU (41_alu.md R252). -/
def execAddu (rs rt rd : RegNum) (s : State) : StepOutcome :=
  commitSeq (s.setReg rd (s.getReg rs + s.getReg rt))

/-- SUB (41_alu.md R253). -/
def execSub (rs rt rd : RegNum) (s : State) : StepOutcome :=
  signedResult rd ((s.getReg rs).toInt - (s.getReg rt).toInt) s

/-- SUBU (41_alu.md R254). -/
def execSubu (rs rt rd : RegNum) (s : State) : StepOutcome :=
  commitSeq (s.setReg rd (s.getReg rs - s.getReg rt))

/-- ADDI (41_alu.md R255). -/
def execAddi (rs rt : RegNum) (imm : Imm16) (s : State) : StepOutcome :=
  signedResult rt ((s.getReg rs).toInt + (simm imm).toInt) s

/-- ADDIU (41_alu.md R256). -/
def execAddiu (rs rt : RegNum) (imm : Imm16) (s : State) : StepOutcome :=
  commitSeq (s.setReg rt (s.getReg rs + simm imm))

/-- SLT (41_alu.md R257). -/
def execSlt (rs rt rd : RegNum) (s : State) : StepOutcome :=
  commitSeq (s.setReg rd (setWord (signedLess (s.getReg rs) (s.getReg rt))))

/-- SLTU (41_alu.md R258). -/
def execSltu (rs rt rd : RegNum) (s : State) : StepOutcome :=
  commitSeq (s.setReg rd (setWord (unsignedLess (s.getReg rs) (s.getReg rt))))

/-- SLTI (41_alu.md R259). -/
def execSlti (rs rt : RegNum) (imm : Imm16) (s : State) : StepOutcome :=
  commitSeq (s.setReg rt (setWord (signedLess (s.getReg rs) (simm imm))))

/-- SLTIU: the immediate is sign-extended, then compared unsigned (41_alu.md R260). -/
def execSltiu (rs rt : RegNum) (imm : Imm16) (s : State) : StepOutcome :=
  commitSeq (s.setReg rt (setWord (unsignedLess (s.getReg rs) (simm imm))))

/-- AND (41_alu.md R261). -/
def execAnd (rs rt rd : RegNum) (s : State) : StepOutcome :=
  commitSeq (s.setReg rd (s.getReg rs &&& s.getReg rt))

/-- OR (41_alu.md R262). -/
def execOr (rs rt rd : RegNum) (s : State) : StepOutcome :=
  commitSeq (s.setReg rd (s.getReg rs ||| s.getReg rt))

/-- XOR (41_alu.md R263). -/
def execXor (rs rt rd : RegNum) (s : State) : StepOutcome :=
  commitSeq (s.setReg rd (s.getReg rs ^^^ s.getReg rt))

/-- NOR (41_alu.md R264). -/
def execNor (rs rt rd : RegNum) (s : State) : StepOutcome :=
  commitSeq (s.setReg rd (~~~(s.getReg rs ||| s.getReg rt)))

/-- ANDI: the immediate is zero-extended (41_alu.md R265). -/
def execAndi (rs rt : RegNum) (imm : Imm16) (s : State) : StepOutcome :=
  commitSeq (s.setReg rt (s.getReg rs &&& zimm imm))

/-- ORI: the immediate is zero-extended (41_alu.md R266). -/
def execOri (rs rt : RegNum) (imm : Imm16) (s : State) : StepOutcome :=
  commitSeq (s.setReg rt (s.getReg rs ||| zimm imm))

/-- XORI: the immediate is zero-extended (41_alu.md R267). -/
def execXori (rs rt : RegNum) (imm : Imm16) (s : State) : StepOutcome :=
  commitSeq (s.setReg rt (s.getReg rs ^^^ zimm imm))

/-- LUI (41_alu.md R268). -/
def execLui (rt : RegNum) (imm : Imm16) (s : State) : StepOutcome :=
  commitSeq (s.setReg rt (uimm imm))

/-- SLL; NOP, SSNOP and EHB are SLLs to register 0 (41_alu.md R269; 30_encoding.md R168). -/
def execSll (rt rd : RegNum) (sa : BitVec 5) (s : State) : StepOutcome :=
  commitSeq (s.setReg rd (s.getReg rt <<< shamt sa))

/-- SRL (41_alu.md R270). -/
def execSrl (rt rd : RegNum) (sa : BitVec 5) (s : State) : StepOutcome :=
  commitSeq (s.setReg rd (s.getReg rt >>> shamt sa))

/-- SRA (41_alu.md R271). -/
def execSra (rt rd : RegNum) (sa : BitVec 5) (s : State) : StepOutcome :=
  commitSeq (s.setReg rd ((s.getReg rt).sshiftRight (shamt sa)))

/-- SLLV: only the low 5 bits of `x[rs]` count (41_alu.md R272). -/
def execSllv (rs rt rd : RegNum) (s : State) : StepOutcome :=
  commitSeq (s.setReg rd (s.getReg rt <<< vshamt (s.getReg rs)))

/-- SRLV (41_alu.md R273). -/
def execSrlv (rs rt rd : RegNum) (s : State) : StepOutcome :=
  commitSeq (s.setReg rd (s.getReg rt >>> vshamt (s.getReg rs)))

/-- SRAV (41_alu.md R274). -/
def execSrav (rs rt rd : RegNum) (s : State) : StepOutcome :=
  commitSeq (s.setReg rd ((s.getReg rt).sshiftRight (vshamt (s.getReg rs))))

/-- MOVZ (41_alu.md R275). -/
def execMovz (rs rt rd : RegNum) (s : State) : StepOutcome :=
  commitSeq (if s.getReg rt = 0 then s.setReg rd (s.getReg rs) else s)

/-- MOVN (41_alu.md R276). -/
def execMovn (rs rt rd : RegNum) (s : State) : StepOutcome :=
  commitSeq (if s.getReg rt ≠ 0 then s.setReg rd (s.getReg rs) else s)

/-- CLZ (41_alu.md R277). -/
def execClz (rs rd : RegNum) (s : State) : StepOutcome :=
  commitSeq (s.setReg rd (BitVec.ofNat 32 (countLeadingZeros (s.getReg rs))))

/-- CLO (41_alu.md R278). -/
def execClo (rs rd : RegNum) (s : State) : StepOutcome :=
  commitSeq (s.setReg rd (BitVec.ofNat 32 (countLeadingOnes (s.getReg rs))))

end Sys2Proof.Machine
end

