-- ==== Sys2Proof/Machine/Branch.lean ====
section
/-! DEFINITION. The branch and jump instructions (43_branch_jump.md). Conditions and targets are read from the start
state, before a link is written (43_branch_jump.md R352, R353). -/

namespace Sys2Proof.Machine

/-- BEQ (43_branch_jump.md R354). -/
def execBeq (rs rt : RegNum) (imm : Imm16) (s : State) : StepOutcome :=
  branch (condEq (s.getReg rs) (s.getReg rt)) imm s s

/-- BNE (43_branch_jump.md R355). -/
def execBne (rs rt : RegNum) (imm : Imm16) (s : State) : StepOutcome :=
  branch (condNe (s.getReg rs) (s.getReg rt)) imm s s

/-- BLEZ (43_branch_jump.md R356). -/
def execBlez (rs : RegNum) (imm : Imm16) (s : State) : StepOutcome :=
  branch (condLez (s.getReg rs)) imm s s

/-- BGTZ (43_branch_jump.md R357). -/
def execBgtz (rs : RegNum) (imm : Imm16) (s : State) : StepOutcome :=
  branch (condGtz (s.getReg rs)) imm s s

/-- BLTZ (43_branch_jump.md R358). -/
def execBltz (rs : RegNum) (imm : Imm16) (s : State) : StepOutcome :=
  branch (condLtz (s.getReg rs)) imm s s

/-- BGEZ (43_branch_jump.md R359). -/
def execBgez (rs : RegNum) (imm : Imm16) (s : State) : StepOutcome :=
  branch (condGez (s.getReg rs)) imm s s

/-- BLTZAL: the link is written whether or not it is taken (43_branch_jump.md R360). -/
def execBltzal (rs : RegNum) (imm : Imm16) (s : State) : StepOutcome :=
  branch (condLtz (s.getReg rs)) imm s (link 31 s)

/-- BGEZAL: the link is written whether or not it is taken (43_branch_jump.md R361). -/
def execBgezal (rs : RegNum) (imm : Imm16) (s : State) : StepOutcome :=
  branch (condGez (s.getReg rs)) imm s (link 31 s)

/-- J (43_branch_jump.md R362). -/
def execJ (index : Index26) (s : State) : StepOutcome :=
  jump (jumpTarget s.getPC index) s

/-- JAL (43_branch_jump.md R363). -/
def execJal (index : Index26) (s : State) : StepOutcome :=
  jump (jumpTarget s.getPC index) (link 31 s)

/-- JR: the target need not be aligned (43_branch_jump.md R364, R375). -/
def execJr (rs : RegNum) (s : State) : StepOutcome :=
  jump (s.getReg rs) s

/-- JALR: the target is the old `x[rs]` (43_branch_jump.md R365). -/
def execJalr (rs rd : RegNum) (s : State) : StepOutcome :=
  jump (s.getReg rs) (link rd s)

/-- BEQL (43_branch_jump.md R367). -/
def execBeql (rs rt : RegNum) (imm : Imm16) (s : State) : StepOutcome :=
  branchLikely (condEq (s.getReg rs) (s.getReg rt)) imm s s

/-- BNEL (43_branch_jump.md R368). -/
def execBnel (rs rt : RegNum) (imm : Imm16) (s : State) : StepOutcome :=
  branchLikely (condNe (s.getReg rs) (s.getReg rt)) imm s s

/-- BLEZL (43_branch_jump.md R369). -/
def execBlezl (rs : RegNum) (imm : Imm16) (s : State) : StepOutcome :=
  branchLikely (condLez (s.getReg rs)) imm s s

/-- BGTZL (43_branch_jump.md R370). -/
def execBgtzl (rs : RegNum) (imm : Imm16) (s : State) : StepOutcome :=
  branchLikely (condGtz (s.getReg rs)) imm s s

/-- BLTZL (43_branch_jump.md R371). -/
def execBltzl (rs : RegNum) (imm : Imm16) (s : State) : StepOutcome :=
  branchLikely (condLtz (s.getReg rs)) imm s s

/-- BGEZL (43_branch_jump.md R372). -/
def execBgezl (rs : RegNum) (imm : Imm16) (s : State) : StepOutcome :=
  branchLikely (condGez (s.getReg rs)) imm s s

/-- BLTZALL: the link is written in both cases (43_branch_jump.md R373, R366). -/
def execBltzall (rs : RegNum) (imm : Imm16) (s : State) : StepOutcome :=
  branchLikely (condLtz (s.getReg rs)) imm s (link 31 s)

/-- BGEZALL: the link is written in both cases (43_branch_jump.md R374, R366). -/
def execBgezall (rs : RegNum) (imm : Imm16) (s : State) : StepOutcome :=
  branchLikely (condGez (s.getReg rs)) imm s (link 31 s)

end Sys2Proof.Machine
end

