-- ==== Sys2Proof/Machine/LoadStore.lean ====
section
/-! DEFINITION. The loads, stores and LL/SC (44_load_store.md). The effective address and a store's data are read from the
start state; memory is written before the register (40_step_cycle.md R208). -/

namespace Sys2Proof.Machine

/-- LB (44_load_store.md R401). -/
def execLb (rs rt : RegNum) (imm : Imm16) (s : State) : StepOutcome :=
  let ea := effectiveAddress (s.getReg rs) imm
  finish s (memReadByte ea s) fun v => s.setReg rt (sextByte v)

/-- LBU (44_load_store.md R402). -/
def execLbu (rs rt : RegNum) (imm : Imm16) (s : State) : StepOutcome :=
  let ea := effectiveAddress (s.getReg rs) imm
  finish s (memReadByte ea s) fun v => s.setReg rt (zextByte v)

/-- LH (44_load_store.md R403). -/
def execLh (rs rt : RegNum) (imm : Imm16) (s : State) : StepOutcome :=
  let ea := effectiveAddress (s.getReg rs) imm
  finish s (memReadHalf ea s) fun v => s.setReg rt (sextHalf v)

/-- LHU (44_load_store.md R405). -/
def execLhu (rs rt : RegNum) (imm : Imm16) (s : State) : StepOutcome :=
  let ea := effectiveAddress (s.getReg rs) imm
  finish s (memReadHalf ea s) fun v => s.setReg rt (zextHalf v)

/-- LW; at TRIG it runs the oracle trigger (44_load_store.md R404). -/
def execLw (rs rt : RegNum) (imm : Imm16) (s : State) : StepOutcome :=
  let ea := effectiveAddress (s.getReg rs) imm
  finish s (memReadWord true ea s) fun p => p.2.setReg rt p.1

/-- SB (44_load_store.md R406). -/
def execSb (rs rt : RegNum) (imm : Imm16) (s : State) : StepOutcome :=
  let ea := effectiveAddress (s.getReg rs) imm
  finish s (memWriteByte ea (s.getReg rt) s) id

/-- SH (44_load_store.md R407). -/
def execSh (rs rt : RegNum) (imm : Imm16) (s : State) : StepOutcome :=
  let ea := effectiveAddress (s.getReg rs) imm
  finish s (memWriteHalf ea (s.getReg rt) s) id

/-- SW (44_load_store.md R408). -/
def execSw (rs rt : RegNum) (imm : Imm16) (s : State) : StepOutcome :=
  let ea := effectiveAddress (s.getReg rs) imm
  finish s (memWriteWord ea (s.getReg rt) s) id

/-- LWL (44_load_store.md R410). -/
def execLwl (rs rt : RegNum) (imm : Imm16) (s : State) : StepOutcome :=
  let ea := effectiveAddress (s.getReg rs) imm
  finish s (memReadWord false (wordAddress ea) s) fun p =>
    s.setReg rt (mergeLwl p.1 (s.getReg rt) ea)

/-- LWR (44_load_store.md R411). -/
def execLwr (rs rt : RegNum) (imm : Imm16) (s : State) : StepOutcome :=
  let ea := effectiveAddress (s.getReg rs) imm
  finish s (memReadWord false (wordAddress ea) s) fun p =>
    s.setReg rt (mergeLwr p.1 (s.getReg rt) ea)

/-- SWL (44_load_store.md R412). -/
def execSwl (rs rt : RegNum) (imm : Imm16) (s : State) : StepOutcome :=
  let ea := effectiveAddress (s.getReg rs) imm
  let w := memReadWord false (wordAddress ea) s
  finish s (w.andThen fun p => memWriteWord (wordAddress ea) (mergeSwl p.1 (s.getReg rt) ea) s) id

/-- SWR (44_load_store.md R413). -/
def execSwr (rs rt : RegNum) (imm : Imm16) (s : State) : StepOutcome :=
  let ea := effectiveAddress (s.getReg rs) imm
  let w := memReadWord false (wordAddress ea) s
  finish s (w.andThen fun p => memWriteWord (wordAddress ea) (mergeSwr p.1 (s.getReg rt) ea) s) id

/-- LL (44_load_store.md R420). -/
def execLl (rs rt : RegNum) (imm : Imm16) (s : State) : StepOutcome :=
  let ea := effectiveAddress (s.getReg rs) imm
  finish s (memReadWord false ea s) fun p =>
    s.setReg rt p.1 |>.setLlbit true

/-- SC: it needs an earlier LL, stores and writes 1; the register write follows the store
(44_load_store.md R421; 40_step_cycle.md R208). -/
def execSc (rs rt : RegNum) (imm : Imm16) (s : State) : StepOutcome :=
  if s.llbit then
    let ea := effectiveAddress (s.getReg rs) imm
    finish s (memWriteWord ea (s.getReg rt) s) fun s1 => s1.setReg rt 1
  else .refused .scNoLl

end Sys2Proof.Machine
end

