-- ==== Sys2Proof/Machine/MulDiv.lean ====
section
/-! DEFINITION. The multiply, divide and HI/LO instructions (42_muldiv.md). HI and LO are read from the start state, no
instruction of the family raises an error, and the control outcome is `seq` (42_muldiv.md R300). -/

namespace Sys2Proof.Machine

/-- MULT (42_muldiv.md R301). -/
def execMult (rs rt : RegNum) (s : State) : StepOutcome :=
  commitSeq (s.setAcc (signedProduct (s.getReg rs) (s.getReg rt)))

/-- MULTU (42_muldiv.md R302). -/
def execMultu (rs rt : RegNum) (s : State) : StepOutcome :=
  commitSeq (s.setAcc (unsignedProduct (s.getReg rs) (s.getReg rt)))

/-- DIV (42_muldiv.md R303). -/
def execDiv (rs rt : RegNum) (s : State) : StepOutcome :=
  commitSeq (s.setHiLo (signedDivide (s.getReg rs) (s.getReg rt) s.getHI s.getLO))

/-- DIVU (42_muldiv.md R304). -/
def execDivu (rs rt : RegNum) (s : State) : StepOutcome :=
  commitSeq (s.setHiLo (unsignedDivide (s.getReg rs) (s.getReg rt) s.getHI s.getLO))

/-- MFHI (42_muldiv.md R305). -/
def execMfhi (rd : RegNum) (s : State) : StepOutcome :=
  commitSeq (s.setReg rd s.getHI)

/-- MFLO (42_muldiv.md R306). -/
def execMflo (rd : RegNum) (s : State) : StepOutcome :=
  commitSeq (s.setReg rd s.getLO)

/-- MTHI (42_muldiv.md R307). -/
def execMthi (rs : RegNum) (s : State) : StepOutcome :=
  commitSeq (s.setHI (s.getReg rs))

/-- MTLO (42_muldiv.md R308). -/
def execMtlo (rs : RegNum) (s : State) : StepOutcome :=
  commitSeq (s.setLO (s.getReg rs))

/-- MUL: the low word of the product, and HI and LO by the free value `P_MUL_HILO` (42_muldiv.md R309; log 11). -/
def execMul (rs rt rd : RegNum) (s : State) : StepOutcome :=
  let a := s.getReg rs
  let b := s.getReg rt
  let p := Config.mulHiLo a b s.getHI s.getLO
  commitSeq ((s.setReg rd (loHalf (signedProduct a b))).setHiLo p)

/-- MADD (42_muldiv.md R310). -/
def execMadd (rs rt : RegNum) (s : State) : StepOutcome :=
  commitSeq (s.setAcc (s.getAcc + signedProduct (s.getReg rs) (s.getReg rt)))

/-- MADDU (42_muldiv.md R311). -/
def execMaddu (rs rt : RegNum) (s : State) : StepOutcome :=
  commitSeq (s.setAcc (s.getAcc + unsignedProduct (s.getReg rs) (s.getReg rt)))

/-- MSUB (42_muldiv.md R312). -/
def execMsub (rs rt : RegNum) (s : State) : StepOutcome :=
  commitSeq (s.setAcc (s.getAcc - signedProduct (s.getReg rs) (s.getReg rt)))

/-- MSUBU (42_muldiv.md R313). -/
def execMsubu (rs rt : RegNum) (s : State) : StepOutcome :=
  commitSeq (s.setAcc (s.getAcc - unsignedProduct (s.getReg rs) (s.getReg rt)))

end Sys2Proof.Machine
end

