-- ==== Sys2Proof/Machine/System.lean ====
section
/-! DEFINITION. SYNC, and the instructions of the unmodelled groups, whose whole effect is their decode verdict
(45_system.md). -/

namespace Sys2Proof.Machine

/-- SYNC: a no-op; `stype` is ignored (45_system.md R455; 20_memory.md R134). -/
def execSync (_stype : BitVec 5) (s : State) : StepOutcome :=
  commitSeq s

/-- MOVCI: decode verdict only (45_system.md R456). -/
def execMovci (rs rt rd : RegNum) (sa : BitVec 5) (s : State) : StepOutcome :=
  unmodelled .cop (encode (.movci rs rt rd sa)) s

/-- SYSCALL: decode verdict only (45_system.md R451). -/
def execSyscall (code : BitVec 20) (s : State) : StepOutcome :=
  unmodelled .syscall (encode (.syscall code)) s

/-- BREAK: decode verdict only (45_system.md R452). -/
def execBreak (code : BitVec 20) (s : State) : StepOutcome :=
  unmodelled .brk (encode (.break_ code)) s

/-- TGE: decode verdict only (45_system.md R453). -/
def execTge (rs rt rd : RegNum) (sa : BitVec 5) (s : State) : StepOutcome :=
  unmodelled .trap (encode (.tge rs rt rd sa)) s

/-- TGEU: decode verdict only (45_system.md R453). -/
def execTgeu (rs rt rd : RegNum) (sa : BitVec 5) (s : State) : StepOutcome :=
  unmodelled .trap (encode (.tgeu rs rt rd sa)) s

/-- TLT: decode verdict only (45_system.md R453). -/
def execTlt (rs rt rd : RegNum) (sa : BitVec 5) (s : State) : StepOutcome :=
  unmodelled .trap (encode (.tlt rs rt rd sa)) s

/-- TLTU: decode verdict only (45_system.md R453). -/
def execTltu (rs rt rd : RegNum) (sa : BitVec 5) (s : State) : StepOutcome :=
  unmodelled .trap (encode (.tltu rs rt rd sa)) s

/-- TEQ: decode verdict only (45_system.md R453). -/
def execTeq (rs rt rd : RegNum) (sa : BitVec 5) (s : State) : StepOutcome :=
  unmodelled .trap (encode (.teq rs rt rd sa)) s

/-- TNE: decode verdict only (45_system.md R453). -/
def execTne (rs rt rd : RegNum) (sa : BitVec 5) (s : State) : StepOutcome :=
  unmodelled .trap (encode (.tne rs rt rd sa)) s

/-- TGEI: decode verdict only (45_system.md R453). -/
def execTgei (rs : RegNum) (imm : Imm16) (s : State) : StepOutcome :=
  unmodelled .trap (encode (.tgei rs imm)) s

/-- TGEIU: decode verdict only (45_system.md R453). -/
def execTgeiu (rs : RegNum) (imm : Imm16) (s : State) : StepOutcome :=
  unmodelled .trap (encode (.tgeiu rs imm)) s

/-- TLTI: decode verdict only (45_system.md R453). -/
def execTlti (rs : RegNum) (imm : Imm16) (s : State) : StepOutcome :=
  unmodelled .trap (encode (.tlti rs imm)) s

/-- TLTIU: decode verdict only (45_system.md R453). -/
def execTltiu (rs : RegNum) (imm : Imm16) (s : State) : StepOutcome :=
  unmodelled .trap (encode (.tltiu rs imm)) s

/-- TEQI: decode verdict only (45_system.md R453). -/
def execTeqi (rs : RegNum) (imm : Imm16) (s : State) : StepOutcome :=
  unmodelled .trap (encode (.teqi rs imm)) s

/-- TNEI: decode verdict only (45_system.md R453). -/
def execTnei (rs : RegNum) (imm : Imm16) (s : State) : StepOutcome :=
  unmodelled .trap (encode (.tnei rs imm)) s

/-- SYNCI: decode verdict only (45_system.md R458). -/
def execSynci (rs : RegNum) (imm : Imm16) (s : State) : StepOutcome :=
  unmodelled .r2 (encode (.synci rs imm)) s

/-- SDBBP: decode verdict only (45_system.md R457). -/
def execSdbbp (code : BitVec 20) (s : State) : StepOutcome :=
  unmodelled .ase (encode (.sdbbp code)) s

/-- COP0: decode verdict only (45_system.md R456). -/
def execCop0 (rs rt : RegNum) (imm : Imm16) (s : State) : StepOutcome :=
  unmodelled .cop (encode (.cop0 rs rt imm)) s

/-- COP1: decode verdict only (45_system.md R456). -/
def execCop1 (rs rt : RegNum) (imm : Imm16) (s : State) : StepOutcome :=
  unmodelled .cop (encode (.cop1 rs rt imm)) s

/-- COP2: decode verdict only (45_system.md R456). -/
def execCop2 (rs rt : RegNum) (imm : Imm16) (s : State) : StepOutcome :=
  unmodelled .cop (encode (.cop2 rs rt imm)) s

/-- COP1X: decode verdict only (45_system.md R456). -/
def execCop1x (rs rt : RegNum) (imm : Imm16) (s : State) : StepOutcome :=
  unmodelled .cop (encode (.cop1x rs rt imm)) s

/-- JALX: decode verdict only (45_system.md R457). -/
def execJalx (index : Index26) (s : State) : StepOutcome :=
  unmodelled .ase (encode (.jalx index)) s

/-- SPECIAL3: decode verdict only (45_system.md R458). -/
def execSpecial3 (rs rt : RegNum) (imm : Imm16) (s : State) : StepOutcome :=
  unmodelled .r2 (encode (.special3 rs rt imm)) s

/-- CACHE: decode verdict only (45_system.md R456). -/
def execCache (rs rt : RegNum) (imm : Imm16) (s : State) : StepOutcome :=
  unmodelled .cop (encode (.cache rs rt imm)) s

/-- LWC1: decode verdict only (45_system.md R456). -/
def execLwc1 (rs rt : RegNum) (imm : Imm16) (s : State) : StepOutcome :=
  unmodelled .cop (encode (.lwc1 rs rt imm)) s

/-- LWC2: decode verdict only (45_system.md R456). -/
def execLwc2 (rs rt : RegNum) (imm : Imm16) (s : State) : StepOutcome :=
  unmodelled .cop (encode (.lwc2 rs rt imm)) s

/-- PREF: decode verdict only (45_system.md R456). -/
def execPref (rs rt : RegNum) (imm : Imm16) (s : State) : StepOutcome :=
  unmodelled .cop (encode (.pref rs rt imm)) s

/-- LDC1: decode verdict only (45_system.md R456). -/
def execLdc1 (rs rt : RegNum) (imm : Imm16) (s : State) : StepOutcome :=
  unmodelled .cop (encode (.ldc1 rs rt imm)) s

/-- LDC2: decode verdict only (45_system.md R456). -/
def execLdc2 (rs rt : RegNum) (imm : Imm16) (s : State) : StepOutcome :=
  unmodelled .cop (encode (.ldc2 rs rt imm)) s

/-- SWC1: decode verdict only (45_system.md R456). -/
def execSwc1 (rs rt : RegNum) (imm : Imm16) (s : State) : StepOutcome :=
  unmodelled .cop (encode (.swc1 rs rt imm)) s

/-- SWC2: decode verdict only (45_system.md R456). -/
def execSwc2 (rs rt : RegNum) (imm : Imm16) (s : State) : StepOutcome :=
  unmodelled .cop (encode (.swc2 rs rt imm)) s

/-- SDC1: decode verdict only (45_system.md R456). -/
def execSdc1 (rs rt : RegNum) (imm : Imm16) (s : State) : StepOutcome :=
  unmodelled .cop (encode (.sdc1 rs rt imm)) s

/-- SDC2: decode verdict only (45_system.md R456). -/
def execSdc2 (rs rt : RegNum) (imm : Imm16) (s : State) : StepOutcome :=
  unmodelled .cop (encode (.sdc2 rs rt imm)) s

end Sys2Proof.Machine
end

