-- ==== Sys2Proof/Machine/Cycle.lean ====
section
/-! DEFINITION. The step cycle of 40_step_cycle.md: fetch, decode, the delay-slot check, the gas charge, execute
and commit, in the order of checks of 60_exceptions.md R510; then the step count and the halt check. -/

namespace Sys2Proof.Machine

/-- Fetch: the plain word at the PC, which must be a multiple of 4 (40_step_cycle.md R202; 20_memory.md R126). -/
def fetchWord (s : State) : Res Word :=
  if byteOffset s.getPC = 0 then .ok (s.mword s.getPC) else .error (.unalignedAccess s.getPC)

/-- The gas cost of an instruction (40_step_cycle.md R205, R215). -/
def gasCostOf (s : State) (i : Instr) : Nat := s.cfg.gasCost i.mnemonic

/-- `gas := S.gas - c` (40_step_cycle.md R205). -/
def charge (i : Instr) (s : State) : State := { s with gas := s.gas - gasCostOf s i }

/-- After a committed step: `steps` counts it, then the halt check (40_step_cycle.md R200, R211, R212). A
step that ended in an error is not counted and the run is over. -/
def closeStep (s : State) : State :=
  if s.status = .running then
    let s1 := { s with steps := s.steps + 1 }
    if haltedNow s1 then { s1 with status := .halted } else s1
  else s

/-- Applies `closeStep` to the state a step reached. -/
def closeOutcome : StepOutcome → StepOutcome
  | .next s => .next (closeStep s)
  | .fault f => .fault f
  | .refused r => .refused r

/-- A control transfer in a delay slot under `P_CT_IN_DS = refuse` (40_step_cycle.md R204). -/
def ctRefused (s : State) (i : Instr) : Bool := i.isCT && s.ds && s.cfg.ctInDs == .refuse

/-- The part of a step after decode: the delay-slot check, the charge, execute and commit
(40_step_cycle.md R204 to R207). -/
def runInstr (i : Instr) (s : State) : StepOutcome :=
  if ctRefused s i then .refused .ctInDs
  else if s.gas < gasCostOf s i then takeError .outOfGas s
  else closeOutcome (exec i (charge i s))

/-- The part of a step after fetch, on the fetched word (40_step_cycle.md R203). -/
def runWord (w : Word) (s : State) : StepOutcome :=
  match decode s.cfg w with
  | .op o => runInstr o.instr s
  | .invalidOpcode => takeError (.invalidOpcode w) s
  | .groupUnknown g => .refused (.groupUnknown g)
  | .fieldsRefused => .refused .fields

/-- One step of a running engine (40_step_cycle.md R202 to R212). -/
def cycle (s : State) : StepOutcome :=
  match fetchWord s with
  | .ok w => runWord w s
  | .error e => takeError e s
  | .refuse r => .refused r

/-- The end of the run by the step budget: nothing but `status` changes (40_step_cycle.md R201; log 14). -/
def endByBudget (s : State) : StepOutcome := .next { s with status := .budget }

/-- One turn of the Step Loop (40_step_cycle.md R200): the budget check at the loop head, then one step. A
state with the refusal mark has no next state (10_state.md R74), and neither has a run that is over. -/
def loopTurn (s : State) : StepOutcome :=
  match s.refused with
  | some _ => .refused .alreadyRefused
  | none =>
    match s.status with
    | .running => if s.steps = s.inputs.maxSteps then endByBudget s else cycle s
    | .halted => .fault .runEnded
    | .budget => .fault .runEnded
    | .error _ => .fault .runEnded

/-- Places an instruction's word where the next step fetches it (20_memory.md R104, R126). -/
def placeFetchWord (s : State) (nbits w : Nat) : State :=
  s.setMword s.getPC (BitVec.ofNat 32 (w % 2 ^ nbits))

end Sys2Proof.Machine
end

