-- ==== Sys2Proof/Machine/Step.lean ====
section
/-! DEFINITION. `step`: one turn of the Step Loop (40_step_cycle.md R200), and where the host places an
instruction for it to fetch (log 21). -/

namespace Sys2Proof.Machine

/-- One turn of the Step Loop. -/
def step (s : State) : Host.Outcome State Fault Refusal := loopTurn s

/-- The state with the instruction whose bits are `w` stored at the PC, where `step` fetches. -/
def State.withFetchWord (s : State) (nbits w : Nat) : State := placeFetchWord s nbits w

end Sys2Proof.Machine
end

