-- ==== Sys2Proof/Machine/Run.lean ====
section
/-! DEFINITION. The run of 40_step_cycle.md R200 over `step`, with the observer's calls (R210, R214) and the
refusal mark (10_state.md R74). -/

namespace Sys2Proof.Machine

/-- The register snapshot (40_step_cycle.md R214): `x[0..31]`, PC, HI, LO and `npc`. -/
structure RegSnapshot where
  x : List Word
  pc : Word
  hi : Word
  lo : Word
  npc : Word
  deriving DecidableEq, Repr

/-- `regSnapshot(S)` (40_step_cycle.md R214). -/
def regSnapshot (s : State) : RegSnapshot where
  x := (List.range 32).map fun k => s.getReg (BitVec.ofNat 5 k)
  pc := s.getPC
  hi := s.getHI
  lo := s.getLO
  npc := s.npc

/-- What port OBS carries for one committed step (00_scope.md R14). -/
structure Observation where
  stepIndex : Nat
  regs : RegSnapshot
  mem : Memory
  deriving DecidableEq, Repr

/-- The observer's call for the step from `s` to `s'`: the index is the value of `steps` before the
increment; none when the step did not commit, or when no observer is supplied (00_scope.md R14;
40_step_cycle.md R210; log 24). -/
def observation (s s' : State) : Option Observation :=
  if s.inputs.observer = true ∧ s'.steps = s.steps + 1 then some ⟨s.steps, regSnapshot s', s'.mem⟩ else none

/-- Sets the refusal mark with its reason (10_state.md R74). DESIGN CHOICE: no rule names the state that carries the
mark; the run applies this to the state the step started from (log 16). -/
def markRefused (r : Refusal) (s : State) : State := { s with refused := some r }

/-- At most `fuel` turns of the Step Loop, with the observer's calls in order (40_step_cycle.md R200); it stops
when the run is over or the model refuses. DESIGN CHOICE: a refused run ends in the state the refused step started
from, with the mark set and the gas not charged, also when the refusal comes in execute, after the charge; 10_state.md
R74, 40_step_cycle.md R200 and 00_scope.md R34 name no such state, and 60_exceptions.md R510 lists the gas as charged
there (log 16). -/
def runLoop : Nat → State → State × List Observation
  | 0, s => (s, [])
  | fuel + 1, s =>
    match step s with
    | .next s' =>
      let r := runLoop fuel s'
      (r.1, (observation s s').toList ++ r.2)
    | .refused q => (markRefused q s, [])
    | .fault _ => (s, [])

/-- The run's entry point (40_step_cycle.md R200; 00_scope.md R10): at most `MAX_STEPS` steps and one more
turn, in which the budget check ends the run. -/
def run (c : Config) (inp : RunInputs) (m0 : Memory) (startPC : Word) (gas0 : Nat) :
    State × List Observation :=
  runLoop (inp.maxSteps + 1) (State.start c inp m0 startPC gas0)

end Sys2Proof.Machine
end

