-- ==== Sys2Proof/Safety.lean ====
section
/-! DEFINITION. The terms claims use: what a committed instruction may change, the invariants of a run, and the
gas a step charges. -/

namespace Sys2Proof.Machine

/-- The meaning of `i` at `s` answers a next state that meets `post`. -/
def Completes (i : Instr) (s : State) (post : State → Prop) : Prop :=
  ∃ t, exec i s = .next t ∧ post t

/-- `x` is one of the `n` bytes from byte address `a`, addresses taken mod 2^32 (20_memory.md R130). -/
def InBytes (a : Word) (n x : Nat) : Prop := ∃ k, k < n ∧ x = (a + BitVec.ofNat 32 k).toNat

/-- `x` is a byte of slot `k` of the Register File View (10_state.md R52). -/
def InSlot (c : Config) (k x : Nat) : Prop := InBytes (slotAddr c k) 4 x

/-- The parts of the state no instruction's own rule writes: the Step Loop's counters and status, the refusal
mark, the parameters and the run's inputs (10_state.md R68). -/
structure LoopKept (s t : State) : Prop where
  gas : t.gas = s.gas
  steps : t.steps = s.steps
  status : t.status = s.status
  refused : t.refused = s.refused
  cfg : t.cfg = s.cfg
  inputs : t.inputs = s.inputs

/-- `LoopKept`, and the oracle cache and the load-linked bit are kept too. -/
structure HiddenKept (s t : State) : Prop extends LoopKept s t where
  cache : t.cache = s.cache
  llbit : t.llbit = s.llbit

/-- The pc/npc pair and `ds` after the control outcome `seq` of an instruction that is no control transfer
(40_step_cycle.md R206). -/
structure Advanced (s t : State) : Prop where
  pc : t.getPC = s.npc
  npc : t.npc = s.npc + 4
  ds : t.ds = false

/-- The general registers after a write of `v` to register `n`, and HI and LO kept. A write of register 0 has
no effect (10_state.md R56). -/
structure RegWritten (s t : State) (n : RegNum) (v : Word) : Prop where
  regs : ∀ k, t.getReg k = if k = n ∧ n ≠ 0 then v else s.getReg k
  hi : t.getHI = s.getHI
  lo : t.getLO = s.getLO

/-- HI and LO after a write of both, and every general register kept. -/
structure HiLoWritten (s t : State) (hi lo : Word) : Prop where
  regs : ∀ k, t.getReg k = s.getReg k
  hi : t.getHI = hi
  lo : t.getLO = lo

/-- Every byte outside the PC slot, and outside the bytes `wr` names, is kept. -/
def BytesKept (s t : State) (wr : Nat → Prop) : Prop :=
  ∀ x, ¬ InSlot s.cfg Config.slotPC x → ¬ wr x → Memory.readByte t.mem x = Memory.readByte s.mem x

/-- The bytes a write of register `n` may change: none for register 0. -/
def RegBytes (c : Config) (n : RegNum) (x : Nat) : Prop := n ≠ 0 ∧ InSlot c n.toNat x

/-- The bytes of HI and LO. -/
def HiLoBytes (c : Config) (x : Nat) : Prop := InSlot c Config.slotHI x ∨ InSlot c Config.slotLO x

/-- The whole effect of a sequential instruction that writes `v` to register `n` and nothing else. -/
structure RegEffect (s : State) (n : RegNum) (v : Word) (t : State) : Prop
    extends HiddenKept s t, Advanced s t, RegWritten s t n v where
  bytes : BytesKept s t (RegBytes s.cfg n)

/-- The whole effect of a sequential instruction that writes HI and LO and nothing else. -/
structure HiLoEffect (s : State) (hi lo : Word) (t : State) : Prop
    extends HiddenKept s t, Advanced s t, HiLoWritten s t hi lo where
  bytes : BytesKept s t (HiLoBytes s.cfg)

/-- The whole effect of a control transfer that writes `v` to register `n` (register 0: nothing) and moves the
pair to `(pc', npc')` with the delay-slot bit `ds'`. -/
structure JumpEffect (s : State) (n : RegNum) (v pc' npc' : Word) (ds' : Bool) (t : State) : Prop
    extends HiddenKept s t, RegWritten s t n v where
  pc : t.getPC = pc'
  npc : t.npc = npc'
  ds : t.ds = ds'
  bytes : BytesKept s t (RegBytes s.cfg n)

/-- The whole effect of an ordinary branch with link register `n` (register 0: no link): the pair moves to the
delay slot and, if taken, to the target `T` after it (43_branch_jump.md R353). -/
def BranchEffect (s : State) (n : RegNum) (taken : Bool) (T : Word) : State → Prop :=
  JumpEffect s n (s.getPC + 8) s.npc (if taken then T else s.npc + 4) true

/-- The whole effect of a branch-likely: as an ordinary branch if taken, else its delay slot is annulled
(43_branch_jump.md R366). -/
def LikelyEffect (s : State) (n : RegNum) (taken : Bool) (T : Word) : State → Prop :=
  JumpEffect s n (s.getPC + 8) (if taken then s.npc else s.npc + 4) (if taken then T else s.npc + 8) taken

/-- The whole effect of a sequential store of the `n` bytes `val 0`, `val 1`, … from byte address `a`. -/
structure StoreEffect (s : State) (a : Word) (n : Nat) (val : Nat → Byte) (t : State) : Prop
    extends HiddenKept s t, Advanced s t where
  regs : ∀ k, t.getReg k = s.getReg k
  hi : t.getHI = s.getHI
  lo : t.getLO = s.getLO
  stored : ∀ k, k < n → Memory.readByte t.mem (a + BitVec.ofNat 32 k).toNat = val k
  bytes : BytesKept s t (InBytes a n)

/-- What a data load of register slot `k` gives under `P_REGFILE_DATA = alias`: slot 0 reads 0
(20_memory.md R114). -/
def slotValue (s : State) (k : Nat) : Word := if k = 0 then 0 else s.slot k

/-- The whole effect of a sequential data store of `w` to register slot `k` under `P_REGFILE_DATA = alias`: slot 0
is not written, and the PC slot takes the step's own pc (20_memory.md R114). -/
structure SlotEffect (s : State) (k : Nat) (w : Word) (t : State) : Prop
    extends HiddenKept s t, Advanced s t where
  regs : ∀ j : RegNum, t.getReg j = if j.toNat = k ∧ j ≠ 0 then w else s.getReg j
  hi : t.getHI = if k = Config.slotHI then w else s.getHI
  lo : t.getLO = if k = Config.slotLO then w else s.getLO
  bytes : BytesKept s t fun x => k ≠ 0 ∧ InSlot s.cfg k x

/-- The word address of `a` is plain for a load: not a register slot and not the trigger (20_memory.md R112). -/
def LoadsPlain (c : Config) (a : Word) : Prop :=
  classOf c (wordAddress a) ≠ .reg ∧ classOf c (wordAddress a) ≠ .trig

/-- The word address of `a` is plain for a store: class KEY or PLAIN (20_memory.md R113). -/
def StoresPlain (c : Config) (a : Word) : Prop :=
  classOf c (wordAddress a) = .key ∨ classOf c (wordAddress a) = .plain

/-- A load that is no LW may read the byte at `a`: its word is plain for a load, or a register slot that is open to
data accesses (20_memory.md R112, R114). -/
def LoadsAt (c : Config) (a : Word) : Prop :=
  LoadsPlain c a ∨ (classOf c (wordAddress a) = .reg ∧ c.regfileData = .aliased)

/-- A store may write the byte at `a`: its word is plain for a store, or a register slot that is open to data
accesses (20_memory.md R113, R114). -/
def StoresAt (c : Config) (a : Word) : Prop :=
  StoresPlain c a ∨ (classOf c (wordAddress a) = .reg ∧ c.regfileData = .aliased)

/-- A load that is no LW is refused at `a`, for the reason `q` (20_memory.md R112, R118). -/
def LoadRefused (c : Config) (a : Word) (q : Refusal) : Prop :=
  (classOf c (wordAddress a) = .reg ∧ c.regfileData = .refuse ∧ q = .regfileData) ∨
  (classOf c (wordAddress a) = .trig ∧ q = .oracleAccess)

/-- A store is refused at `a`, for the reason `q` (20_memory.md R113, R118). -/
def StoreRefused (c : Config) (a : Word) (q : Refusal) : Prop :=
  (classOf c (wordAddress a) = .reg ∧ c.regfileData = .refuse ∧ q = .regfileData) ∨
  ((classOf c (wordAddress a) = .trig ∨ classOf c (wordAddress a) = .win) ∧ q = .oracleAccess)

/-- The byte a load reads at `a`: 0 in the slot of register 0, else the byte of memory (20_memory.md R114). -/
def loadedByte (s : State) (a : Word) : Byte :=
  if wordAddress a = s.cfg.regBase then 0 else Memory.readByte s.mem a.toNat

/-- The whole effect of a sequential store of the `n` bytes `val 0`, `val 1`, … from byte address `a`, register slots
among them: the slot of register 0 is not written, and the PC slot takes the step's own pc (20_memory.md R114). -/
structure DataStored (s : State) (a : Word) (n : Nat) (val : Nat → Byte) (t : State) : Prop
    extends HiddenKept s t, Advanced s t where
  stored : ∀ k, k < n → ¬ InSlot s.cfg 0 (a + BitVec.ofNat 32 k).toNat →
    ¬ InSlot s.cfg Config.slotPC (a + BitVec.ofNat 32 k).toNat →
    Memory.readByte t.mem (a + BitVec.ofNat 32 k).toNat = val k
  bytes : BytesKept s t fun x => InBytes a n x ∧ ¬ InSlot s.cfg 0 x
  regs : ∀ j : RegNum, (∀ x, InSlot s.cfg j.toNat x → ¬ InBytes a n x) → t.getReg j = s.getReg j
  hi : (∀ x, InSlot s.cfg Config.slotHI x → ¬ InBytes a n x) → t.getHI = s.getHI
  lo : (∀ x, InSlot s.cfg Config.slotLO x → ¬ InBytes a n x) → t.getLO = s.getLO

/-- The state in which the step ends with error `e`: only `status` differs (60_exceptions.md R520). -/
def errorState (e : EngineError) (s : State) : State := { s with status := .error e }

/-- `s` has a next step: the run is not over, no refusal is recorded, the budget is not used up
(40_step_cycle.md R200, R201; 10_state.md R74). -/
structure Live (s : State) : Prop where
  running : s.status = .running
  unmarked : s.refused = none
  budget : s.steps ≠ s.inputs.maxSteps

/-- `s` is live and its next fetch gives the word `w` (40_step_cycle.md R202). -/
structure Fetches (s : State) (w : Word) : Prop extends Live s where
  aligned : s.getPC.toNat % 4 = 0
  word : s.mword s.getPC = w

/-- The invariant every step keeps: the memory is in canonical form; the pair is sequential outside a delay
slot (70_reset_and_hazards.md R555); the cache holds provider answers (10_state.md R71). -/
structure Inv (s : State) : Prop where
  mem : Memory.wf s.mem = true
  pair : s.ds = false → s.npc = s.getPC + 4
  cache : ∀ key bytes, assoc key s.cache = some bytes → assoc key s.inputs.oracle = some bytes

/-- The gas the next step charges: the cost of the decoded mnemonic once the charge is passed, else nothing
(40_step_cycle.md R205, R217). -/
def stepCharge (s : State) : Nat :=
  if s.status = .running ∧ s.refused = none ∧ s.steps ≠ s.inputs.maxSteps ∧ s.getPC.toNat % 4 = 0 then
    match decode s.cfg (s.mword s.getPC) with
    | .op o => if s.cfg.gasCost o.instr.mnemonic ≤ s.gas then s.cfg.gasCost o.instr.mnemonic else 0
    | .invalidOpcode => 0
    | .groupUnknown _ => 0
    | .fieldsRefused => 0
  else 0

/-- What `k` steps from `s` answer: they stop at the first fault or refusal. -/
def stepsFrom : Nat → State → StepOutcome
  | 0, s => .next s
  | k + 1, s =>
    match step s with
    | .next t => stepsFrom k t
    | .fault f => .fault f
    | .refused q => .refused q

/-- The charges of the first `k` steps from `s`, summed. -/
def totalCharge : Nat → State → Nat
  | 0, _ => 0
  | k + 1, s =>
    match step s with
    | .next t => stepCharge s + totalCharge k t
    | .fault _ => 0
    | .refused _ => 0

/-- What a step answers once it runs `i` with its charge `c` made: the meaning's answer, counted and checked for
the halt when it committed (40_step_cycle.md R200, R205, R211, R212). -/
def ranStep (i : Instr) (c : Nat) (s : State) : StepOutcome :=
  match exec i { s with gas := s.gas - c } with
  | .next t =>
    if t.status = .running then
      .next { t with
        steps := t.steps + 1
        status := if haltedNow t then .halted else .running }
    else .next t
  | .fault f => .fault f
  | .refused q => .refused q

/-- A control transfer in a delay slot that `P_CT_IN_DS` refuses (40_step_cycle.md R204). -/
def CtRefused (i : Instr) (s : State) : Prop := i.isCT = true ∧ s.ds = true ∧ s.cfg.ctInDs = .refuse

/-- A must-be-zero constraint: the bits of the word under `bits` are 0 (30_encoding.md R167). -/
def ZeroAt (bits w : Word) : Prop := w &&& bits = 0

/-- No must-be-zero constraint (30_encoding.md R167). -/
def NoFixed (_w : Word) : Prop := True

/-- One row of opcode_table.json: every word whose bits under `mask` are `val` decodes to `f w`, of group `g`,
and its must-be-zero check asks `fixed w`. -/
def RowIs (mask val : Word) (fixed : Word → Prop) (g : Group) (f : Word → Instr) : Prop :=
  ∀ w, w &&& mask = val →
    decodeWord w = some (f w) ∧ (f w).group = g ∧ (fieldsOK w (f w).mnemonic = true ↔ fixed w)

/-- The operands `rs`, `rt`, `rd` of a word (30_encoding.md R150). -/
def rowRsRtRd (k : RegNum → RegNum → RegNum → Instr) (w : Word) : Instr :=
  k (w.extractLsb 25 21) (w.extractLsb 20 16) (w.extractLsb 15 11)

/-- The operands `rs`, `rt`, `rd`, `sa` of a word (30_encoding.md R150). -/
def rowRsRtRdSa (k : RegNum → RegNum → RegNum → BitVec 5 → Instr) (w : Word) : Instr :=
  k (w.extractLsb 25 21) (w.extractLsb 20 16) (w.extractLsb 15 11) (w.extractLsb 10 6)

/-- The operands `rt`, `rd`, `sa` of a word (30_encoding.md R150). -/
def rowRtRdSa (k : RegNum → RegNum → BitVec 5 → Instr) (w : Word) : Instr :=
  k (w.extractLsb 20 16) (w.extractLsb 15 11) (w.extractLsb 10 6)

/-- The operands `rs`, `rt` of a word (30_encoding.md R150). -/
def rowRsRt (k : RegNum → RegNum → Instr) (w : Word) : Instr := k (w.extractLsb 25 21) (w.extractLsb 20 16)

/-- The operands `rs`, `rd` of a word (30_encoding.md R150). -/
def rowRsRd (k : RegNum → RegNum → Instr) (w : Word) : Instr := k (w.extractLsb 25 21) (w.extractLsb 15 11)

/-- The operand `rs` of a word (30_encoding.md R150). -/
def rowRs (k : RegNum → Instr) (w : Word) : Instr := k (w.extractLsb 25 21)

/-- The operand `rd` of a word (30_encoding.md R150). -/
def rowRd (k : RegNum → Instr) (w : Word) : Instr := k (w.extractLsb 15 11)

/-- The operand `stype` of a word (30_encoding.md R150). -/
def rowStype (k : BitVec 5 → Instr) (w : Word) : Instr := k (w.extractLsb 10 6)

/-- The operand `code` of a word (30_encoding.md R150). -/
def rowCode (k : BitVec 20 → Instr) (w : Word) : Instr := k (w.extractLsb 25 6)

/-- The operands `rs`, `rt`, `imm` of a word (30_encoding.md R150). -/
def rowRsRtImm (k : RegNum → RegNum → Imm16 → Instr) (w : Word) : Instr :=
  k (w.extractLsb 25 21) (w.extractLsb 20 16) (w.extractLsb 15 0)

/-- The operands `rs`, `imm` of a word (30_encoding.md R150). -/
def rowRsImm (k : RegNum → Imm16 → Instr) (w : Word) : Instr := k (w.extractLsb 25 21) (w.extractLsb 15 0)

/-- The operands `rt`, `imm` of a word (30_encoding.md R150). -/
def rowRtImm (k : RegNum → Imm16 → Instr) (w : Word) : Instr := k (w.extractLsb 20 16) (w.extractLsb 15 0)

/-- The operand `index` of a word (30_encoding.md R150). -/
def rowIndex (k : Index26 → Instr) (w : Word) : Instr := k (w.extractLsb 25 0)

/-- A signed add or subtract with exact result `r`: register `n` takes it when it fits 32 bits, else the
instruction overflows and nothing but the status changes (41_alu.md R251; 60_exceptions.md R503). -/
def SignedResult (i : Instr) (s : State) (n : RegNum) (r : Int) : Prop :=
  (-2 ^ 31 ≤ r ∧ r < 2 ^ 31 → Completes i s (RegEffect s n (BitVec.ofInt 32 r))) ∧
  (r < -2 ^ 31 ∨ 2 ^ 31 ≤ r → exec i s = .next (errorState (.arithmeticOverflow s.getPC) s))

/-- The target of a branch at the state's pc with offset field `imm` (43_branch_jump.md R350). -/
def branchGoal (s : State) (imm : Imm16) : Word := s.getPC + 4 + BitVec.ofInt 32 (imm.toInt * 4)

/-- The target of J and JAL: the 256 MB region of the delay slot, with word number `index` in it
(43_branch_jump.md R351). -/
def jumpGoal (s : State) (index : Index26) : Word :=
  BitVec.ofNat 32 ((s.getPC + 4).toNat / 2 ^ 28 * 2 ^ 28 + index.toNat * 4)

/-- The effective address of a load or store with base `rs` and offset field `imm` (44_load_store.md R400). -/
def dataAddress (s : State) (rs : RegNum) (imm : Imm16) : Word := effectiveAddress (s.getReg rs) imm

/-- The byte of memory `k` bytes after `a` (20_memory.md R103, R130). -/
def byteFrom (s : State) (a : Word) (k : Nat) : Byte := Memory.readByte s.mem (a + BitVec.ofNat 32 k).toNat

/-- `i` is an LW whose effective address is the trigger word (20_memory.md R121). -/
def IsTrigger (i : Instr) (s : State) : Prop :=
  ∃ rs rt imm, i = .lw rs rt imm ∧ dataAddress s rs imm = s.cfg.oracleTrigger

/-- `i` is an LL. -/
def IsLl (i : Instr) : Prop := ∃ rs rt imm, i = .ll rs rt imm

end Sys2Proof.Machine
end

