-- ==== Sys2Proof/Certificates/Slice0/Obligations.lean ====
section
/-! DEFINITION. The statements for the provers. Each docstring says which rule of spec/ it formalises. -/

open Sys2Proof Sys2Proof.Machine

/-! Reset, registers and memory -/

/-- 10_state.md R80 to R83: the state a run starts from, for every instance, image, start pc and gas budget. -/
def Obligations.ResetState : Prop :=
  ∀ (c : Config) (inp : RunInputs) (m0 : Memory) (pc : Word) (gas0 : Nat),
    let s := State.start c inp m0 pc gas0
    (∀ x, ¬ InSlot c 32 x → Memory.readByte s.mem x = Memory.readByte m0 x) ∧
    (∀ x, (∀ p ∈ m0, p.1 ≠ x) → Memory.readByte m0 x = 0) ∧
    (∀ n : RegNum, n ≠ 0 → s.getReg n = Memory.mword m0 (slotAddr c n.toNat)) ∧ s.getReg 0 = 0 ∧
    s.getHI = Memory.mword m0 (slotAddr c 33) ∧ s.getLO = Memory.mword m0 (slotAddr c 34) ∧
    s.getPC = pc ∧ s.npc = pc + 4 ∧
    s.gas = gas0 ∧ s.steps = 0 ∧ s.status = .running ∧ s.cache = [] ∧ s.ds = false ∧ s.llbit = false ∧
    s.refused = none

/-- The invariant of the run, and a valid parameter set, hold at the model's reset state (its instance is the
model's choice, logs 2 to 8). -/
def Obligations.InvariantAtReset : Prop := Inv State.reset ∧ State.reset.cfg.wf = true

/-- 20_memory.md R105: a word stored and read back by bytes and halfwords, and what a byte store changes. -/
def Obligations.MixedWidthViews : Prop :=
  ∀ (s : State) (a v : Word), StoresPlain s.cfg a →
    (a.toNat % 4 = 0 → ∃ t, memWriteWord a v s = .ok t ∧
      memReadByte a t = .ok ((v.extractLsb 31 24).zeroExtend 32) ∧
      memReadByte (a + 1) t = .ok ((v.extractLsb 23 16).zeroExtend 32) ∧
      memReadByte (a + 2) t = .ok ((v.extractLsb 15 8).zeroExtend 32) ∧
      memReadByte (a + 3) t = .ok ((v.extractLsb 7 0).zeroExtend 32) ∧
      memReadHalf a t = .ok ((v.extractLsb 31 16).zeroExtend 32) ∧
      memReadHalf (a + 2) t = .ok ((v.extractLsb 15 0).zeroExtend 32)) ∧
    ∃ t, memWriteByte a v s = .ok t ∧
      ∀ x, Memory.readByte t.mem x = if x = a.toNat then v.extractLsb 7 0 else Memory.readByte s.mem x

/-- 10_state.md R54: register 0 reads 0 whatever its slot holds, and a write of it changes nothing. -/
def Obligations.RegisterZero : Prop :=
  ∀ (s : State) (v : Word),
    s.getReg 0 = 0 ∧ (s.setReg 0 v).getReg 0 = 0 ∧ s.setReg 0 v = s ∧
    (s.setMword s.cfg.regBase v).getReg 0 = 0 ∧ (s.setMword s.cfg.regBase v).mword s.cfg.regBase = v

/-- 10_state.md R55 to R58: each register is the word at its address, and a write of one register changes that
register alone. -/
def Obligations.RegisterFileView : Prop :=
  ∀ (s : State) (n : RegNum) (v : Word),
    (n ≠ 0 → s.getReg n = s.mword (s.cfg.regBase + BitVec.ofNat 32 (4 * n.toNat))) ∧
    s.getPC = s.mword (s.cfg.regBase + 128) ∧ s.getHI = s.mword (s.cfg.regBase + 132) ∧
    s.getLO = s.mword (s.cfg.regBase + 136) ∧
    (let t := s.setReg n v
     RegWritten s t n v ∧ t.getPC = s.getPC) ∧
    (let t := s.setPC v
     t.getPC = v ∧ (∀ k, t.getReg k = s.getReg k) ∧ t.getHI = s.getHI ∧ t.getLO = s.getLO) ∧
    (let t := s.setHI v
     t.getHI = v ∧ (∀ k, t.getReg k = s.getReg k) ∧ t.getPC = s.getPC ∧ t.getLO = s.getLO) ∧
    (let t := s.setLO v
     t.getLO = v ∧ (∀ k, t.getReg k = s.getReg k) ∧ t.getPC = s.getPC ∧ t.getHI = s.getHI)

/-! Decoding -/

/-- Decode and encode agree for every instruction of the opcode table, modelled group or not, with every operand at
every value, on words, on bytes and on the numbers the table uses; and an instance decodes the word of each
instruction it admits to that operation (30_encoding.md R150 to R161, R163, R167). -/
def Obligations.EncodeDecode : Prop :=
  (∀ (i : Instr) (rest : List Byte),
    decodeWord (encode i) = some i ∧ decodeBytes (wordBytes (encode i) ++ rest) = .ok (i, rest) ∧
    decodeTableWord 32 (encode i).toNat = some i) ∧
  ∀ (c : Config) (i : Instr), i.wf c = true → decode c (encode i) = .op (describe (encode i) i)

/-- 30_encoding.md R167: the must-be-zero check holds of exactly the words the encoder writes, and where it fails
`P_STRICT_FIELDS` decides: `ignore` gives the same instruction as if the field held its fixed value. -/
def Obligations.FieldChecks : Prop :=
  ∀ (c : Config) (w : Word) (i : Instr), decodeWord w = some i → c.presence i.group = .implemented →
    (encode i = w → decode c w = .op (describe w i)) ∧
    (encode i ≠ w →
      (c.strictFields = .ignore →
        decode c w = .op (describe w i) ∧ decode c (encode i) = .op (describe (encode i) i)) ∧
      (c.strictFields = .invalid → decode c w = .invalidOpcode) ∧
      (c.strictFields = .refuse → decode c w = .fieldsRefused))

/-- 30_encoding.md R165: the reserved encodings, listed, and no others decode to InvalidOpcode as reserved. -/
def Obligations.ReservedEncodings : Prop :=
  ∀ (c : Config) (w : Word),
    let op := (w.extractLsb 31 26).toNat
    let funct := (w.extractLsb 5 0).toNat
    let sel := (w.extractLsb 20 16).toNat
    let reserved :=
      op ∈ [0x18, 0x19, 0x1A, 0x1B, 0x1E, 0x27, 0x2C, 0x2D, 0x34, 0x37, 0x3B, 0x3C, 0x3F] ∨
      (op = 0 ∧ (funct = 0x05 ∨ funct = 0x0E ∨ (0x14 ≤ funct ∧ funct ≤ 0x17) ∨ (0x1C ≤ funct ∧ funct ≤ 0x1F) ∨
        funct = 0x28 ∨ funct = 0x29 ∨ (0x2C ≤ funct ∧ funct ≤ 0x2F) ∨ funct = 0x35 ∨ 0x37 ≤ funct)) ∨
      (op = 1 ∧ ((0x04 ≤ sel ∧ sel ≤ 0x07) ∨ sel = 0x0D ∨ sel = 0x0F ∨ (0x14 ≤ sel ∧ sel ≤ 0x1E))) ∨
      (op = 0x1C ∧ (funct = 0x03 ∨ (0x06 ≤ funct ∧ funct ≤ 0x1F) ∨ (0x22 ≤ funct ∧ funct ≤ 0x3E)))
    (decodeWord w = none ↔ reserved) ∧ (reserved → decode c w = .invalidOpcode)

/-- 30_encoding.md R166: the verdict of a group's parameter, and which groups have which parameter (R164, R7). -/
def Obligations.GroupVerdicts : Prop :=
  ∀ (c : Config) (w : Word) (i : Instr), decodeWord w = some i →
    (c.presence i.group = .implemented → fieldsOK w i.mnemonic = true →
      decode c w = .op (describe w i)) ∧
    (c.presence i.group = .invalid → decode c w = .invalidOpcode) ∧
    (c.presence i.group = .unknown → decode c w = .groupUnknown i.group) ∧
    (i.group = .core → c.presence i.group = .implemented) ∧
    (i.group ∈ [.syscall, .brk, .trap, .cop, .ase, .r2] → c.presence i.group ≠ .implemented)

/-- Words written out from the spec's own encodings decode to the instructions they stand for (the examples of
41_alu.md, 42_muldiv.md, 43_branch_jump.md, 44_load_store.md, 45_system.md; 30_encoding.md R157 to R160). -/
def Obligations.DecodesSpecWords : Prop :=
  decodeWord 0x00851020 = some (.add 4 5 2) ∧ decodeWord 0x27BDFFF0 = some (.addiu 29 29 0xFFF0) ∧
  decodeWord 0x00041103 = some (.sra 4 2 4) ∧ decodeWord 0x00A41004 = some (.sllv 5 4 2) ∧
  decodeWord 0x3C011234 = some (.lui 1 0x1234) ∧ decodeWord 0x0085001A = some (.div 4 5) ∧
  decodeWord 0x00001010 = some (.mfhi 2) ∧ decodeWord 0x70851002 = some (.mul 4 5 2) ∧
  decodeWord 0x70821020 = some (.clz 4 2) ∧ decodeWord 0x10850003 = some (.beq 4 5 3) ∧
  decodeWord 0x04920003 = some (.bltzall 4 3) ∧ decodeWord 0x0C000408 = some (.jal 0x408) ∧
  decodeWord 0x03E00008 = some (.jr 31) ∧ decodeWord 0x80820001 = some (.lb 4 2 1) ∧
  decodeWord 0xAC820004 = some (.sw 4 2 4) ∧ decodeWord 0xE0820000 = some (.sc 4 2 0) ∧
  decodeWord 0x0000000F = some (.sync 0) ∧ decodeWord 0x00850034 = some (.teq 4 5 0 0)

/-- 30_encoding.md R168: NOP, SSNOP and EHB are SLLs to register 0 and only advance the pair; the stype of SYNC
has no effect. -/
def Obligations.NoOpForms : Prop :=
  decodeWord 0x00000000 = some (.sll 0 0 0) ∧ decodeWord 0x00000040 = some (.sll 0 0 1) ∧
  decodeWord 0x000000C0 = some (.sll 0 0 3) ∧
  ∀ (s : State) (sa stype : BitVec 5), Completes (.sll 0 0 sa) s (RegEffect s 0 0) ∧
    exec (.sync stype) s = exec (.sync 0) s

/-- The operand forms of 30_encoding.md R155 and the effective address of 44_load_store.md R400, as numbers; and the
raw fields a decoded operation carries beside its mnemonic, with the word itself (30_encoding.md R150, R163). -/
def Obligations.OperandForms : Prop :=
  (∀ (s : State) (imm : Imm16) (index : Index26) (sa : BitVec 5) (r : Word),
    (simm imm).toInt = imm.toInt ∧ (zimm imm).toNat = imm.toNat ∧ (uimm imm).toNat = imm.toNat * 2 ^ 16 ∧
    branchTarget s.getPC imm = branchGoal s imm ∧ jumpTarget s.getPC index = jumpGoal s index ∧
    shamt sa = sa.toNat ∧ vshamt r = r.toNat % 32 ∧
    effectiveAddress r imm = BitVec.ofInt 32 (r.toNat + imm.toInt)) ∧
  ∀ (w : Word) (i : Instr),
    let o := describe w i
    o.instr = i ∧ o.word = w ∧
    o.rs.toNat = w.toNat / 2 ^ 21 % 2 ^ 5 ∧ o.rt.toNat = w.toNat / 2 ^ 16 % 2 ^ 5 ∧
    o.rd.toNat = w.toNat / 2 ^ 11 % 2 ^ 5 ∧ o.sa.toNat = w.toNat / 2 ^ 6 % 2 ^ 5 ∧
    o.funct.toNat = w.toNat % 2 ^ 6 ∧ o.imm.toNat = w.toNat % 2 ^ 16 ∧ o.index.toNat = w.toNat % 2 ^ 26

/-! The step -/

/-- A step runs the decoded instruction: with the word at the pc decoding to `i`, no refused control transfer in a
delay slot and gas enough, the step is `exec i` on the charged state, counted and checked for the halt. -/
def Obligations.StepRunsDecoded : Prop :=
  ∀ (s : State) (w : Word) (i : Instr), Fetches s w → decode s.cfg w = .op (describe w i) → ¬ CtRefused i s →
    s.cfg.gasCost i.mnemonic ≤ s.gas → step s = ranStep i (s.cfg.gasCost i.mnemonic) s

/-- 40_step_cycle.md R201: the budget check at the loop head, and that no more than MAX_STEPS steps commit. -/
def Obligations.BudgetCheck : Prop :=
  (∀ s : State, s.status = .running → s.refused = none → s.steps = s.inputs.maxSteps →
    step s = .next { s with status := .budget }) ∧
  (∀ (c : Config) (inp : RunInputs) (m0 : Memory) (pc : Word) (gas0 : Nat), inp.maxSteps = 0 →
    run c inp m0 pc gas0 = ({ State.start c inp m0 pc gas0 with status := .budget }, [])) ∧
  ∀ s t : State, s.steps ≤ s.inputs.maxSteps → step s = .next t →
    t.inputs = s.inputs ∧ t.steps ≤ t.inputs.maxSteps

/-- 40_step_cycle.md R203: a word that decodes to InvalidOpcode ends the run with nothing committed and no gas
charged; a word that decodes to a refusal is refused. -/
def Obligations.DecodeFailures : Prop :=
  ∀ (s : State) (w : Word), Fetches s w →
    (decode s.cfg w = .invalidOpcode → step s = .next (errorState (.invalidOpcode w) s)) ∧
    (∀ g, decode s.cfg w = .groupUnknown g → step s = .refused (.groupUnknown g)) ∧
    (decode s.cfg w = .fieldsRefused → step s = .refused .fields)

/-- 40_step_cycle.md R204: a control transfer in a delay slot is refused before the charge, or runs by the
ordinary rules, as `P_CT_IN_DS` says; no other instruction there is refused for it. -/
def Obligations.CtInDelaySlot : Prop :=
  ∀ (s : State) (w : Word) (i : Instr), Fetches s w → decode s.cfg w = .op (describe w i) → s.ds = true →
    (i.isCT = true → s.cfg.ctInDs = .refuse → step s = .refused .ctInDs) ∧
    (i.isCT = false ∨ s.cfg.ctInDs = .pair →
      (s.gas < s.cfg.gasCost i.mnemonic → step s = .next (errorState .outOfGas s)) ∧
      (s.cfg.gasCost i.mnemonic ≤ s.gas → step s = ranStep i (s.cfg.gasCost i.mnemonic) s))

/-- 40_step_cycle.md R205: the charge, exactly once and before the effects; a charge that exceeds the gas leaves it
and commits nothing, one that equals it leaves 0. -/
def Obligations.GasCharge : Prop :=
  ∀ (s : State) (w : Word) (i : Instr), Fetches s w → decode s.cfg w = .op (describe w i) → ¬ CtRefused i s →
    (s.gas < s.cfg.gasCost i.mnemonic → step s = .next (errorState .outOfGas s)) ∧
    (s.cfg.gasCost i.mnemonic ≤ s.gas → ∀ t, step s = .next t → t.gas = s.gas - s.cfg.gasCost i.mnemonic)

/-- 40_step_cycle.md R207: an error of the instruction's own rule leaves the start state with only `gas` at its
charged value, and is one of the three execute errors. -/
def Obligations.ExecuteErrors : Prop :=
  ∀ (s t : State) (w : Word) (i : Instr) (e : EngineError), Fetches s w → decode s.cfg w = .op (describe w i) →
    s.cfg.gasCost i.mnemonic ≤ s.gas → step s = .next t → t.status = .error e →
    t = { s with gas := s.gas - s.cfg.gasCost i.mnemonic, status := .error e } ∧
    ((∃ pc, e = .arithmeticOverflow pc) ∨ (∃ a, e = .unalignedAccess a) ∨ ∃ key, e = .oracleMiss key)

/-- 40_step_cycle.md R211, R212: a committed step is counted once, then the halting predicate decides, and a step that
does not commit is not counted; R210, R214 and 00_scope.md R14: each committed step is shown to the observer if one is
supplied, with the value of `steps` before the increment, and no other step is; 10_state.md R83: a run starts running.
The predicate is the parameter `P_HALTED`, with the spec's decided default or another, left free: that form is the
model's reading of R212 (log 12). -/
def Obligations.CountAndHalt : Prop :=
  (∀ s t : State, step s = .next t →
    (t.status = .running ∨ t.status = .halted →
      t.steps = s.steps + 1 ∧ (t.status = .halted ↔ haltedNow t = true) ∧
      observation s t = if s.inputs.observer then some ⟨s.steps, regSnapshot t, t.mem⟩ else none) ∧
    (t.status = .budget ∨ (∃ e, t.status = .error e) → t.steps = s.steps ∧ observation s t = none)) ∧
  (∀ s : State,
    (s.cfg.halting = .sentinel → (haltedNow s = true ↔ s.mword s.cfg.haltSentinel ≠ s.cfg.haltPending)) ∧
    (∀ n, s.cfg.halting = .other n → haltedNow s = Config.haltedBy n s.mem) ∧
    (success s = true ↔ s.mword s.cfg.resultA &&& s.mword s.cfg.resultB = 1)) ∧
  ∀ (c : Config) (inp : RunInputs) (m0 : Memory) (pc : Word) (gas0 : Nat),
    (State.start c inp m0 pc gas0).status = .running

/-- 60_exceptions.md R522 and 10_state.md R74: a run that is over, or a state with the refusal mark, has no next
step; 40_step_cycle.md R213 and 60_exceptions.md R506: what the outcome port carries, of an error its kind alone (that a
step then faults as `runEnded` is the model's choice, log 14). -/
def Obligations.RunIsOver : Prop :=
  ∀ s : State,
    (∀ q, s.refused = some q → step s = .refused .alreadyRefused) ∧
    (s.refused = none → s.status ≠ .running → step s = .fault .runEnded) ∧
    (s.status = .halted ∨ s.status = .budget → outcome s = some (s.gas, none)) ∧
    (∀ e, s.status = .error e → outcome s = some (s.gas, some e.kind)) ∧
    (s.status = .running → outcome s = none)

/-- 40_step_cycle.md R217: gas conservation over any number of steps from any state. -/
def Obligations.GasConservation : Prop :=
  ∀ (k : Nat) (s t : State), stepsFrom k s = .next t → t.gas + totalCharge k s = s.gas

/-- 40_step_cycle.md R220: out of gas at the first step. -/
def Obligations.OutOfGasAtFirstStep : Prop :=
  ∀ (c : Config) (inp : RunInputs) (m0 : Memory) (pc : Word) (gas0 : Nat) (i : Instr),
    1 ≤ inp.maxSteps → pc.toNat % 4 = 0 →
    let w := Memory.mword (State.start c inp m0 pc gas0).mem pc
    decode c w = .op (describe w i) → gas0 < c.gasCost i.mnemonic →
    run c inp m0 pc gas0 = (errorState .outOfGas (State.start c inp m0 pc gas0), []) ∧
    outcome (run c inp m0 pc gas0).1 = some (gas0, some .outOfGas) ∧ (run c inp m0 pc gas0).1.steps = 0

/-- 40_step_cycle.md R219: after a control transfer at `P` outside a delay slot the next instruction is the one at
`P + 4`, unless the delay slot is annulled, and control reaches the chosen address on the step after that. -/
def Obligations.DelaySlot : Prop :=
  ∀ (i : Instr) (s t : State), i.isCT = true → s.ds = false → s.npc = s.getPC + 4 → s.status = .running →
    exec i s = .next t →
    (t.ds = true → t.getPC = s.getPC + 4) ∧
    (t.ds = false → t.getPC = s.getPC + 8 ∧ t.npc = s.getPC + 12 ∧ i.group = .likely) ∧
    ∀ (j : Instr) (u : State), j.isCT = false → exec j t = .next u → u.status = .running →
      u.getPC = t.npc ∧ u.npc = t.npc + 4 ∧ u.ds = false

/-- 43_branch_jump.md R375: only JR and JALR can produce a misaligned target, they raise nothing themselves, and
the step that would fetch it raises UnalignedAccess with no gas charged. -/
def Obligations.MisalignedTargets : Prop :=
  (∀ (i : Instr) (s t : State), i.mnemonic ≠ .jr → i.mnemonic ≠ .jalr → exec i s = .next t →
    s.getPC.toNat % 4 = 0 → s.npc.toNat % 4 = 0 → t.getPC.toNat % 4 = 0 ∧ t.npc.toNat % 4 = 0) ∧
  (∀ (s : State) (rs rd : RegNum),
    Completes (.jr rs) s (fun t => t.getPC = s.npc ∧ t.npc = s.getReg rs) ∧
    Completes (.jalr rs rd) s (fun t => t.getPC = s.npc ∧ t.npc = s.getReg rs)) ∧
  ∀ s : State, Live s → s.getPC.toNat % 4 ≠ 0 → step s = .next (errorState (.unalignedAccess s.getPC) s)

/-- Every step keeps the invariant: the memory's canonical form, the sequential pair outside a delay slot
(70_reset_and_hazards.md R555), the cache of provider answers (10_state.md R71); it changes no parameter and no
run input. -/
def Obligations.StepKeepsInvariant : Prop :=
  ∀ s t : State, Inv s → step s = .next t → Inv t ∧ t.cfg = s.cfg ∧ t.inputs = s.inputs

/-- 10_state.md R54 over the whole machine: under a valid parameter set no step changes the word at `P_REG_BASE`,
the slot of register 0. -/
def Obligations.RegisterZeroWordKept : Prop :=
  ∀ s t : State, s.cfg.wf = true → step s = .next t → t.mword s.cfg.regBase = s.mword s.cfg.regBase

/-- 20_memory.md R129, R118: under a valid parameter set only an LW of the trigger changes the oracle cache, a word
of the window or the trigger word. -/
def Obligations.OracleWindowKept : Prop :=
  ∀ (i : Instr) (s t : State), s.cfg.wf = true → exec i s = .next t → ¬ IsTrigger i s →
    t.cache = s.cache ∧ t.mword s.cfg.oracleTrigger = s.mword s.cfg.oracleTrigger ∧
    ∀ k, k < s.cfg.oracleWinWords →
      t.mword (s.cfg.oracleWinBase + BitVec.ofNat 32 (4 * k)) =
        s.mword (s.cfg.oracleWinBase + BitVec.ofNat 32 (4 * k))

/-- 10_state.md R73: LL alone sets `llbit`, and nothing clears it. -/
def Obligations.LlbitWriters : Prop :=
  ∀ (i : Instr) (s t : State), exec i s = .next t →
    (s.llbit = true → t.llbit = true) ∧ (¬ IsLl i → t.llbit = s.llbit)

/-- 10_state.md R59, R67: with register slots closed to data accesses, no instruction outside the table's list
changes HI or LO. -/
def Obligations.HiLoWriters : Prop :=
  ∀ (i : Instr) (s t : State), s.cfg.wf = true → s.cfg.regfileData = .refuse → exec i s = .next t →
    (i.mnemonic ∉ [.mult, .multu, .div, .divu, .madd, .maddu, .msub, .msubu, .mul, .mthi] →
      t.getHI = s.getHI) ∧
    (i.mnemonic ∉ [.mult, .multu, .div, .divu, .madd, .maddu, .msub, .msubu, .mul, .mtlo] →
      t.getLO = s.getLO)

/-! The integer ALU -/

/-- 41_alu.md R251, R253, R255: ADD, SUB and ADDI. -/
def Obligations.AddSubOverflow : Prop :=
  RowIs 0xFC00003F 0x00000020 (ZeroAt 0x7C0) .core (rowRsRtRd Instr.add) ∧
  RowIs 0xFC00003F 0x00000022 (ZeroAt 0x7C0) .core (rowRsRtRd Instr.sub) ∧
  RowIs 0xFC000000 0x20000000 NoFixed .core (rowRsRtImm Instr.addi) ∧
  ∀ (s : State) (rs rt rd : RegNum) (imm : Imm16),
    SignedResult (.add rs rt rd) s rd ((s.getReg rs).toInt + (s.getReg rt).toInt) ∧
    SignedResult (.sub rs rt rd) s rd ((s.getReg rs).toInt - (s.getReg rt).toInt) ∧
    SignedResult (.addi rs rt imm) s rt ((s.getReg rs).toInt + imm.toInt)

/-- 41_alu.md R252, R254, R256: ADDU, SUBU and ADDIU wrap. -/
def Obligations.WrappingAddSub : Prop :=
  RowIs 0xFC00003F 0x00000021 (ZeroAt 0x7C0) .core (rowRsRtRd Instr.addu) ∧
  RowIs 0xFC00003F 0x00000023 (ZeroAt 0x7C0) .core (rowRsRtRd Instr.subu) ∧
  RowIs 0xFC000000 0x24000000 NoFixed .core (rowRsRtImm Instr.addiu) ∧
  ∀ (s : State) (rs rt rd : RegNum) (imm : Imm16),
    Completes (.addu rs rt rd) s
      (RegEffect s rd (BitVec.ofNat 32 ((s.getReg rs).toNat + (s.getReg rt).toNat))) ∧
    Completes (.subu rs rt rd) s
      (RegEffect s rd (BitVec.ofInt 32 ((s.getReg rs).toNat - (s.getReg rt).toNat))) ∧
    Completes (.addiu rs rt imm) s (RegEffect s rt (BitVec.ofInt 32 ((s.getReg rs).toNat + imm.toInt)))

/-- 41_alu.md R257 to R260: SLT, SLTU, SLTI and SLTIU; the immediate of SLTIU is sign-extended, then compared
unsigned. -/
def Obligations.SetOnLess : Prop :=
  RowIs 0xFC00003F 0x0000002A (ZeroAt 0x7C0) .core (rowRsRtRd Instr.slt) ∧
  RowIs 0xFC00003F 0x0000002B (ZeroAt 0x7C0) .core (rowRsRtRd Instr.sltu) ∧
  RowIs 0xFC000000 0x28000000 NoFixed .core (rowRsRtImm Instr.slti) ∧
  RowIs 0xFC000000 0x2C000000 NoFixed .core (rowRsRtImm Instr.sltiu) ∧
  ∀ (s : State) (rs rt rd : RegNum) (imm : Imm16),
    Completes (.slt rs rt rd) s
      (RegEffect s rd (if (s.getReg rs).toInt < (s.getReg rt).toInt then 1 else 0)) ∧
    Completes (.sltu rs rt rd) s
      (RegEffect s rd (if (s.getReg rs).toNat < (s.getReg rt).toNat then 1 else 0)) ∧
    Completes (.slti rs rt imm) s (RegEffect s rt (if (s.getReg rs).toInt < imm.toInt then 1 else 0)) ∧
    Completes (.sltiu rs rt imm) s
      (RegEffect s rt (if ((s.getReg rs).toNat : Int) < imm.toInt % 2 ^ 32 then 1 else 0))

/-- 41_alu.md R261 to R264: AND, OR, XOR and NOR, bit by bit. -/
def Obligations.BitwiseRegister : Prop :=
  RowIs 0xFC00003F 0x00000024 (ZeroAt 0x7C0) .core (rowRsRtRd Instr.and) ∧
  RowIs 0xFC00003F 0x00000025 (ZeroAt 0x7C0) .core (rowRsRtRd Instr.or) ∧
  RowIs 0xFC00003F 0x00000026 (ZeroAt 0x7C0) .core (rowRsRtRd Instr.xor) ∧
  RowIs 0xFC00003F 0x00000027 (ZeroAt 0x7C0) .core (rowRsRtRd Instr.nor) ∧
  ∀ (s : State) (rs rt rd : RegNum),
    let a := s.getReg rs
    let b := s.getReg rt
    (∃ v, Completes (.and rs rt rd) s (RegEffect s rd v) ∧
      ∀ k, k < 32 → v.getLsbD k = (a.getLsbD k && b.getLsbD k)) ∧
    (∃ v, Completes (.or rs rt rd) s (RegEffect s rd v) ∧
      ∀ k, k < 32 → v.getLsbD k = (a.getLsbD k || b.getLsbD k)) ∧
    (∃ v, Completes (.xor rs rt rd) s (RegEffect s rd v) ∧
      ∀ k, k < 32 → v.getLsbD k = Bool.xor (a.getLsbD k) (b.getLsbD k)) ∧
    (∃ v, Completes (.nor rs rt rd) s (RegEffect s rd v) ∧
      ∀ k, k < 32 → v.getLsbD k = !(a.getLsbD k || b.getLsbD k))

/-- 41_alu.md R265 to R268: ANDI, ORI and XORI with the zero-extended immediate, and LUI. -/
def Obligations.BitwiseImmediate : Prop :=
  RowIs 0xFC000000 0x30000000 NoFixed .core (rowRsRtImm Instr.andi) ∧
  RowIs 0xFC000000 0x34000000 NoFixed .core (rowRsRtImm Instr.ori) ∧
  RowIs 0xFC000000 0x38000000 NoFixed .core (rowRsRtImm Instr.xori) ∧
  RowIs 0xFC000000 0x3C000000 (ZeroAt 0x03E00000) .core (rowRtImm Instr.lui) ∧
  ∀ (s : State) (rs rt : RegNum) (imm : Imm16),
    Completes (.andi rs rt imm) s (RegEffect s rt (s.getReg rs &&& BitVec.ofNat 32 imm.toNat)) ∧
    Completes (.ori rs rt imm) s (RegEffect s rt (s.getReg rs ||| BitVec.ofNat 32 imm.toNat)) ∧
    Completes (.xori rs rt imm) s (RegEffect s rt (s.getReg rs ^^^ BitVec.ofNat 32 imm.toNat)) ∧
    Completes (.lui rt imm) s (RegEffect s rt (BitVec.ofNat 32 (imm.toNat * 2 ^ 16)))

/-- 41_alu.md R269 to R274: the shifts, as multiplication and division by a power of two (R279); only the low five
bits of a register amount count. -/
def Obligations.Shifts : Prop :=
  RowIs 0xFC00003F 0x00000000 (ZeroAt 0x03E00000) .core (rowRtRdSa Instr.sll) ∧
  RowIs 0xFC00003F 0x00000002 (ZeroAt 0x03E00000) .core (rowRtRdSa Instr.srl) ∧
  RowIs 0xFC00003F 0x00000003 (ZeroAt 0x03E00000) .core (rowRtRdSa Instr.sra) ∧
  RowIs 0xFC00003F 0x00000004 (ZeroAt 0x7C0) .core (rowRsRtRd Instr.sllv) ∧
  RowIs 0xFC00003F 0x00000006 (ZeroAt 0x7C0) .core (rowRsRtRd Instr.srlv) ∧
  RowIs 0xFC00003F 0x00000007 (ZeroAt 0x7C0) .core (rowRsRtRd Instr.srav) ∧
  ∀ (s : State) (rs rt rd : RegNum) (sa : BitVec 5),
    let x := s.getReg rt
    let v := (s.getReg rs).toNat % 32
    Completes (.sll rt rd sa) s (RegEffect s rd (BitVec.ofNat 32 (x.toNat * 2 ^ sa.toNat))) ∧
    Completes (.srl rt rd sa) s (RegEffect s rd (BitVec.ofNat 32 (x.toNat / 2 ^ sa.toNat))) ∧
    Completes (.sra rt rd sa) s (RegEffect s rd (BitVec.ofInt 32 (x.toInt / 2 ^ sa.toNat))) ∧
    Completes (.sllv rs rt rd) s (RegEffect s rd (BitVec.ofNat 32 (x.toNat * 2 ^ v))) ∧
    Completes (.srlv rs rt rd) s (RegEffect s rd (BitVec.ofNat 32 (x.toNat / 2 ^ v))) ∧
    Completes (.srav rs rt rd) s (RegEffect s rd (BitVec.ofInt 32 (x.toInt / 2 ^ v)))

/-- 41_alu.md R275, R276: MOVZ and MOVN. Where the condition fails nothing is written (register 0 stands for no
destination). -/
def Obligations.ConditionalMoves : Prop :=
  RowIs 0xFC00003F 0x0000000A (ZeroAt 0x7C0) .cmov (rowRsRtRd Instr.movz) ∧
  RowIs 0xFC00003F 0x0000000B (ZeroAt 0x7C0) .cmov (rowRsRtRd Instr.movn) ∧
  ∀ (s : State) (rs rt rd : RegNum),
    Completes (.movz rs rt rd) s (RegEffect s (if s.getReg rt = 0 then rd else 0) (s.getReg rs)) ∧
    Completes (.movn rs rt rd) s (RegEffect s (if s.getReg rt = 0 then 0 else rd) (s.getReg rs))

/-- 41_alu.md R277, R278: CLZ and CLO count the leading run of zeros or ones, 0 to 32. -/
def Obligations.LeadingCounts : Prop :=
  RowIs 0xFC00003F 0x70000020 (fun w => w.extractLsb 10 6 = 0#5 ∧ w.extractLsb 20 16 = w.extractLsb 15 11)
    .clz (rowRsRd Instr.clz) ∧
  RowIs 0xFC00003F 0x70000021 (fun w => w.extractLsb 10 6 = 0#5 ∧ w.extractLsb 20 16 = w.extractLsb 15 11)
    .clz (rowRsRd Instr.clo) ∧
  ∀ (s : State) (rs rd : RegNum),
    let x := s.getReg rs
    (∃ n, n ≤ 32 ∧ Completes (.clz rs rd) s (RegEffect s rd (BitVec.ofNat 32 n)) ∧
      (∀ k, k < n → x.getLsbD (31 - k) = false) ∧ (n < 32 → x.getLsbD (31 - n) = true)) ∧
    ∃ n, n ≤ 32 ∧ Completes (.clo rs rd) s (RegEffect s rd (BitVec.ofNat 32 n)) ∧
      (∀ k, k < n → x.getLsbD (31 - k) = true) ∧ (n < 32 → x.getLsbD (31 - n) = false)

/-! Multiply, divide, HI and LO -/

/-- 42_muldiv.md R301, R302: MULT and MULTU put the exact product in HI and LO (the laws of R314). -/
def Obligations.Multiply : Prop :=
  RowIs 0xFC00003F 0x00000018 (ZeroAt 0xFFC0) .core (rowRsRt Instr.mult) ∧
  RowIs 0xFC00003F 0x00000019 (ZeroAt 0xFFC0) .core (rowRsRt Instr.multu) ∧
  ∀ (s : State) (rs rt : RegNum),
    (∃ hi lo, Completes (.mult rs rt) s (HiLoEffect s hi lo) ∧
      (hi ++ lo).toInt = (s.getReg rs).toInt * (s.getReg rt).toInt) ∧
    ∃ hi lo, Completes (.multu rs rt) s (HiLoEffect s hi lo) ∧
      hi.toNat * 2 ^ 32 + lo.toNat = (s.getReg rs).toNat * (s.getReg rt).toNat

/-- 42_muldiv.md R303: DIV puts the quotient, rounded toward zero, in LO and the remainder in HI; the two open
cases follow the free values `P_DIV0` and `P_DIV_OVF`, whatever they are. -/
def Obligations.DivideSigned : Prop :=
  RowIs 0xFC00003F 0x0000001A (ZeroAt 0xFFC0) .core (rowRsRt Instr.div) ∧
  ∀ (s : State) (rs rt : RegNum),
    let a := (s.getReg rs).toInt
    let b := (s.getReg rt).toInt
    (b = 0 →
      let p := Config.div0 true (s.getReg rs) s.getHI s.getLO
      Completes (.div rs rt) s (HiLoEffect s p.1 p.2)) ∧
    (a = -2 ^ 31 → b = -1 →
      let p := Config.divOvf s.getHI s.getLO
      Completes (.div rs rt) s (HiLoEffect s p.1 p.2)) ∧
    (b ≠ 0 → ¬ (a = -2 ^ 31 ∧ b = -1) → ∃ q r : Word,
      Completes (.div rs rt) s (HiLoEffect s r q) ∧ a = q.toInt * b + r.toInt ∧
      |r.toInt| < |b| ∧ (r.toInt ≠ 0 → r.toInt.sign = a.sign))

/-- 42_muldiv.md R304: DIVU puts the quotient in LO and the remainder in HI; division by zero follows the free value
`P_DIV0`, whatever it is. -/
def Obligations.DivideUnsigned : Prop :=
  RowIs 0xFC00003F 0x0000001B (ZeroAt 0xFFC0) .core (rowRsRt Instr.divu) ∧
  ∀ (s : State) (rs rt : RegNum),
    let a := (s.getReg rs).toNat
    let b := (s.getReg rt).toNat
    (b = 0 →
      let p := Config.div0 false (s.getReg rs) s.getHI s.getLO
      Completes (.divu rs rt) s (HiLoEffect s p.1 p.2)) ∧
    (b ≠ 0 → ∃ q r : Word,
      Completes (.divu rs rt) s (HiLoEffect s r q) ∧ a = q.toNat * b + r.toNat ∧ r.toNat < b)

/-- 42_muldiv.md R305 to R308: the moves from and to HI and LO. -/
def Obligations.HiLoMoves : Prop :=
  RowIs 0xFC00003F 0x00000010 (ZeroAt 0x03FF07C0) .core (rowRd Instr.mfhi) ∧
  RowIs 0xFC00003F 0x00000012 (ZeroAt 0x03FF07C0) .core (rowRd Instr.mflo) ∧
  RowIs 0xFC00003F 0x00000011 (ZeroAt 0x001FFFC0) .core (rowRs Instr.mthi) ∧
  RowIs 0xFC00003F 0x00000013 (ZeroAt 0x001FFFC0) .core (rowRs Instr.mtlo) ∧
  ∀ (s : State) (rs rd : RegNum),
    Completes (.mfhi rd) s (RegEffect s rd s.getHI) ∧
    Completes (.mflo rd) s (RegEffect s rd s.getLO) ∧
    Completes (.mthi rs) s (HiLoEffect s (s.getReg rs) s.getLO) ∧
    Completes (.mtlo rs) s (HiLoEffect s s.getHI (s.getReg rs))

/-- 42_muldiv.md R309: MUL writes the low word of the product; HI and LO follow the free value `P_MUL_HILO`,
whatever it is. -/
def Obligations.MultiplyToRegister : Prop :=
  RowIs 0xFC00003F 0x70000002 (ZeroAt 0x7C0) .mul (rowRsRtRd Instr.mul) ∧
  ∀ (s : State) (rs rt rd : RegNum),
    let v := BitVec.ofInt 32 ((s.getReg rs).toInt * (s.getReg rt).toInt)
    let p := Config.mulHiLo (s.getReg rs) (s.getReg rt) s.getHI s.getLO
    Completes (.mul rs rt rd) s fun t =>
      HiddenKept s t ∧ Advanced s t ∧ (∀ k, t.getReg k = if k = rd ∧ rd ≠ 0 then v else s.getReg k) ∧
      t.getHI = p.1 ∧ t.getLO = p.2 ∧ BytesKept s t (fun x => RegBytes s.cfg rd x ∨ HiLoBytes s.cfg x)

/-- 42_muldiv.md R310 to R313: MADD, MADDU, MSUB and MSUBU accumulate mod 2^64 into HI and LO. -/
def Obligations.MultiplyAccumulate : Prop :=
  RowIs 0xFC00003F 0x70000000 (ZeroAt 0xFFC0) .madd (rowRsRt Instr.madd) ∧
  RowIs 0xFC00003F 0x70000001 (ZeroAt 0xFFC0) .madd (rowRsRt Instr.maddu) ∧
  RowIs 0xFC00003F 0x70000004 (ZeroAt 0xFFC0) .madd (rowRsRt Instr.msub) ∧
  RowIs 0xFC00003F 0x70000005 (ZeroAt 0xFFC0) .madd (rowRsRt Instr.msubu) ∧
  ∀ (s : State) (rs rt : RegNum),
    let acc : Int := s.getHI.toNat * 2 ^ 32 + s.getLO.toNat
    let sp : Int := (s.getReg rs).toInt * (s.getReg rt).toInt
    let up : Int := (s.getReg rs).toNat * (s.getReg rt).toNat
    (∃ hi lo, Completes (.madd rs rt) s (HiLoEffect s hi lo) ∧ hi ++ lo = BitVec.ofInt 64 (acc + sp)) ∧
    (∃ hi lo, Completes (.maddu rs rt) s (HiLoEffect s hi lo) ∧ hi ++ lo = BitVec.ofInt 64 (acc + up)) ∧
    (∃ hi lo, Completes (.msub rs rt) s (HiLoEffect s hi lo) ∧ hi ++ lo = BitVec.ofInt 64 (acc - sp)) ∧
    ∃ hi lo, Completes (.msubu rs rt) s (HiLoEffect s hi lo) ∧ hi ++ lo = BitVec.ofInt 64 (acc - up)

/-! Branches and jumps -/

/-- 43_branch_jump.md R354 to R359: the conditional branches, with the target of R350. -/
def Obligations.ConditionalBranches : Prop :=
  RowIs 0xFC000000 0x10000000 NoFixed .core (rowRsRtImm Instr.beq) ∧
  RowIs 0xFC000000 0x14000000 NoFixed .core (rowRsRtImm Instr.bne) ∧
  RowIs 0xFC000000 0x18000000 (ZeroAt 0x001F0000) .core (rowRsImm Instr.blez) ∧
  RowIs 0xFC000000 0x1C000000 (ZeroAt 0x001F0000) .core (rowRsImm Instr.bgtz) ∧
  RowIs 0xFC1F0000 0x04000000 NoFixed .core (rowRsImm Instr.bltz) ∧
  RowIs 0xFC1F0000 0x04010000 NoFixed .core (rowRsImm Instr.bgez) ∧
  ∀ (s : State) (rs rt : RegNum) (imm : Imm16),
    let a := (s.getReg rs).toInt
    let T := branchGoal s imm
    Completes (.beq rs rt imm) s (BranchEffect s 0 (s.getReg rs == s.getReg rt) T) ∧
    Completes (.bne rs rt imm) s (BranchEffect s 0 (s.getReg rs != s.getReg rt) T) ∧
    Completes (.blez rs imm) s (BranchEffect s 0 (decide (a ≤ 0)) T) ∧
    Completes (.bgtz rs imm) s (BranchEffect s 0 (decide (a > 0)) T) ∧
    Completes (.bltz rs imm) s (BranchEffect s 0 (decide (a < 0)) T) ∧
    Completes (.bgez rs imm) s (BranchEffect s 0 (decide (a ≥ 0)) T)

/-- 43_branch_jump.md R360, R361: BLTZAL and BGEZAL link whether or not they are taken, and read `x[rs]` before the
link. -/
def Obligations.LinkingBranches : Prop :=
  RowIs 0xFC1F0000 0x04100000 NoFixed .core (rowRsImm Instr.bltzal) ∧
  RowIs 0xFC1F0000 0x04110000 NoFixed .core (rowRsImm Instr.bgezal) ∧
  ∀ (s : State) (rs : RegNum) (imm : Imm16),
    let a := (s.getReg rs).toInt
    Completes (.bltzal rs imm) s (BranchEffect s 31 (decide (a < 0)) (branchGoal s imm)) ∧
    Completes (.bgezal rs imm) s (BranchEffect s 31 (decide (a ≥ 0)) (branchGoal s imm))

/-- 43_branch_jump.md R362 to R365: the jumps; JALR reads its target before the link. -/
def Obligations.Jumps : Prop :=
  RowIs 0xFC000000 0x08000000 NoFixed .core (rowIndex Instr.j) ∧
  RowIs 0xFC000000 0x0C000000 NoFixed .core (rowIndex Instr.jal) ∧
  RowIs 0xFC00003F 0x00000008 (ZeroAt 0x001FFFC0) .core (rowRs Instr.jr) ∧
  RowIs 0xFC00003F 0x00000009 (ZeroAt 0x001F07C0) .core (rowRsRd Instr.jalr) ∧
  ∀ (s : State) (index : Index26) (rs rd : RegNum),
    Completes (.j index) s (BranchEffect s 0 true (jumpGoal s index)) ∧
    Completes (.jal index) s (BranchEffect s 31 true (jumpGoal s index)) ∧
    Completes (.jr rs) s (BranchEffect s 0 true (s.getReg rs)) ∧
    Completes (.jalr rs rd) s (BranchEffect s rd true (s.getReg rs))

/-- 43_branch_jump.md R367 to R374 with R366: the branches-likely annul their delay slot when not taken, and the
linking ones link in both cases. -/
def Obligations.BranchesLikely : Prop :=
  RowIs 0xFC000000 0x50000000 NoFixed .likely (rowRsRtImm Instr.beql) ∧
  RowIs 0xFC000000 0x54000000 NoFixed .likely (rowRsRtImm Instr.bnel) ∧
  RowIs 0xFC000000 0x58000000 (ZeroAt 0x001F0000) .likely (rowRsImm Instr.blezl) ∧
  RowIs 0xFC000000 0x5C000000 (ZeroAt 0x001F0000) .likely (rowRsImm Instr.bgtzl) ∧
  RowIs 0xFC1F0000 0x04020000 NoFixed .likely (rowRsImm Instr.bltzl) ∧
  RowIs 0xFC1F0000 0x04030000 NoFixed .likely (rowRsImm Instr.bgezl) ∧
  RowIs 0xFC1F0000 0x04120000 NoFixed .likely (rowRsImm Instr.bltzall) ∧
  RowIs 0xFC1F0000 0x04130000 NoFixed .likely (rowRsImm Instr.bgezall) ∧
  ∀ (s : State) (rs rt : RegNum) (imm : Imm16),
    let a := (s.getReg rs).toInt
    let T := branchGoal s imm
    Completes (.beql rs rt imm) s (LikelyEffect s 0 (s.getReg rs == s.getReg rt) T) ∧
    Completes (.bnel rs rt imm) s (LikelyEffect s 0 (s.getReg rs != s.getReg rt) T) ∧
    Completes (.blezl rs imm) s (LikelyEffect s 0 (decide (a ≤ 0)) T) ∧
    Completes (.bgtzl rs imm) s (LikelyEffect s 0 (decide (a > 0)) T) ∧
    Completes (.bltzl rs imm) s (LikelyEffect s 0 (decide (a < 0)) T) ∧
    Completes (.bgezl rs imm) s (LikelyEffect s 0 (decide (a ≥ 0)) T) ∧
    Completes (.bltzall rs imm) s (LikelyEffect s 31 (decide (a < 0)) T) ∧
    Completes (.bgezall rs imm) s (LikelyEffect s 31 (decide (a ≥ 0)) T)

/-! Loads and stores -/

/-- 44_load_store.md R401 to R405 outside the reserved ranges: LB, LBU, LH, LHU and LW give the big-endian bytes at
the effective address, and change nothing but `x[rt]`. -/
def Obligations.Loads : Prop :=
  RowIs 0xFC000000 0x80000000 NoFixed .core (rowRsRtImm Instr.lb) ∧
  RowIs 0xFC000000 0x90000000 NoFixed .core (rowRsRtImm Instr.lbu) ∧
  RowIs 0xFC000000 0x84000000 NoFixed .core (rowRsRtImm Instr.lh) ∧
  RowIs 0xFC000000 0x94000000 NoFixed .core (rowRsRtImm Instr.lhu) ∧
  RowIs 0xFC000000 0x8C000000 NoFixed .core (rowRsRtImm Instr.lw) ∧
  ∀ (s : State) (rs rt : RegNum) (imm : Imm16),
    let ea := dataAddress s rs imm
    let m := byteFrom s ea
    LoadsPlain s.cfg ea →
    Completes (.lb rs rt imm) s (RegEffect s rt ((m 0).signExtend 32)) ∧
    Completes (.lbu rs rt imm) s (RegEffect s rt ((m 0).zeroExtend 32)) ∧
    (ea.toNat % 2 = 0 →
      Completes (.lh rs rt imm) s (RegEffect s rt ((m 0 ++ m 1).signExtend 32)) ∧
      Completes (.lhu rs rt imm) s (RegEffect s rt ((m 0 ++ m 1).zeroExtend 32))) ∧
    (ea.toNat % 4 = 0 → Completes (.lw rs rt imm) s (RegEffect s rt (m 0 ++ m 1 ++ m 2 ++ m 3)))

/-- 44_load_store.md R406 to R408 outside the reserved ranges: SB, SH and SW store the low bytes of `x[rt]`, the most
significant first, at the effective address, and change nothing else. -/
def Obligations.Stores : Prop :=
  RowIs 0xFC000000 0xA0000000 NoFixed .core (rowRsRtImm Instr.sb) ∧
  RowIs 0xFC000000 0xA4000000 NoFixed .core (rowRsRtImm Instr.sh) ∧
  RowIs 0xFC000000 0xAC000000 NoFixed .core (rowRsRtImm Instr.sw) ∧
  ∀ (s : State) (rs rt : RegNum) (imm : Imm16),
    let ea := dataAddress s rs imm
    let v := s.getReg rt
    s.cfg.wf = true → StoresPlain s.cfg ea →
    Completes (.sb rs rt imm) s (StoreEffect s ea 1 fun _ => byteAt v 3) ∧
    (ea.toNat % 2 = 0 → Completes (.sh rs rt imm) s (StoreEffect s ea 2 fun k => byteAt v (k + 2))) ∧
    (ea.toNat % 4 = 0 → Completes (.sw rs rt imm) s (StoreEffect s ea 4 fun k => byteAt v k))

/-- 20_memory.md R108, 60_exceptions.md R501: a word access at a misaligned address raises UnalignedAccess, before any
routing, and commits nothing. -/
def Obligations.MisalignedWordAccess : Prop :=
  ∀ (s : State) (rs rt : RegNum) (imm : Imm16),
    let ea := dataAddress s rs imm
    ea.toNat % 4 ≠ 0 →
    exec (.lw rs rt imm) s = .next (errorState (.unalignedAccess ea) s) ∧
    exec (.sw rs rt imm) s = .next (errorState (.unalignedAccess ea) s) ∧
    exec (.ll rs rt imm) s = .next (errorState (.unalignedAccess ea) s) ∧
    (s.llbit = true → exec (.sc rs rt imm) s = .next (errorState (.unalignedAccess ea) s))

/-- 20_memory.md R109 with R112 to R114 and R118: a halfword access at an odd address follows `P_HALF_ODD`, at plain
addresses, at register slots, at the trigger and in the window. -/
def Obligations.OddHalfword : Prop :=
  ∀ (s : State) (rs rt : RegNum) (imm : Imm16),
    let c := s.cfg
    let ea := dataAddress s rs imm
    let v := s.getReg rt
    let b := loadedByte s
    let low := fun k => byteAt v (k + 2)
    let loads := fun h : BitVec 16 =>
      Completes (.lh rs rt imm) s (RegEffect s rt (h.signExtend 32)) ∧
      Completes (.lhu rs rt imm) s (RegEffect s rt (h.zeroExtend 32))
    let stores := fun post : State → Prop => Completes (.sh rs rt imm) s post
    let loadsStop := fun o : StepOutcome => exec (.lh rs rt imm) s = o ∧ exec (.lhu rs rt imm) s = o
    let storeStops := fun o : StepOutcome => exec (.sh rs rt imm) s = o
    ea.toNat % 2 = 1 →
    (c.halfOdd = .refuse → loadsStop (.refused .halfOdd) ∧ storeStops (.refused .halfOdd)) ∧
    (c.halfOdd = .unaligned →
      loadsStop (.next (errorState (.unalignedAccess ea) s)) ∧
      storeStops (.next (errorState (.unalignedAccess ea) s))) ∧
    (c.halfOdd = .clearBit0 →
      (LoadsAt c ea → loads (b (ea - 1) ++ b ea)) ∧
      (∀ q, LoadRefused c ea q → loadsStop (.refused q)) ∧
      (c.wf = true → StoresPlain c ea → stores (StoreEffect s (ea - 1) 2 low)) ∧
      (c.wf = true → StoresAt c ea → stores (DataStored s (ea - 1) 2 low)) ∧
      ∀ q, StoreRefused c ea q → storeStops (.refused q)) ∧
    (c.halfOdd = .bytes →
      (LoadsAt c ea → LoadsAt c (ea + 1) → loads (b ea ++ b (ea + 1))) ∧
      (∀ q, LoadRefused c ea q ∨ (LoadsAt c ea ∧ LoadRefused c (ea + 1) q) → loadsStop (.refused q)) ∧
      (c.wf = true → StoresPlain c ea → StoresPlain c (ea + 1) → stores (StoreEffect s ea 2 low)) ∧
      (c.wf = true → StoresAt c ea → StoresAt c (ea + 1) → stores (DataStored s ea 2 low)) ∧
      ∀ q, StoreRefused c ea q ∨ (StoresAt c ea ∧ StoreRefused c (ea + 1) q) → storeStops (.refused q))

/-- 44_load_store.md R410, R411: LWL and LWR outside the reserved ranges, byte by byte: with `k = ea mod 4`, LWL puts
bytes `k..3` of the memory word in the top of `x[rt]`, LWR bytes `0..k` in its bottom. -/
def Obligations.UnalignedLoads : Prop :=
  RowIs 0xFC000000 0x88000000 NoFixed .unaligned (rowRsRtImm Instr.lwl) ∧
  RowIs 0xFC000000 0x98000000 NoFixed .unaligned (rowRsRtImm Instr.lwr) ∧
  ∀ (s : State) (rs rt : RegNum) (imm : Imm16),
    let ea := dataAddress s rs imm
    let k := ea.toNat % 4
    let m := byteFrom s (ea - BitVec.ofNat 32 k)
    let r := s.getReg rt
    LoadsPlain s.cfg ea →
    (∃ v, Completes (.lwl rs rt imm) s (RegEffect s rt v) ∧
      ∀ j, j < 4 → byteAt v j = if j < 4 - k then m (j + k) else byteAt r j) ∧
    ∃ v, Completes (.lwr rs rt imm) s (RegEffect s rt v) ∧
      ∀ j, j < 4 → byteAt v j = if j < 3 - k then byteAt r j else m (j + k - 3)

/-- 44_load_store.md R412, R413: SWL and SWR outside the reserved ranges: SWL stores the top `4-k` bytes of `x[rt]`
from the effective address to the end of its word, SWR the low `k+1` bytes from the word's start up to it. -/
def Obligations.UnalignedStores : Prop :=
  RowIs 0xFC000000 0xA8000000 NoFixed .unaligned (rowRsRtImm Instr.swl) ∧
  RowIs 0xFC000000 0xB8000000 NoFixed .unaligned (rowRsRtImm Instr.swr) ∧
  ∀ (s : State) (rs rt : RegNum) (imm : Imm16),
    let ea := dataAddress s rs imm
    let k := ea.toNat % 4
    let v := s.getReg rt
    s.cfg.wf = true → StoresPlain s.cfg ea →
    Completes (.swl rs rt imm) s (StoreEffect s ea (4 - k) fun j => byteAt v j) ∧
    Completes (.swr rs rt imm) s
      (StoreEffect s (ea - BitVec.ofNat 32 k) (k + 1) fun j => byteAt v (j + 3 - k))

/-- 44_load_store.md R420, R421 outside the reserved ranges: LL loads the word and sets `llbit`; SC needs it set,
stores the word, then writes 1 to `x[rt]`, and keeps `llbit`. -/
def Obligations.LoadLinkedStoreConditional : Prop :=
  RowIs 0xFC000000 0xC0000000 NoFixed .llsc (rowRsRtImm Instr.ll) ∧
  RowIs 0xFC000000 0xE0000000 NoFixed .llsc (rowRsRtImm Instr.sc) ∧
  ∀ (s : State) (rs rt : RegNum) (imm : Imm16),
    let ea := dataAddress s rs imm
    let m := byteFrom s ea
    let v := s.getReg rt
    (s.llbit = false → exec (.sc rs rt imm) s = .refused .scNoLl) ∧
    (ea.toNat % 4 = 0 → LoadsPlain s.cfg ea →
      Completes (.ll rs rt imm) s fun t =>
        LoopKept s t ∧ t.cache = s.cache ∧ t.llbit = true ∧ Advanced s t ∧
        RegWritten s t rt (m 0 ++ m 1 ++ m 2 ++ m 3) ∧ BytesKept s t (RegBytes s.cfg rt)) ∧
    (s.llbit = true → ea.toNat % 4 = 0 → s.cfg.wf = true → StoresPlain s.cfg ea →
      Completes (.sc rs rt imm) s fun t =>
        HiddenKept s t ∧ Advanced s t ∧ RegWritten s t rt 1 ∧
        (∀ k, k < 4 → Memory.readByte t.mem (ea + BitVec.ofNat 32 k).toNat = byteAt v k) ∧
        BytesKept s t (fun x => RegBytes s.cfg rt x ∨ InBytes ea 4 x))

/-- 20_memory.md R112 to R114: a word load or store of register slot `k` is refused, or goes through the register
rules: slot 0 reads 0 and is not written, a store to the PC slot has no lasting effect, and an SC's own register
write comes after its store. -/
def Obligations.RegisterSlotWord : Prop :=
  ∀ (s : State) (rs rt : RegNum) (imm : Imm16) (k : Nat),
    let ea := dataAddress s rs imm
    let v := s.getReg rt
    s.cfg.wf = true → k < 35 → ea = s.cfg.regBase + BitVec.ofNat 32 (4 * k) →
    (s.cfg.regfileData = .refuse →
      exec (.lw rs rt imm) s = .refused .regfileData ∧ exec (.sw rs rt imm) s = .refused .regfileData ∧
      exec (.ll rs rt imm) s = .refused .regfileData ∧
      (s.llbit = true → exec (.sc rs rt imm) s = .refused .regfileData)) ∧
    (s.cfg.regfileData = .aliased →
      Completes (.lw rs rt imm) s (RegEffect s rt (slotValue s k)) ∧
      Completes (.sw rs rt imm) s (SlotEffect s k v) ∧
      (Completes (.ll rs rt imm) s fun t =>
        LoopKept s t ∧ t.cache = s.cache ∧ t.llbit = true ∧ Advanced s t ∧
        RegWritten s t rt (slotValue s k) ∧ BytesKept s t (RegBytes s.cfg rt)) ∧
      (s.llbit = true → Completes (.sc rs rt imm) s fun t =>
        HiddenKept s t ∧ Advanced s t ∧
        (∀ j, t.getReg j =
          if j = rt ∧ rt ≠ 0 then 1 else if j.toNat = k ∧ j ≠ 0 then v else s.getReg j) ∧
        t.getHI = (if k = 33 then v else s.getHI) ∧ t.getLO = (if k = 34 then v else s.getLO) ∧
        BytesKept s t fun x => RegBytes s.cfg rt x ∨ (k ≠ 0 ∧ InSlot s.cfg k x)))

/-- 20_memory.md R112 to R114: the byte, halfword and unaligned-word loads and stores of register slot `k`, at byte
`o` of it: refused, or through the register rules. -/
def Obligations.RegisterSlotSubword : Prop :=
  ∀ (s : State) (rs rt : RegNum) (imm : Imm16) (k o : Nat),
    let ea := dataAddress s rs imm
    let r := s.getReg rt
    let w := slotValue s k
    s.cfg.wf = true → k < 35 → o < 4 → ea = s.cfg.regBase + BitVec.ofNat 32 (4 * k + o) →
    (s.cfg.regfileData = .refuse →
      exec (.lb rs rt imm) s = .refused .regfileData ∧ exec (.lbu rs rt imm) s = .refused .regfileData ∧
      exec (.sb rs rt imm) s = .refused .regfileData ∧
      exec (.lwl rs rt imm) s = .refused .regfileData ∧ exec (.lwr rs rt imm) s = .refused .regfileData ∧
      exec (.swl rs rt imm) s = .refused .regfileData ∧ exec (.swr rs rt imm) s = .refused .regfileData ∧
      (o % 2 = 0 → exec (.lh rs rt imm) s = .refused .regfileData ∧
        exec (.lhu rs rt imm) s = .refused .regfileData ∧ exec (.sh rs rt imm) s = .refused .regfileData)) ∧
    (s.cfg.regfileData = .aliased →
      Completes (.lb rs rt imm) s (RegEffect s rt ((byteAt w o).signExtend 32)) ∧
      Completes (.lbu rs rt imm) s (RegEffect s rt ((byteAt w o).zeroExtend 32)) ∧
      (∃ v, Completes (.lwl rs rt imm) s (RegEffect s rt v) ∧
        ∀ j, j < 4 → byteAt v j = if j < 4 - o then byteAt w (j + o) else byteAt r j) ∧
      (∃ v, Completes (.lwr rs rt imm) s (RegEffect s rt v) ∧
        ∀ j, j < 4 → byteAt v j = if j < 3 - o then byteAt r j else byteAt w (j + o - 3)) ∧
      (∃ v, Completes (.sb rs rt imm) s (SlotEffect s k v) ∧
        ∀ j, j < 4 → byteAt v j = if j = o then byteAt r 3 else byteAt w j) ∧
      (∃ v, Completes (.swl rs rt imm) s (SlotEffect s k v) ∧
        ∀ j, j < 4 → byteAt v j = if j < o then byteAt w j else byteAt r (j - o)) ∧
      (∃ v, Completes (.swr rs rt imm) s (SlotEffect s k v) ∧
        ∀ j, j < 4 → byteAt v j = if j ≤ o then byteAt r (j + 3 - o) else byteAt w j) ∧
      (o % 2 = 0 →
        Completes (.lh rs rt imm) s (RegEffect s rt ((byteAt w o ++ byteAt w (o + 1)).signExtend 32)) ∧
        Completes (.lhu rs rt imm) s (RegEffect s rt ((byteAt w o ++ byteAt w (o + 1)).zeroExtend 32)) ∧
        ∃ v, Completes (.sh rs rt imm) s (SlotEffect s k v) ∧
          ∀ j, j < 4 → byteAt v j =
            if j = o then byteAt r 2 else if j = o + 1 then byteAt r 3 else byteAt w j))

/-- 20_memory.md R119, R121 to R124: an LW of the trigger takes the key's answer from the cache, else from the provider;
without one it raises OracleMiss; it fills the window, keeps the answer in the cache and loads the trigger's word. The
key function is the parameter `P_ORACLE_KEYOF`, with the spec's default or another, left free (log 13). -/
def Obligations.OracleTriggerLoad : Prop :=
  ∀ (s : State) (rs rt : RegNum) (imm : Imm16),
    s.cfg.wf = true → dataAddress s rs imm = s.cfg.oracleTrigger →
    let key := oracleKey s
    let win (k : Nat) : Word := s.cfg.oracleWinBase + BitVec.ofNat 32 (4 * k)
    (s.cfg.oracleKeyOf = .keyWords → key = keyBytes s.mem s.cfg.oracleKeyBase s.cfg.oracleKeyWords) ∧
    (∀ n, s.cfg.oracleKeyOf = .other n → key = Config.keyBy n s.mem) ∧
    (assoc key s.cache = none → assoc key s.inputs.oracle = none →
      exec (.lw rs rt imm) s = .next (errorState (.oracleMiss key) s)) ∧
    ∀ bytes, (assoc key s.cache = some bytes ∨
        (assoc key s.cache = none ∧ assoc key s.inputs.oracle = some bytes)) →
      (oracleLayout s.cfg bytes = none → exec (.lw rs rt imm) s = .refused .oracleFit) ∧
      ∀ ws, oracleLayout s.cfg bytes = some ws →
        ws.length = s.cfg.oracleWinWords ∧
        Completes (.lw rs rt imm) s fun t =>
          LoopKept s t ∧ t.llbit = s.llbit ∧ Advanced s t ∧
          (∀ k, assoc k t.cache = if k = key then some bytes else assoc k s.cache) ∧
          (∀ k w, ws[k]? = some w → t.mword (win k) = w) ∧
          (∀ k w, ws[k]? = some w → win k = s.cfg.oracleTrigger → RegWritten s t rt w) ∧
          ((∀ k, k < ws.length → win k ≠ s.cfg.oracleTrigger) →
            RegWritten s t rt (s.mword s.cfg.oracleTrigger)) ∧
          BytesKept s t fun x =>
            RegBytes s.cfg rt x ∨ InBytes s.cfg.oracleWinBase (4 * s.cfg.oracleWinWords) x

/-- 20_memory.md R118: a store of any width to the trigger or the window is refused, and so is any load of the
trigger but LW. -/
def Obligations.OracleAccessRefused : Prop :=
  ∀ (s : State) (rs rt : RegNum) (imm : Imm16),
    let ea := dataAddress s rs imm
    (classOf s.cfg (wordAddress ea) = .trig →
      exec (.lb rs rt imm) s = .refused .oracleAccess ∧ exec (.lbu rs rt imm) s = .refused .oracleAccess ∧
      exec (.lwl rs rt imm) s = .refused .oracleAccess ∧ exec (.lwr rs rt imm) s = .refused .oracleAccess ∧
      (ea.toNat % 2 = 0 →
        exec (.lh rs rt imm) s = .refused .oracleAccess ∧ exec (.lhu rs rt imm) s = .refused .oracleAccess) ∧
      (ea.toNat % 4 = 0 → exec (.ll rs rt imm) s = .refused .oracleAccess)) ∧
    (classOf s.cfg (wordAddress ea) = .trig ∨ classOf s.cfg (wordAddress ea) = .win →
      exec (.sb rs rt imm) s = .refused .oracleAccess ∧
      exec (.swl rs rt imm) s = .refused .oracleAccess ∧ exec (.swr rs rt imm) s = .refused .oracleAccess ∧
      (ea.toNat % 2 = 0 → exec (.sh rs rt imm) s = .refused .oracleAccess) ∧
      (ea.toNat % 4 = 0 → exec (.sw rs rt imm) s = .refused .oracleAccess ∧
        (s.llbit = true → exec (.sc rs rt imm) s = .refused .oracleAccess)))

/-! System instructions -/

/-- 45_system.md R455: SYNC has no effect but the pc's advance, whatever its stype. -/
def Obligations.Sync : Prop :=
  RowIs 0xFC00003F 0x0000000F (ZeroAt 0x03FFF800) .sync (rowStype Instr.sync) ∧
  ∀ (s : State) (stype : BitVec 5), Completes (.sync stype) s (RegEffect s 0 0)

/-- 30_encoding.md R157 to R160: the encodings of the unmodelled groups (SYSCALL, BREAK, the twelve traps, the COP
space with MOVCI, CACHE and PREF, JALX, SDBBP, SPECIAL3, SYNCI); 45_system.md R450 to R458: an instruction of one
changes no architectural state: it raises InvalidOpcode or is refused as its group's parameter says, in its meaning
and in a step, which charges no gas and counts nothing. -/
def Obligations.UnmodelledGroups : Prop :=
  RowIs 0xFC00003F 0x00000001 NoFixed .cop (rowRsRtRdSa Instr.movci) ∧
  RowIs 0xFC00003F 0x0000000C NoFixed .syscall (rowCode Instr.syscall) ∧
  RowIs 0xFC00003F 0x0000000D NoFixed .brk (rowCode Instr.break_) ∧
  RowIs 0xFC00003F 0x00000030 NoFixed .trap (rowRsRtRdSa Instr.tge) ∧
  RowIs 0xFC00003F 0x00000031 NoFixed .trap (rowRsRtRdSa Instr.tgeu) ∧
  RowIs 0xFC00003F 0x00000032 NoFixed .trap (rowRsRtRdSa Instr.tlt) ∧
  RowIs 0xFC00003F 0x00000033 NoFixed .trap (rowRsRtRdSa Instr.tltu) ∧
  RowIs 0xFC00003F 0x00000034 NoFixed .trap (rowRsRtRdSa Instr.teq) ∧
  RowIs 0xFC00003F 0x00000036 NoFixed .trap (rowRsRtRdSa Instr.tne) ∧
  RowIs 0xFC1F0000 0x04080000 NoFixed .trap (rowRsImm Instr.tgei) ∧
  RowIs 0xFC1F0000 0x04090000 NoFixed .trap (rowRsImm Instr.tgeiu) ∧
  RowIs 0xFC1F0000 0x040A0000 NoFixed .trap (rowRsImm Instr.tlti) ∧
  RowIs 0xFC1F0000 0x040B0000 NoFixed .trap (rowRsImm Instr.tltiu) ∧
  RowIs 0xFC1F0000 0x040C0000 NoFixed .trap (rowRsImm Instr.teqi) ∧
  RowIs 0xFC1F0000 0x040E0000 NoFixed .trap (rowRsImm Instr.tnei) ∧
  RowIs 0xFC1F0000 0x041F0000 NoFixed .r2 (rowRsImm Instr.synci) ∧
  RowIs 0xFC00003F 0x7000003F NoFixed .ase (rowCode Instr.sdbbp) ∧
  RowIs 0xFC000000 0x40000000 NoFixed .cop (rowRsRtImm Instr.cop0) ∧
  RowIs 0xFC000000 0x44000000 NoFixed .cop (rowRsRtImm Instr.cop1) ∧
  RowIs 0xFC000000 0x48000000 NoFixed .cop (rowRsRtImm Instr.cop2) ∧
  RowIs 0xFC000000 0x4C000000 NoFixed .cop (rowRsRtImm Instr.cop1x) ∧
  RowIs 0xFC000000 0x74000000 NoFixed .ase (rowIndex Instr.jalx) ∧
  RowIs 0xFC000000 0x7C000000 NoFixed .r2 (rowRsRtImm Instr.special3) ∧
  RowIs 0xFC000000 0xBC000000 NoFixed .cop (rowRsRtImm Instr.cache) ∧
  RowIs 0xFC000000 0xC4000000 NoFixed .cop (rowRsRtImm Instr.lwc1) ∧
  RowIs 0xFC000000 0xC8000000 NoFixed .cop (rowRsRtImm Instr.lwc2) ∧
  RowIs 0xFC000000 0xCC000000 NoFixed .cop (rowRsRtImm Instr.pref) ∧
  RowIs 0xFC000000 0xD4000000 NoFixed .cop (rowRsRtImm Instr.ldc1) ∧
  RowIs 0xFC000000 0xD8000000 NoFixed .cop (rowRsRtImm Instr.ldc2) ∧
  RowIs 0xFC000000 0xE4000000 NoFixed .cop (rowRsRtImm Instr.swc1) ∧
  RowIs 0xFC000000 0xE8000000 NoFixed .cop (rowRsRtImm Instr.swc2) ∧
  RowIs 0xFC000000 0xF4000000 NoFixed .cop (rowRsRtImm Instr.sdc1) ∧
  RowIs 0xFC000000 0xF8000000 NoFixed .cop (rowRsRtImm Instr.sdc2) ∧
  ∀ (i : Instr), i.group ∈ [.syscall, .brk, .trap, .cop, .ase, .r2] →
    ∀ s : State,
      (s.cfg.presence i.group = .invalid ∨ s.cfg.presence i.group = .unknown) ∧
      (s.cfg.presence i.group = .invalid →
        exec i s = .next (errorState (.invalidOpcode (encode i)) s)) ∧
      (s.cfg.presence i.group = .unknown → exec i s = .refused (.groupUnknown i.group)) ∧
      ∀ w, Fetches s w → decodeWord w = some i →
        (s.cfg.presence i.group = .invalid → step s = .next (errorState (.invalidOpcode w) s)) ∧
        (s.cfg.presence i.group = .unknown → step s = .refused (.groupUnknown i.group))
end

