-- ==== Sys2Proof/Laws/Memory.lean ====
section
/-! SUPPORT. Laws of the memory: read after write for bytes and words, the canonical form, extensionality. -/

namespace Sys2Proof.Machine.Memory

theorem readByte_erase (m : Memory) (x y : Nat) :
    readByte (erase m x) y = if y = x then unlisted else readByte m y := by
  induction m with
  | nil => simp [erase, readByte]
  | cons p rest ih =>
    obtain ⟨a, b⟩ := p
    simp only [erase, readByte]
    split <;> rename_i h
    · subst h
      rw [ih]
      split <;> rename_i h2
      · rfl
      · simp [Ne.symm h2]
    · simp only [readByte, ih]
      split <;> rename_i h3
      · subst h3; simp [h]
      · rfl

/-- No entry of `m` has the address `x`. -/
def KeyFree (m : Memory) (x : Nat) : Prop := ∀ p ∈ m, p.1 ≠ x

theorem keyFree_erase (m : Memory) (x : Nat) : KeyFree (erase m x) x := by
  induction m with
  | nil => simp [erase, KeyFree]
  | cons p rest ih =>
    obtain ⟨a, b⟩ := p
    simp only [erase]
    split <;> rename_i h
    · exact ih
    · intro q hq
      rcases List.mem_cons.1 hq with rfl | hq
      · exact h
      · exact ih q hq

theorem readByte_insert (m : Memory) (x : Nat) (v : Byte) (y : Nat) (h : KeyFree m x) :
    readByte (insert m x v) y = if y = x then v else readByte m y := by
  induction m with
  | nil => simp only [insert, readByte, eq_comm]
  | cons p rest ih =>
    obtain ⟨a, b⟩ := p
    have ha : a ≠ x := h (a, b) List.mem_cons_self
    have hr : KeyFree rest x := fun q hq => h q (List.mem_cons_of_mem _ hq)
    simp only [insert]
    split
    · simp only [readByte, eq_comm]
    · simp only [readByte, ih hr]
      split <;> rename_i h1
      · subst h1; simp [ha]
      · rfl

/-- Read after write of a byte: the written address gives the written value, every other its old one. -/
theorem readByte_writeByte (m : Memory) (x : Nat) (v : Byte) (y : Nat) :
    readByte (writeByte m x v) y = if y = x then v else readByte m y := by
  unfold writeByte
  split <;> rename_i h
  · rw [readByte_erase, h]
  · rw [readByte_insert _ _ _ _ (keyFree_erase m x), readByte_erase]
    split <;> rfl

theorem wfFrom_mono (m : Memory) {lo lo' : Nat} (h : lo' ≤ lo) (hm : wfFrom m lo = true) :
    wfFrom m lo' = true := by
  cases m with
  | nil => rfl
  | cons p rest =>
    obtain ⟨a, b⟩ := p
    simp only [wfFrom, Bool.and_eq_true, decide_eq_true_eq] at hm ⊢
    exact ⟨⟨⟨by omega, hm.1.1.2⟩, hm.1.2⟩, hm.2⟩

theorem wfFrom_erase (m : Memory) (x lo : Nat) (hm : wfFrom m lo = true) :
    wfFrom (erase m x) lo = true := by
  induction m generalizing lo with
  | nil => rfl
  | cons p rest ih =>
    obtain ⟨a, b⟩ := p
    simp only [wfFrom, Bool.and_eq_true, decide_eq_true_eq] at hm
    simp only [erase]
    split
    · exact ih lo (wfFrom_mono rest (by omega) hm.2)
    · simp only [wfFrom, Bool.and_eq_true, decide_eq_true_eq]
      exact ⟨hm.1, ih _ hm.2⟩

theorem wfFrom_insert (m : Memory) (x : Nat) (v : Byte) (lo : Nat) (hm : wfFrom m lo = true)
    (hk : KeyFree m x) (hlo : lo ≤ x) (hx : x < 2 ^ 32) (hv : v ≠ unlisted) :
    wfFrom (insert m x v) lo = true := by
  induction m generalizing lo with
  | nil => simp [insert, wfFrom, hlo, hv]; simpa using hx
  | cons p rest ih =>
    obtain ⟨a, b⟩ := p
    have ha : a ≠ x := hk (a, b) List.mem_cons_self
    have hr : KeyFree rest x := fun q hq => hk q (List.mem_cons_of_mem _ hq)
    simp only [wfFrom, Bool.and_eq_true, decide_eq_true_eq] at hm
    simp only [insert]
    split <;> rename_i h
    · simp only [wfFrom, Bool.and_eq_true, decide_eq_true_eq, bne_iff_ne]
      exact ⟨⟨⟨hlo, hx⟩, hv⟩, ⟨⟨by omega, hm.1.1.2⟩, by simpa using hm.1.2⟩, hm.2⟩
    · simp only [wfFrom, Bool.and_eq_true, decide_eq_true_eq]
      exact ⟨hm.1, ih _ hm.2 hr (by omega)⟩

/-- A byte write at an address below 2^32 keeps the canonical form. -/
theorem wf_writeByte (m : Memory) (x : Nat) (v : Byte) (hm : wf m = true) (hx : x < 2 ^ 32) :
    wf (writeByte m x v) = true := by
  unfold writeByte wf
  split <;> rename_i h
  · exact wfFrom_erase m x 0 hm
  · exact wfFrom_insert _ x v 0 (wfFrom_erase m x 0 hm) (keyFree_erase m x) (Nat.zero_le _) hx h

/-- A word write keeps the canonical form. -/
theorem wf_setMword (m : Memory) (a v : Word) (hm : wf m = true) : wf (setMword m a v) = true :=
  wf_writeByte _ _ _ (wf_writeByte _ _ _ (wf_writeByte _ _ _ (wf_writeByte _ _ _ hm a.isLt)
    (a + 1).isLt) (a + 2).isLt) (a + 3).isLt

theorem wf_setMwords (m : Memory) (base : Word) (ws : List Word) (hm : wf m = true) :
    wf (setMwords m base ws) = true := by
  induction ws generalizing m base with
  | nil => exact hm
  | cons w ws ih => exact ih _ _ (wf_setMword m base w hm)

theorem readByte_of_lt (m : Memory) (lo x : Nat) (hm : wfFrom m lo = true) (hx : x < lo) :
    readByte m x = unlisted := by
  induction m generalizing lo with
  | nil => rfl
  | cons p rest ih =>
    obtain ⟨a, b⟩ := p
    simp only [wfFrom, Bool.and_eq_true, decide_eq_true_eq] at hm
    rw [readByte, if_neg (by omega)]
    exact ih _ hm.2 (by omega)

/-- The canonical form is canonical: memories that read alike are equal data. -/
theorem ext_of_readByte (m m' : Memory) (lo : Nat) (hm : wfFrom m lo = true) (hm' : wfFrom m' lo = true)
    (h : ∀ x, readByte m x = readByte m' x) : m = m' := by
  induction m generalizing m' lo with
  | nil =>
    cases m' with
    | nil => rfl
    | cons p rest =>
      obtain ⟨a, b⟩ := p
      have := h a
      simp only [wfFrom, Bool.and_eq_true, bne_iff_ne] at hm'
      simp only [readByte, if_true] at this
      exact absurd this.symm hm'.1.2
  | cons p rest ih =>
    obtain ⟨a, b⟩ := p
    simp only [wfFrom, Bool.and_eq_true, decide_eq_true_eq, bne_iff_ne] at hm
    cases m' with
    | nil =>
      have := h a
      simp only [readByte, if_true] at this
      exact absurd this hm.1.2
    | cons p' rest' =>
      obtain ⟨a', b'⟩ := p'
      simp only [wfFrom, Bool.and_eq_true, decide_eq_true_eq, bne_iff_ne] at hm'
      have haa : a = a' := by
        rcases Nat.lt_trichotomy a a' with hlt | heq | hgt
        · have := h a
          rw [readByte, if_pos rfl, readByte, if_neg (by omega),
            readByte_of_lt _ _ _ hm'.2 (by omega)] at this
          exact absurd this hm.1.2
        · exact heq
        · have := h a'
          rw [readByte, if_neg (by omega), readByte_of_lt _ _ _ hm.2 (by omega),
            readByte, if_pos rfl] at this
          exact absurd this.symm hm'.1.2
      subst haa
      have hb : b = b' := by simpa [readByte] using h a
      subst hb
      have hrest : rest = rest' := by
        refine ih rest' (a + 1) hm.2 hm'.2 fun x => ?_
        by_cases hx : a = x
        · subst hx
          rw [readByte_of_lt _ _ _ hm.2 (by omega), readByte_of_lt _ _ _ hm'.2 (by omega)]
        · simpa [readByte, hx] using h x
      rw [hrest]

/-- The byte of a word write at address `y`: the four bytes of `v`, the most significant first, elsewhere the
old byte (20_memory.md R103). -/
theorem readByte_setMword (m : Memory) (a v : Word) (y : Nat) :
    readByte (setMword m a v) y =
      if y = (a + 3).toNat then v.extractLsb' 0 8
      else if y = (a + 2).toNat then v.extractLsb' 8 8
      else if y = (a + 1).toNat then v.extractLsb' 16 8
      else if y = a.toNat then v.extractLsb' 24 8
      else readByte m y := by
  simp only [setMword, readByte_writeByte]

/-- A byte at no address of the word keeps its value. -/
theorem readByte_setMword_of_ne (m : Memory) (a v : Word) (y : Nat)
    (h : ∀ k, k < 4 → y ≠ (a + BitVec.ofNat 32 k).toNat) :
    readByte (setMword m a v) y = readByte m y := by
  have h0 : y ≠ a.toNat := by simpa using h 0 (by omega)
  have h1 : y ≠ (a + 1).toNat := h 1 (by omega)
  have h2 : y ≠ (a + 2).toNat := h 2 (by omega)
  have h3 : y ≠ (a + 3).toNat := h 3 (by omega)
  rw [readByte_setMword, if_neg h3, if_neg h2, if_neg h1, if_neg h0]

theorem word_of_bytes (v : Word) :
    wordOfBytes (v.extractLsb' 24 8) (v.extractLsb' 16 8) (v.extractLsb' 8 8) (v.extractLsb' 0 8) = v := by
  unfold wordOfBytes
  ext i hi
  simp only [BitVec.getElem_append, BitVec.getElem_extractLsb']
  split
  · simp [BitVec.getLsbD_eq_getElem hi]
  · split
    · rw [← BitVec.getLsbD_eq_getElem]; congr 1; omega
    · split
      · rw [← BitVec.getLsbD_eq_getElem]; congr 1; omega
      · rw [← BitVec.getLsbD_eq_getElem]; congr 1; omega

/-- Read after write of a word. -/
@[simp] theorem mword_setMword (m : Memory) (a v : Word) : mword (setMword m a v) a = v := by
  have h1 : a.toNat ≠ (a + 3).toNat := by bv_omega
  have h2 : a.toNat ≠ (a + 2).toNat := by bv_omega
  have h3 : a.toNat ≠ (a + 1).toNat := by bv_omega
  have h4 : (a + 1).toNat ≠ (a + 3).toNat := by bv_omega
  have h5 : (a + 1).toNat ≠ (a + 2).toNat := by bv_omega
  have h6 : (a + 2).toNat ≠ (a + 3).toNat := by bv_omega
  simp only [mword, readByte_setMword, h1, h2, h3, h4, h5, h6, if_true, if_false]
  exact word_of_bytes v

/-- A word write leaves every word at least four bytes away alone. -/
theorem mword_setMword_of_far (m : Memory) (a b v : Word) (h : 4 ≤ (b - a).toNat) (h' : 4 ≤ (a - b).toNat) :
    mword (setMword m a v) b = mword m b := by
  unfold mword
  have key : ∀ j k : Nat, j < 4 → k < 4 →
      (b + BitVec.ofNat 32 j).toNat ≠ (a + BitVec.ofNat 32 k).toNat := by
    intro j k hj hk
    bv_omega
  have e : ∀ j : Nat, j < 4 → readByte (setMword m a v) (b + BitVec.ofNat 32 j).toNat =
      readByte m (b + BitVec.ofNat 32 j).toNat := fun j hj =>
    readByte_setMword_of_ne m a v _ fun k hk => key j k hj hk
  have e0 : readByte (setMword m a v) b.toNat = readByte m b.toNat := by simpa using e 0 (by omega)
  have e1 : readByte (setMword m a v) (b + 1).toNat = readByte m (b + 1).toNat := e 1 (by omega)
  have e2 : readByte (setMword m a v) (b + 2).toNat = readByte m (b + 2).toNat := e 2 (by omega)
  have e3 : readByte (setMword m a v) (b + 3).toNat = readByte m (b + 3).toNat := e 3 (by omega)
  rw [e0, e1, e2, e3]

/-- Two different word addresses are far apart. -/
theorem mword_setMword_of_aligned (m : Memory) (a b v : Word) (ha : a.toNat % 4 = 0) (hb : b.toNat % 4 = 0)
    (h : a ≠ b) : mword (setMword m a v) b = mword m b :=
  mword_setMword_of_far m a b v (by bv_omega) (by bv_omega)

/-- A byte outside the words of `setMwords` keeps its value. -/
theorem readByte_setMwords_of_ne (m : Memory) (base : Word) (ws : List Word) (y : Nat)
    (h : ∀ k, k < 4 * ws.length → y ≠ (base + BitVec.ofNat 32 k).toNat) :
    readByte (setMwords m base ws) y = readByte m y := by
  induction ws generalizing m base with
  | nil => rfl
  | cons w ws ih =>
    rw [setMwords, ih, readByte_setMword_of_ne]
    · intro k hk; exact h k (by simp; omega)
    · intro k hk
      have := h (k + 4) (by simp at hk ⊢; omega)
      rwa [show base + BitVec.ofNat 32 (k + 4) = base + 4 + BitVec.ofNat 32 k from by
        rw [BitVec.add_assoc]; congr 1; rw [BitVec.ofNat_add]; exact BitVec.add_comm _ _] at this

end Sys2Proof.Machine.Memory
end

