-- ==== Sys2Proof/Laws/Bytes.lean ====
section
/-! SUPPORT. The bytes of a word: what the sub-word helpers and the unaligned merges do to each byte, and what a
byte or halfword access reads and writes (20_memory.md R103, R106, R107). -/

namespace Sys2Proof.Machine

open Memory

theorem wordAddress_toNat (a : Word) : (wordAddress a).toNat = a.toNat - a.toNat % 4 := by
  have h : wordAddress a = (a >>> 2) <<< 2 := by
    unfold wordAddress
    ext i hi
    interval_cases i <;> simp
  rw [h]
  have := a.isLt
  simp only [BitVec.toNat_shiftLeft, BitVec.toNat_ushiftRight, Nat.shiftLeft_eq, Nat.shiftRight_eq_div_pow]
  omega

theorem wordAddress_add (a : Word) : wordAddress a + BitVec.ofNat 32 (byteOffset a) = a := by
  apply BitVec.eq_of_toNat_eq
  have h := wordAddress_toNat a
  have := a.isLt
  simp only [byteOffset, BitVec.toNat_add, h, BitVec.toNat_ofNat]
  omega

theorem wordAddress_aligned (a : Word) : (wordAddress a).toNat % 4 = 0 := by
  rw [wordAddress_toNat]; omega

theorem wordAddress_of_aligned (a : Word) (h : byteOffset a = 0) : wordAddress a = a := by
  have := wordAddress_add a
  simpa [h] using this

theorem byteOffset_lt (a : Word) : byteOffset a < 4 := Nat.mod_lt _ (by decide)

theorem wordAddress_add_succ (a : Word) : wordAddress a + BitVec.ofNat 32 (byteOffset a + 1) = a + 1 := by
  have := wordAddress_add a
  have := byteOffset_lt a
  bv_omega

theorem byteAt_mword (m : Memory) (a : Word) (j : Nat) (hj : j < 4) :
    byteAt (mword m a) j = readByte m (a + BitVec.ofNat 32 j).toNat := by
  unfold mword wordOfBytes byteAt
  interval_cases j <;>
  · simp only [BitVec.ofNat_eq_ofNat, BitVec.add_zero]
    ext i hi
    simp only [BitVec.getElem_extractLsb', BitVec.getLsbD_append]
    interval_cases i <;> simp

theorem readByte_setMword_byteAt (m : Memory) (a v : Word) (j : Nat) (hj : j < 4) :
    readByte (setMword m a v) (a + BitVec.ofNat 32 j).toNat = byteAt v j := by
  rw [← byteAt_mword _ _ _ hj, mword_setMword]

theorem byteAt_insertByte (w a v : Word) (j : Nat) (hj : j < 4) :
    byteAt (insertByte w a v) j = if j = byteOffset a then v.extractLsb' 0 8 else byteAt w j := by
  unfold insertByte byteAt
  have hk := byteOffset_lt a
  generalize byteOffset a = k at hk
  interval_cases j <;> interval_cases k <;>
  · ext i hi
    interval_cases i <;> simp

theorem extractByte_eq (w a : Word) : extractByte w a = (byteAt w (byteOffset a)).zeroExtend 32 := by
  unfold extractByte byteAt
  have hk := byteOffset_lt a
  generalize byteOffset a = k at hk
  interval_cases k <;>
  · ext i hi
    interval_cases i <;> simp

/-- An even byte address has byte offset 0 or 2. -/
theorem byteOffset_even (a : Word) (h : a.getLsbD 0 = false) : byteOffset a = 0 ∨ byteOffset a = 2 := by
  have : a.toNat % 2 = 0 := by
    rw [BitVec.getLsbD, Nat.testBit_zero, decide_eq_false_iff_not] at h; omega
  have := byteOffset_lt a
  unfold byteOffset at *
  omega

theorem byteAt_insertHalf (w a v : Word) (j : Nat) (hj : j < 4) (ha : a.getLsbD 0 = false) :
    byteAt (insertHalf w a v) j =
      if j = byteOffset a then v.extractLsb' 8 8
      else if j = byteOffset a + 1 then v.extractLsb' 0 8 else byteAt w j := by
  unfold insertHalf byteAt
  have hk := byteOffset_even a ha
  generalize byteOffset a = k at hk
  rcases hk with rfl | rfl <;> interval_cases j <;>
  · ext i hi
    interval_cases i <;> simp

theorem extractHalf_eq (w a : Word) (ha : a.getLsbD 0 = false) :
    extractHalf w a = (byteAt w (byteOffset a) ++ byteAt w (byteOffset a + 1)).zeroExtend 32 := by
  unfold extractHalf byteAt
  have hk := byteOffset_even a ha
  generalize byteOffset a = k at hk
  rcases hk with rfl | rfl <;>
  · apply BitVec.eq_of_getLsbD_eq
    intro i hi
    simp only [BitVec.truncate_eq_setWidth, BitVec.getLsbD_setWidth, BitVec.getLsbD_append]
    interval_cases i <;> simp

theorem byteAt_mergeLwl (w old ea : Word) (j : Nat) (hj : j < 4) :
    byteAt (mergeLwl w old ea) j =
      if j + byteOffset ea < 4 then byteAt w (j + byteOffset ea) else byteAt old j := by
  unfold mergeLwl byteAt
  have hk := byteOffset_lt ea
  generalize byteOffset ea = k at hk
  interval_cases j <;> interval_cases k <;>
  · ext i hi
    interval_cases i <;> simp

theorem byteAt_mergeLwr (w old ea : Word) (j : Nat) (hj : j < 4) :
    byteAt (mergeLwr w old ea) j =
      if 3 ≤ j + byteOffset ea then byteAt w (j + byteOffset ea - 3) else byteAt old j := by
  unfold mergeLwr byteAt
  have hk := byteOffset_lt ea
  generalize byteOffset ea = k at hk
  interval_cases j <;> interval_cases k <;>
  · ext i hi
    interval_cases i <;> simp

theorem byteAt_mergeSwl (w r ea : Word) (j : Nat) (hj : j < 4) :
    byteAt (mergeSwl w r ea) j =
      if byteOffset ea ≤ j then byteAt r (j - byteOffset ea) else byteAt w j := by
  unfold mergeSwl byteAt
  have hk := byteOffset_lt ea
  generalize byteOffset ea = k at hk
  interval_cases j <;> interval_cases k <;>
  · ext i hi
    interval_cases i <;> simp

theorem byteAt_mergeSwr (w r ea : Word) (j : Nat) (hj : j < 4) :
    byteAt (mergeSwr w r ea) j =
      if j ≤ byteOffset ea then byteAt r (j + 3 - byteOffset ea) else byteAt w j := by
  unfold mergeSwr byteAt
  have hk := byteOffset_lt ea
  generalize byteOffset ea = k at hk
  interval_cases j <;> interval_cases k <;>
  · ext i hi
    interval_cases i <;> simp

/-- A word is its four bytes. -/
theorem word_ext (w w' : Word) (h : ∀ j, j < 4 → byteAt w j = byteAt w' j) : w = w' := by
  have h0 := h 0 (by omega); have h1 := h 1 (by omega); have h2 := h 2 (by omega); have h3 := h 3 (by omega)
  rw [← word_of_bytes w, ← word_of_bytes w']
  simp only [byteAt, Nat.mul_zero, Nat.sub_zero, Nat.mul_one, Nat.reduceMul, Nat.reduceSub] at h0 h1 h2 h3
  rw [h0, h1, h2, h3]

theorem mword_congr (m m' : Memory) (a : Word)
    (h : ∀ j, j < 4 → readByte m (a + BitVec.ofNat 32 j).toNat = readByte m' (a + BitVec.ofNat 32 j).toNat) :
    mword m a = mword m' a :=
  word_ext _ _ fun j hj => by rw [byteAt_mword _ _ _ hj, byteAt_mword _ _ _ hj, h j hj]

theorem sextByte_extractByte (w a : Word) :
    sextByte (extractByte w a) = (byteAt w (byteOffset a)).signExtend 32 := by
  rw [extractByte_eq, sextByte]
  congr 1
  ext i hi
  interval_cases i <;> simp

theorem zextByte_extractByte (w a : Word) :
    zextByte (extractByte w a) = (byteAt w (byteOffset a)).zeroExtend 32 := by
  rw [extractByte_eq, zextByte]
  congr 1
  ext i hi
  interval_cases i <;> simp

theorem sextHalf_zeroExtend (h : BitVec 16) : sextHalf (h.zeroExtend 32) = h.signExtend 32 := by
  rw [sextHalf]
  congr 1
  ext i hi
  interval_cases i <;> simp

theorem zextHalf_zeroExtend (h : BitVec 16) : zextHalf (h.zeroExtend 32) = h.zeroExtend 32 := by
  rw [zextHalf]
  congr 1
  ext i hi
  interval_cases i <;> simp

/-- The byte a byte access selects is the byte at its address (20_memory.md R106). -/
theorem byteAt_mword_wordAddress (m : Memory) (a : Word) :
    byteAt (mword m (wordAddress a)) (byteOffset a) = readByte m a.toNat := by
  rw [byteAt_mword _ _ _ (byteOffset_lt a), wordAddress_add]

/-- The byte after it in the same word. -/
theorem byteAt_mword_succ (m : Memory) (a : Word) (h : byteOffset a + 1 < 4) :
    byteAt (mword m (wordAddress a)) (byteOffset a + 1) = readByte m (a + 1).toNat := by
  rw [byteAt_mword _ _ _ h, wordAddress_add_succ]

/-- Any byte after a word write, by the bytes of the word. -/
theorem readByte_setMword_cases (m : Memory) (a v : Word) (x : Nat) :
    (∃ j, j < 4 ∧ x = (a + BitVec.ofNat 32 j).toNat ∧ readByte (setMword m a v) x = byteAt v j) ∨
    ((∀ j, j < 4 → x ≠ (a + BitVec.ofNat 32 j).toNat) ∧ readByte (setMword m a v) x = readByte m x) := by
  by_cases h : ∃ j, j < 4 ∧ x = (a + BitVec.ofNat 32 j).toNat
  · obtain ⟨j, hj, rfl⟩ := h
    exact .inl ⟨j, hj, rfl, readByte_setMword_byteAt m a v j hj⟩
  · have h' : ∀ j, j < 4 → x ≠ (a + BitVec.ofNat 32 j).toNat := fun j hj e => h ⟨j, hj, e⟩
    exact .inr ⟨h', readByte_setMword_of_ne m a v x h'⟩

/-- A store of a byte changes exactly one byte of memory (20_memory.md R105, R107). -/
theorem readByte_storeByte (m : Memory) (a v : Word) (x : Nat) :
    readByte (setMword m (wordAddress a) (insertByte (mword m (wordAddress a)) a v)) x =
      if x = a.toNat then v.extractLsb' 0 8 else readByte m x := by
  rcases readByte_setMword_cases m (wordAddress a) (insertByte (mword m (wordAddress a)) a v) x with
    ⟨j, hj, rfl, h⟩ | ⟨hne, h⟩
  · rw [h, byteAt_insertByte _ _ _ _ hj]
    by_cases hjk : j = byteOffset a
    · rw [if_pos hjk, if_pos (by rw [hjk, wordAddress_add])]
    · rw [if_neg hjk, byteAt_mword _ _ _ hj, if_neg]
      have := wordAddress_add a
      have := byteOffset_lt a
      intro e
      apply hjk
      have e' := BitVec.eq_of_toNat_eq e
      bv_omega
  · rw [h, if_neg]
    intro e
    exact hne _ (byteOffset_lt a) (by rw [e, wordAddress_add])

/-- A store of a halfword at an even address changes exactly its two bytes (20_memory.md R107). -/
theorem readByte_storeHalf (m : Memory) (a v : Word) (x : Nat) (ha : a.getLsbD 0 = false) :
    readByte (setMword m (wordAddress a) (insertHalf (mword m (wordAddress a)) a v)) x =
      if x = a.toNat then v.extractLsb' 8 8
      else if x = (a + 1).toNat then v.extractLsb' 0 8 else readByte m x := by
  have hk := byteOffset_even a ha
  have hw := wordAddress_add a
  rcases readByte_setMword_cases m (wordAddress a) (insertHalf (mword m (wordAddress a)) a v) x with
    ⟨j, hj, rfl, h⟩ | ⟨hne, h⟩
  · rw [h, byteAt_insertHalf _ _ _ _ hj ha, byteAt_mword _ _ _ hj]
    have e0 : ((wordAddress a + BitVec.ofNat 32 j).toNat = a.toNat) ↔ j = byteOffset a := by
      constructor
      · intro e; have e' := BitVec.eq_of_toNat_eq e; bv_omega
      · rintro rfl; rw [hw]
    have e1 : ((wordAddress a + BitVec.ofNat 32 j).toNat = (a + 1).toNat) ↔ j = byteOffset a + 1 := by
      constructor
      · intro e; have e' := BitVec.eq_of_toNat_eq e; bv_omega
      · rintro rfl; rw [wordAddress_add_succ]
    simp only [e0, e1]
  · rw [h, if_neg, if_neg]
    · intro e
      exact hne (byteOffset a + 1) (by omega) (by rw [e, wordAddress_add_succ])
    · intro e
      exact hne _ (byteOffset_lt a) (by rw [e, hw])

end Sys2Proof.Machine
end

