-- ==== Sys2Proof/Laws/State.lean ====
section
/-! SUPPORT. One lemma per field per update of the state, so that no later proof unfolds a record update. -/

namespace Sys2Proof.Machine

namespace State
@[simp] theorem setMword_npc (s : State) (a v : Word) : (s.setMword a v).npc = s.npc := rfl
@[simp] theorem setMword_gas (s : State) (a v : Word) : (s.setMword a v).gas = s.gas := rfl
@[simp] theorem setMword_steps (s : State) (a v : Word) : (s.setMword a v).steps = s.steps := rfl
@[simp] theorem setMword_cache (s : State) (a v : Word) : (s.setMword a v).cache = s.cache := rfl
@[simp] theorem setMword_status (s : State) (a v : Word) : (s.setMword a v).status = s.status := rfl
@[simp] theorem setMword_ds (s : State) (a v : Word) : (s.setMword a v).ds = s.ds := rfl
@[simp] theorem setMword_llbit (s : State) (a v : Word) : (s.setMword a v).llbit = s.llbit := rfl
@[simp] theorem setMword_refused (s : State) (a v : Word) : (s.setMword a v).refused = s.refused := rfl
@[simp] theorem setMword_cfg (s : State) (a v : Word) : (s.setMword a v).cfg = s.cfg := rfl
@[simp] theorem setMword_inputs (s : State) (a v : Word) : (s.setMword a v).inputs = s.inputs := rfl

@[simp] theorem setMword_mem (s : State) (a v : Word) : (s.setMword a v).mem = Memory.setMword s.mem a v := rfl

@[simp] theorem setSlot_npc (s : State) (k : Nat) (v : Word) : (s.setSlot k v).npc = s.npc := rfl
@[simp] theorem setSlot_gas (s : State) (k : Nat) (v : Word) : (s.setSlot k v).gas = s.gas := rfl
@[simp] theorem setSlot_steps (s : State) (k : Nat) (v : Word) : (s.setSlot k v).steps = s.steps := rfl
@[simp] theorem setSlot_cache (s : State) (k : Nat) (v : Word) : (s.setSlot k v).cache = s.cache := rfl
@[simp] theorem setSlot_status (s : State) (k : Nat) (v : Word) : (s.setSlot k v).status = s.status := rfl
@[simp] theorem setSlot_ds (s : State) (k : Nat) (v : Word) : (s.setSlot k v).ds = s.ds := rfl
@[simp] theorem setSlot_llbit (s : State) (k : Nat) (v : Word) : (s.setSlot k v).llbit = s.llbit := rfl
@[simp] theorem setSlot_refused (s : State) (k : Nat) (v : Word) : (s.setSlot k v).refused = s.refused := rfl
@[simp] theorem setSlot_cfg (s : State) (k : Nat) (v : Word) : (s.setSlot k v).cfg = s.cfg := rfl
@[simp] theorem setSlot_inputs (s : State) (k : Nat) (v : Word) : (s.setSlot k v).inputs = s.inputs := rfl

theorem setSlot_mem (s : State) (k : Nat) (v : Word) :
    (s.setSlot k v).mem = Memory.setMword s.mem (slotAddr s.cfg k) v := rfl

@[simp] theorem setReg_npc (s : State) (n : RegNum) (v : Word) : (s.setReg n v).npc = s.npc := by unfold setReg; split <;> rfl
@[simp] theorem setReg_gas (s : State) (n : RegNum) (v : Word) : (s.setReg n v).gas = s.gas := by unfold setReg; split <;> rfl
@[simp] theorem setReg_steps (s : State) (n : RegNum) (v : Word) : (s.setReg n v).steps = s.steps := by unfold setReg; split <;> rfl
@[simp] theorem setReg_cache (s : State) (n : RegNum) (v : Word) : (s.setReg n v).cache = s.cache := by unfold setReg; split <;> rfl
@[simp] theorem setReg_status (s : State) (n : RegNum) (v : Word) : (s.setReg n v).status = s.status := by unfold setReg; split <;> rfl
@[simp] theorem setReg_ds (s : State) (n : RegNum) (v : Word) : (s.setReg n v).ds = s.ds := by unfold setReg; split <;> rfl
@[simp] theorem setReg_llbit (s : State) (n : RegNum) (v : Word) : (s.setReg n v).llbit = s.llbit := by unfold setReg; split <;> rfl
@[simp] theorem setReg_refused (s : State) (n : RegNum) (v : Word) : (s.setReg n v).refused = s.refused := by unfold setReg; split <;> rfl
@[simp] theorem setReg_cfg (s : State) (n : RegNum) (v : Word) : (s.setReg n v).cfg = s.cfg := by unfold setReg; split <;> rfl
@[simp] theorem setReg_inputs (s : State) (n : RegNum) (v : Word) : (s.setReg n v).inputs = s.inputs := by unfold setReg; split <;> rfl

@[simp] theorem setPC_npc (s : State) (v : Word) : (s.setPC v).npc = s.npc := rfl
@[simp] theorem setPC_gas (s : State) (v : Word) : (s.setPC v).gas = s.gas := rfl
@[simp] theorem setPC_steps (s : State) (v : Word) : (s.setPC v).steps = s.steps := rfl
@[simp] theorem setPC_cache (s : State) (v : Word) : (s.setPC v).cache = s.cache := rfl
@[simp] theorem setPC_status (s : State) (v : Word) : (s.setPC v).status = s.status := rfl
@[simp] theorem setPC_ds (s : State) (v : Word) : (s.setPC v).ds = s.ds := rfl
@[simp] theorem setPC_llbit (s : State) (v : Word) : (s.setPC v).llbit = s.llbit := rfl
@[simp] theorem setPC_refused (s : State) (v : Word) : (s.setPC v).refused = s.refused := rfl
@[simp] theorem setPC_cfg (s : State) (v : Word) : (s.setPC v).cfg = s.cfg := rfl
@[simp] theorem setPC_inputs (s : State) (v : Word) : (s.setPC v).inputs = s.inputs := rfl

@[simp] theorem setHI_npc (s : State) (v : Word) : (s.setHI v).npc = s.npc := rfl
@[simp] theorem setHI_gas (s : State) (v : Word) : (s.setHI v).gas = s.gas := rfl
@[simp] theorem setHI_steps (s : State) (v : Word) : (s.setHI v).steps = s.steps := rfl
@[simp] theorem setHI_cache (s : State) (v : Word) : (s.setHI v).cache = s.cache := rfl
@[simp] theorem setHI_status (s : State) (v : Word) : (s.setHI v).status = s.status := rfl
@[simp] theorem setHI_ds (s : State) (v : Word) : (s.setHI v).ds = s.ds := rfl
@[simp] theorem setHI_llbit (s : State) (v : Word) : (s.setHI v).llbit = s.llbit := rfl
@[simp] theorem setHI_refused (s : State) (v : Word) : (s.setHI v).refused = s.refused := rfl
@[simp] theorem setHI_cfg (s : State) (v : Word) : (s.setHI v).cfg = s.cfg := rfl
@[simp] theorem setHI_inputs (s : State) (v : Word) : (s.setHI v).inputs = s.inputs := rfl

@[simp] theorem setLO_npc (s : State) (v : Word) : (s.setLO v).npc = s.npc := rfl
@[simp] theorem setLO_gas (s : State) (v : Word) : (s.setLO v).gas = s.gas := rfl
@[simp] theorem setLO_steps (s : State) (v : Word) : (s.setLO v).steps = s.steps := rfl
@[simp] theorem setLO_cache (s : State) (v : Word) : (s.setLO v).cache = s.cache := rfl
@[simp] theorem setLO_status (s : State) (v : Word) : (s.setLO v).status = s.status := rfl
@[simp] theorem setLO_ds (s : State) (v : Word) : (s.setLO v).ds = s.ds := rfl
@[simp] theorem setLO_llbit (s : State) (v : Word) : (s.setLO v).llbit = s.llbit := rfl
@[simp] theorem setLO_refused (s : State) (v : Word) : (s.setLO v).refused = s.refused := rfl
@[simp] theorem setLO_cfg (s : State) (v : Word) : (s.setLO v).cfg = s.cfg := rfl
@[simp] theorem setLO_inputs (s : State) (v : Word) : (s.setLO v).inputs = s.inputs := rfl

@[simp] theorem setHiLo_npc (s : State) (p : Word × Word) : (s.setHiLo p).npc = s.npc := rfl
@[simp] theorem setHiLo_gas (s : State) (p : Word × Word) : (s.setHiLo p).gas = s.gas := rfl
@[simp] theorem setHiLo_steps (s : State) (p : Word × Word) : (s.setHiLo p).steps = s.steps := rfl
@[simp] theorem setHiLo_cache (s : State) (p : Word × Word) : (s.setHiLo p).cache = s.cache := rfl
@[simp] theorem setHiLo_status (s : State) (p : Word × Word) : (s.setHiLo p).status = s.status := rfl
@[simp] theorem setHiLo_ds (s : State) (p : Word × Word) : (s.setHiLo p).ds = s.ds := rfl
@[simp] theorem setHiLo_llbit (s : State) (p : Word × Word) : (s.setHiLo p).llbit = s.llbit := rfl
@[simp] theorem setHiLo_refused (s : State) (p : Word × Word) : (s.setHiLo p).refused = s.refused := rfl
@[simp] theorem setHiLo_cfg (s : State) (p : Word × Word) : (s.setHiLo p).cfg = s.cfg := rfl
@[simp] theorem setHiLo_inputs (s : State) (p : Word × Word) : (s.setHiLo p).inputs = s.inputs := rfl

@[simp] theorem setLlbit_npc (s : State) (b : Bool) : (s.setLlbit b).npc = s.npc := rfl
@[simp] theorem setLlbit_gas (s : State) (b : Bool) : (s.setLlbit b).gas = s.gas := rfl
@[simp] theorem setLlbit_steps (s : State) (b : Bool) : (s.setLlbit b).steps = s.steps := rfl
@[simp] theorem setLlbit_cache (s : State) (b : Bool) : (s.setLlbit b).cache = s.cache := rfl
@[simp] theorem setLlbit_status (s : State) (b : Bool) : (s.setLlbit b).status = s.status := rfl
@[simp] theorem setLlbit_ds (s : State) (b : Bool) : (s.setLlbit b).ds = s.ds := rfl
@[simp] theorem setLlbit_refused (s : State) (b : Bool) : (s.setLlbit b).refused = s.refused := rfl
@[simp] theorem setLlbit_cfg (s : State) (b : Bool) : (s.setLlbit b).cfg = s.cfg := rfl
@[simp] theorem setLlbit_inputs (s : State) (b : Bool) : (s.setLlbit b).inputs = s.inputs := rfl

@[simp] theorem setLlbit_llbit (s : State) (b : Bool) : (s.setLlbit b).llbit = b := rfl
@[simp] theorem setLlbit_mem (s : State) (b : Bool) : (s.setLlbit b).mem = s.mem := rfl

end State

@[simp] theorem commit_gas (ct : Bool) (c : Ctl) (s : State) : (commit ct c s).gas = s.gas := rfl
@[simp] theorem commit_steps (ct : Bool) (c : Ctl) (s : State) : (commit ct c s).steps = s.steps := rfl
@[simp] theorem commit_cache (ct : Bool) (c : Ctl) (s : State) : (commit ct c s).cache = s.cache := rfl
@[simp] theorem commit_status (ct : Bool) (c : Ctl) (s : State) : (commit ct c s).status = s.status := rfl
@[simp] theorem commit_llbit (ct : Bool) (c : Ctl) (s : State) : (commit ct c s).llbit = s.llbit := rfl
@[simp] theorem commit_refused (ct : Bool) (c : Ctl) (s : State) : (commit ct c s).refused = s.refused := rfl
@[simp] theorem commit_cfg (ct : Bool) (c : Ctl) (s : State) : (commit ct c s).cfg = s.cfg := rfl
@[simp] theorem commit_inputs (ct : Bool) (c : Ctl) (s : State) : (commit ct c s).inputs = s.inputs := rfl
@[simp] theorem commit_npc (ct : Bool) (c : Ctl) (s : State) : (commit ct c s).npc = (c.nextPair s.npc).2 := rfl
@[simp] theorem commit_ds (ct : Bool) (c : Ctl) (s : State) :
    (commit ct c s).ds = (ct && !(c == .annul)) := rfl
theorem commit_mem (ct : Bool) (c : Ctl) (s : State) :
    (commit ct c s).mem = (s.setPC (c.nextPair s.npc).1).mem := rfl

@[simp] theorem charge_npc (i : Instr) (s : State) : (charge i s).npc = s.npc := rfl
@[simp] theorem charge_steps (i : Instr) (s : State) : (charge i s).steps = s.steps := rfl
@[simp] theorem charge_cache (i : Instr) (s : State) : (charge i s).cache = s.cache := rfl
@[simp] theorem charge_status (i : Instr) (s : State) : (charge i s).status = s.status := rfl
@[simp] theorem charge_ds (i : Instr) (s : State) : (charge i s).ds = s.ds := rfl
@[simp] theorem charge_llbit (i : Instr) (s : State) : (charge i s).llbit = s.llbit := rfl
@[simp] theorem charge_refused (i : Instr) (s : State) : (charge i s).refused = s.refused := rfl
@[simp] theorem charge_cfg (i : Instr) (s : State) : (charge i s).cfg = s.cfg := rfl
@[simp] theorem charge_inputs (i : Instr) (s : State) : (charge i s).inputs = s.inputs := rfl
@[simp] theorem charge_gas (i : Instr) (s : State) : (charge i s).gas = s.gas - gasCostOf s i := rfl
@[simp] theorem charge_mem (i : Instr) (s : State) : (charge i s).mem = s.mem := rfl

end Sys2Proof.Machine
end

