-- ==== Sys2Proof/Laws/Ops.lean ====
section
/-! SUPPORT. What the shared operations can do, said once: the Register File View, the commit of a step, and the
outcomes of the shared shapes of a meaning. -/

namespace Sys2Proof.Machine

theorem slotAddr_far (c : Config) (j k : Nat) (hj : j < 35) (hk : k < 35) (h : j ≠ k) :
    4 ≤ (slotAddr c j - slotAddr c k).toNat := by
  unfold slotAddr
  bv_omega

namespace State

@[simp] theorem slot_setSlot_self (s : State) (k : Nat) (v : Word) : (s.setSlot k v).slot k = v :=
  Memory.mword_setMword _ _ _

theorem slot_setSlot_ne (s : State) (j k : Nat) (v : Word) (hj : j < 35) (hk : k < 35) (h : j ≠ k) :
    (s.setSlot k v).slot j = s.slot j :=
  Memory.mword_setMword_of_far _ _ _ _ (slotAddr_far _ _ _ hj hk h) (slotAddr_far _ _ _ hk hj h.symm)

theorem regNum_toNat_lt (n : RegNum) : n.toNat < 32 := n.isLt

theorem slot_setReg_self (s : State) (n : RegNum) (v : Word) (h : n ≠ 0) : (s.setReg n v).slot n.toNat = v := by
  rw [setReg, if_neg h, slot_setSlot_self]

theorem slot_setReg_ne (s : State) (n : RegNum) (v : Word) (k : Nat) (hk : k < 35) (h : k ≠ n.toNat) :
    (s.setReg n v).slot k = s.slot k := by
  unfold setReg
  split
  · rfl
  · exact slot_setSlot_ne _ _ _ _ hk (by have := n.isLt; omega) h

/-- Register 0 reads 0 (10_state.md R54). -/
@[simp] theorem getReg_zero (s : State) : s.getReg 0 = 0 := by simp [getReg]

/-- A write of register 0 has no effect (10_state.md R54). -/
@[simp] theorem setReg_zero (s : State) (v : Word) : s.setReg 0 v = s := by simp [setReg]

@[simp] theorem getReg_zero_ofNat (s : State) : s.getReg 0#5 = 0 := getReg_zero s
@[simp] theorem setReg_zero_ofNat (s : State) (v : Word) : s.setReg 0#5 v = s := setReg_zero s v

theorem getReg_of_ne (s : State) (n : RegNum) (h : n ≠ 0) : s.getReg n = s.slot n.toNat := by
  rw [getReg, if_neg h]

/-- Read after write of a general register (10_state.md R55, R56). -/
theorem getReg_setReg (s : State) (n k : RegNum) (v : Word) :
    (s.setReg n v).getReg k = if k = n ∧ n ≠ 0 then v else s.getReg k := by
  by_cases hk : k = 0
  · subst hk
    rw [getReg_zero, getReg_zero, if_neg]
    rintro ⟨h, h'⟩; exact h' h.symm
  · rw [getReg_of_ne _ _ hk, getReg_of_ne _ _ hk]
    by_cases hkn : k = n
    · subst hkn; rw [slot_setReg_self _ _ _ hk, if_pos ⟨rfl, hk⟩]
    · rw [if_neg (fun h => hkn h.1), slot_setReg_ne _ _ _ _ (by have := k.isLt; omega)]
      exact fun h => hkn (BitVec.eq_of_toNat_eq h)

theorem getReg_setSlot (s : State) (k : RegNum) (j : Nat) (v : Word) (h : 32 ≤ j) (hj : j < 35) :
    (s.setSlot j v).getReg k = s.getReg k := by
  unfold getReg
  split
  · rfl
  · exact slot_setSlot_ne _ _ _ _ (by have := k.isLt; omega) hj (by have := k.isLt; omega)

@[simp] theorem getReg_setPC (s : State) (k : RegNum) (v : Word) : (s.setPC v).getReg k = s.getReg k :=
  getReg_setSlot _ _ _ _ (by decide) (by decide)
@[simp] theorem getReg_setHI (s : State) (k : RegNum) (v : Word) : (s.setHI v).getReg k = s.getReg k :=
  getReg_setSlot _ _ _ _ (by decide) (by decide)
@[simp] theorem getReg_setLO (s : State) (k : RegNum) (v : Word) : (s.setLO v).getReg k = s.getReg k :=
  getReg_setSlot _ _ _ _ (by decide) (by decide)

@[simp] theorem getPC_setPC (s : State) (v : Word) : (s.setPC v).getPC = v := slot_setSlot_self _ _ _
@[simp] theorem getHI_setHI (s : State) (v : Word) : (s.setHI v).getHI = v := slot_setSlot_self _ _ _
@[simp] theorem getLO_setLO (s : State) (v : Word) : (s.setLO v).getLO = v := slot_setSlot_self _ _ _
@[simp] theorem getHI_setPC (s : State) (v : Word) : (s.setPC v).getHI = s.getHI :=
  slot_setSlot_ne _ _ _ _ (by decide) (by decide) (by decide)
@[simp] theorem getLO_setPC (s : State) (v : Word) : (s.setPC v).getLO = s.getLO :=
  slot_setSlot_ne _ _ _ _ (by decide) (by decide) (by decide)
@[simp] theorem getPC_setHI (s : State) (v : Word) : (s.setHI v).getPC = s.getPC :=
  slot_setSlot_ne _ _ _ _ (by decide) (by decide) (by decide)
@[simp] theorem getLO_setHI (s : State) (v : Word) : (s.setHI v).getLO = s.getLO :=
  slot_setSlot_ne _ _ _ _ (by decide) (by decide) (by decide)
@[simp] theorem getPC_setLO (s : State) (v : Word) : (s.setLO v).getPC = s.getPC :=
  slot_setSlot_ne _ _ _ _ (by decide) (by decide) (by decide)
@[simp] theorem getHI_setLO (s : State) (v : Word) : (s.setLO v).getHI = s.getHI :=
  slot_setSlot_ne _ _ _ _ (by decide) (by decide) (by decide)
@[simp] theorem getPC_setReg (s : State) (n : RegNum) (v : Word) : (s.setReg n v).getPC = s.getPC :=
  slot_setReg_ne _ _ _ _ (by decide) (by have := n.isLt; simp [Config.slotPC]; omega)
@[simp] theorem getHI_setReg (s : State) (n : RegNum) (v : Word) : (s.setReg n v).getHI = s.getHI :=
  slot_setReg_ne _ _ _ _ (by decide) (by have := n.isLt; simp [Config.slotHI]; omega)
@[simp] theorem getLO_setReg (s : State) (n : RegNum) (v : Word) : (s.setReg n v).getLO = s.getLO :=
  slot_setReg_ne _ _ _ _ (by decide) (by have := n.isLt; simp [Config.slotLO]; omega)
@[simp] theorem getHI_setHiLo (s : State) (p : Word × Word) : (s.setHiLo p).getHI = p.1 := by
  simp [setHiLo]
@[simp] theorem getLO_setHiLo (s : State) (p : Word × Word) : (s.setHiLo p).getLO = p.2 := by
  simp [setHiLo]
@[simp] theorem getPC_setHiLo (s : State) (p : Word × Word) : (s.setHiLo p).getPC = s.getPC := by
  simp [setHiLo]
@[simp] theorem getReg_setHiLo (s : State) (p : Word × Word) (k : RegNum) :
    (s.setHiLo p).getReg k = s.getReg k := by
  simp [setHiLo]

/-- A write of slot `k` changes no byte outside the slot. -/
theorem readByte_setSlot (s : State) (k : Nat) (v : Word) (x : Nat) (h : ¬ InSlot s.cfg k x) :
    Memory.readByte (s.setSlot k v).mem x = Memory.readByte s.mem x :=
  Memory.readByte_setMword_of_ne _ _ _ _ fun j hj e => h ⟨j, hj, e⟩

theorem readByte_setReg (s : State) (n : RegNum) (v : Word) (x : Nat) (h : ¬ RegBytes s.cfg n x) :
    Memory.readByte (s.setReg n v).mem x = Memory.readByte s.mem x := by
  unfold setReg
  split
  · rfl
  · rename_i hn
    exact readByte_setSlot _ _ _ _ fun hx => h ⟨hn, hx⟩

theorem readByte_setHiLo (s : State) (p : Word × Word) (x : Nat) (h : ¬ HiLoBytes s.cfg x) :
    Memory.readByte (s.setHiLo p).mem x = Memory.readByte s.mem x := by
  have h1 := readByte_setSlot (s.setHI p.1) Config.slotLO p.2 x fun hx => h (.inr hx)
  have h2 := readByte_setSlot s Config.slotHI p.1 x fun hx => h (.inl hx)
  exact h1.trans h2

end State

open State

@[simp] theorem commit_getReg (ct : Bool) (c : Ctl) (s : State) (k : RegNum) :
    (commit ct c s).getReg k = s.getReg k := getReg_setPC s k _
@[simp] theorem commit_getHI (ct : Bool) (c : Ctl) (s : State) : (commit ct c s).getHI = s.getHI :=
  getHI_setPC s _
@[simp] theorem commit_getLO (ct : Bool) (c : Ctl) (s : State) : (commit ct c s).getLO = s.getLO :=
  getLO_setPC s _
@[simp] theorem commit_getPC (ct : Bool) (c : Ctl) (s : State) :
    (commit ct c s).getPC = (c.nextPair s.npc).1 := getPC_setPC s _

theorem commit_readByte (ct : Bool) (c : Ctl) (s : State) (x : Nat) (h : ¬ InSlot s.cfg Config.slotPC x) :
    Memory.readByte (commit ct c s).mem x = Memory.readByte s.mem x :=
  readByte_setSlot s _ _ x h

/-- The commit of a register write, whatever the control outcome. -/
theorem jumpEffect_commit (ct : Bool) (c : Ctl) (s : State) (n : RegNum) (v : Word) :
    JumpEffect s n v (c.nextPair s.npc).1 (c.nextPair s.npc).2 (ct && !(c == .annul))
      (commit ct c (s.setReg n v)) where
  gas := by simp
  steps := by simp
  status := by simp
  refused := by simp
  cfg := by simp
  inputs := by simp
  cache := by simp
  llbit := by simp
  regs k := by simp [getReg_setReg]
  hi := by simp
  lo := by simp
  pc := by simp
  npc := by simp
  ds := by simp
  bytes x hx hw := by
    rw [commit_readByte _ _ _ _ (by simpa using hx), readByte_setReg _ _ _ _ hw]

/-- The commit of a sequential register write. -/
theorem regEffect_commit (s : State) (n : RegNum) (v : Word) :
    RegEffect s n v (commit false .seq (s.setReg n v)) :=
  let h := jumpEffect_commit false .seq s n v
  { h with pc := h.pc, npc := h.npc, ds := h.ds }

/-- A sequential instruction that writes nothing. -/
theorem regEffect_commit_self (s : State) : RegEffect s 0 0 (commit false .seq s) := by
  have h := regEffect_commit s 0 0
  rwa [setReg_zero] at h

/-- The commit of a sequential write of HI and LO. -/
theorem hiLoEffect_commit (s : State) (p : Word × Word) :
    HiLoEffect s p.1 p.2 (commit false .seq (s.setHiLo p)) where
  gas := by simp
  steps := by simp
  status := by simp
  refused := by simp
  cfg := by simp
  inputs := by simp
  cache := by simp
  llbit := by simp
  regs k := by simp
  hi := by simp
  lo := by simp
  pc := by simp [Ctl.nextPair]
  npc := by simp [Ctl.nextPair]
  ds := by simp
  bytes x hx hw := by
    rw [commit_readByte _ _ _ _ (by simpa using hx), readByte_setHiLo _ _ _ hw]

/-- The commit of a sequential write of HI alone. -/
theorem hiEffect_commit (s : State) (v : Word) : HiLoEffect s v s.getLO (commit false .seq (s.setHI v)) where
  gas := by simp
  steps := by simp
  status := by simp
  refused := by simp
  cfg := by simp
  inputs := by simp
  cache := by simp
  llbit := by simp
  regs k := by simp
  hi := by simp
  lo := by simp
  pc := by simp [Ctl.nextPair]
  npc := by simp [Ctl.nextPair]
  ds := by simp
  bytes x hx hw := by
    rw [commit_readByte _ _ _ _ (by simpa using hx)]
    exact readByte_setSlot _ _ _ _ fun h => hw (.inl h)

/-- The commit of a sequential write of LO alone. -/
theorem loEffect_commit (s : State) (v : Word) : HiLoEffect s s.getHI v (commit false .seq (s.setLO v)) where
  gas := by simp
  steps := by simp
  status := by simp
  refused := by simp
  cfg := by simp
  inputs := by simp
  cache := by simp
  llbit := by simp
  regs k := by simp
  hi := by simp
  lo := by simp
  pc := by simp [Ctl.nextPair]
  npc := by simp [Ctl.nextPair]
  ds := by simp
  bytes x hx hw := by
    rw [commit_readByte _ _ _ _ (by simpa using hx)]
    exact readByte_setSlot _ _ _ _ fun h => hw (.inr h)

/-- An ordinary branch, with or without a link. -/
theorem branch_completes (i : Instr) (cond : Bool) (imm : Imm16) (s : State) (n : RegNum)
    (h : exec i s = branch cond imm s (link n s)) :
    Completes i s (BranchEffect s n cond (branchTarget s.getPC imm)) := by
  refine ⟨_, h, ?_⟩
  have := jumpEffect_commit true (if cond then .branchTo (branchTarget s.getPC imm) else .seq) s n
    (linkValue s.getPC)
  cases cond <;> exact this

theorem branch_completes_nolink (i : Instr) (cond : Bool) (imm : Imm16) (s : State)
    (h : exec i s = branch cond imm s s) :
    Completes i s (BranchEffect s 0 cond (branchTarget s.getPC imm)) :=
  branch_completes i cond imm s 0 (by rw [link, setReg_zero]; exact h)

/-- A branch-likely, with or without a link. -/
theorem likely_completes (i : Instr) (cond : Bool) (imm : Imm16) (s : State) (n : RegNum)
    (h : exec i s = branchLikely cond imm s (link n s)) :
    Completes i s (LikelyEffect s n cond (branchTarget s.getPC imm)) := by
  refine ⟨_, h, ?_⟩
  have := jumpEffect_commit true (if cond then .branchTo (branchTarget s.getPC imm) else .annul) s n
    (linkValue s.getPC)
  cases cond <;> exact this

theorem likely_completes_nolink (i : Instr) (cond : Bool) (imm : Imm16) (s : State)
    (h : exec i s = branchLikely cond imm s s) :
    Completes i s (LikelyEffect s 0 cond (branchTarget s.getPC imm)) :=
  likely_completes i cond imm s 0 (by rw [link, setReg_zero]; exact h)

/-- A jump, with or without a link. -/
theorem jump_completes (i : Instr) (T : Word) (s : State) (n : RegNum) (h : exec i s = jump T (link n s)) :
    Completes i s (JumpEffect s n (s.getPC + 8) s.npc T true) :=
  ⟨_, h, jumpEffect_commit true (.branchTo T) s n (linkValue s.getPC)⟩

theorem jump_completes_nolink (i : Instr) (T : Word) (s : State) (h : exec i s = jump T s) :
    Completes i s (JumpEffect s 0 (s.getPC + 8) s.npc T true) :=
  jump_completes i T s 0 (by rw [link, setReg_zero]; exact h)

/-- A sequential register write completes. -/
theorem reg_completes (i : Instr) (s : State) (n : RegNum) (v : Word)
    (h : exec i s = commitSeq (s.setReg n v)) : Completes i s (RegEffect s n v) :=
  ⟨_, h, regEffect_commit s n v⟩

/-- A sequential write of HI and LO completes. -/
theorem hiLo_completes (i : Instr) (s : State) (p : Word × Word)
    (h : exec i s = commitSeq (s.setHiLo p)) : Completes i s (HiLoEffect s p.1 p.2) :=
  ⟨_, h, hiLoEffect_commit s p⟩

/-- The error state is the state itself but for its status. -/
theorem takeError_eq (e : EngineError) (s : State) : takeError e s = .next (errorState e s) := rfl

/-- A signed add or subtract either writes its exact result or overflows. -/
theorem signedResult_eq (n : RegNum) (r : Int) (s : State) :
    signedResult n r s = if -2 ^ 31 ≤ r ∧ r < 2 ^ 31 then commitSeq (s.setReg n (BitVec.ofInt 32 r))
      else .next (errorState (.arithmeticOverflow s.getPC) s) := by
  unfold signedResult fitsSigned
  simp only [decide_eq_true_eq, takeError_eq]

/-- A meaning that is a signed add or subtract. -/
theorem signedResult_spec (i : Instr) (s : State) (n : RegNum) (r : Int) (h : exec i s = signedResult n r s) :
    SignedResult i s n r := by
  rw [signedResult_eq] at h
  refine ⟨fun hr => reg_completes i s n _ (by rw [h, if_pos hr]), fun hr => ?_⟩
  rw [h, if_neg (by omega)]

/-- A sequential register write completes, with its value rewritten. -/
theorem reg_completes_eq {i : Instr} {s : State} {n : RegNum} {v v' : Word}
    (h : exec i s = commitSeq (s.setReg n v')) (hv : v' = v) : Completes i s (RegEffect s n v) :=
  reg_completes i s n v (hv ▸ h)

/-- A register write under a condition completes. -/
theorem reg_completes_if {i : Instr} {s : State} {n : RegNum} {v : Word} {p : Prop} [Decidable p]
    (h : exec i s = commitSeq (if p then s.setReg n v else s)) :
    Completes i s (RegEffect s (if p then n else 0) v) :=
  reg_completes i s _ v (by rw [h]; split <;> simp)

/-- How a sequential instruction with accesses can end. -/
theorem finish_next {α : Type} (s t : State) (r : Res α) (k : α → State) (h : finish s r k = .next t) :
    (∃ a, r = .ok a ∧ t = commit false .seq (k a)) ∨ (∃ e, r = .error e ∧ t = errorState e s) := by
  cases r with
  | ok a => simp only [finish, commitSeq, Host.Outcome.next.injEq] at h; exact .inl ⟨a, rfl, h.symm⟩
  | error e => simp only [finish, takeError, Host.Outcome.next.injEq] at h; exact .inr ⟨e, rfl, h.symm⟩
  | refuse q => simp [finish] at h

/-- The decided default of `P_HALTED` (40_step_cycle.md R212). -/
theorem haltedNow_sentinel (s : State) (h : s.cfg.halting = .sentinel) :
    haltedNow s = (s.mword s.cfg.haltSentinel != s.cfg.haltPending) := by
  simp only [haltedNow, h]

/-- Another halting predicate is one of the free ones (log 12). -/
theorem haltedNow_other (s : State) (n : Nat) (h : s.cfg.halting = .other n) :
    haltedNow s = Config.haltedBy n s.mem := by
  simp only [haltedNow, h]

/-- The decided default of `P_ORACLE_KEYOF` (20_memory.md R119). -/
theorem oracleKey_keyWords (s : State) (h : s.cfg.oracleKeyOf = .keyWords) :
    oracleKey s = keyBytes s.mem s.cfg.oracleKeyBase s.cfg.oracleKeyWords := by
  simp only [oracleKey, h]

/-- Another key function is one of the free ones (log 13). -/
theorem oracleKey_other (s : State) (n : Nat) (h : s.cfg.oracleKeyOf = .other n) :
    oracleKey s = Config.keyBy n s.mem := by
  simp only [oracleKey, h]

end Sys2Proof.Machine
end

