-- ==== Sys2Proof/Laws/Access.lean ====
section
/-! SUPPORT. What the routed accesses can do (20_memory.md R111 to R114, R121), and the writes one instruction is
made of. -/

namespace Sys2Proof.Machine

open Memory

theorem inWords_iff (base wa : Word) (n : Nat) :
    inWords base n wa = true ↔ (wa - base).toNat % 4 = 0 ∧ (wa - base).toNat < 4 * n := by
  simp [inWords]

/-- The parts of a valid parameter set the proofs use. -/
theorem regBase_aligned (c : Config) (h : c.wf = true) : c.regBase.toNat % 4 = 0 := by
  simp only [Config.wf, Config.wfAligned, WordRange.aligned, Config.regRange, Bool.and_eq_true, beq_iff_eq] at h
  exact h.1.1.1.1.1.1.1.1.1

theorem classOf_reg (c : Config) (wa : Word) :
    classOf c wa = .reg ↔ inWords c.regBase Config.slots wa = true := by
  unfold classOf
  split
  · simp [*]
  · rename_i h
    simp only [h, iff_false]
    split
    · simp
    · split
      · simp
      · split <;> simp

theorem classOf_not_reg (c : Config) (wa : Word) (h : classOf c wa ≠ .reg) :
    inWords c.regBase Config.slots wa = false := by
  rw [Ne, classOf_reg] at h
  simpa using h

/-- A word outside the Register File View is far from every slot. -/
theorem word_far_from_slot (c : Config) (wa : Word) (k : Nat) (hb : c.regBase.toNat % 4 = 0)
    (hwa : wa.toNat % 4 = 0) (hc : inWords c.regBase Config.slots wa = false) (hk : k < 35) :
    4 ≤ (wa - slotAddr c k).toNat ∧ 4 ≤ (slotAddr c k - wa).toNat := by
  have h : ¬ ((wa - c.regBase).toNat % 4 = 0 ∧ (wa - c.regBase).toNat < 4 * 35) := by
    rw [← inWords_iff, show (35 : Nat) = Config.slots from rfl, hc]; decide
  unfold slotAddr
  constructor <;> bv_omega

theorem slot_setMword_plain (s : State) (wa v : Word) (k : Nat) (hb : s.cfg.regBase.toNat % 4 = 0)
    (hwa : wa.toNat % 4 = 0) (hc : inWords s.cfg.regBase Config.slots wa = false) (hk : k < 35) :
    (s.setMword wa v).slot k = s.slot k :=
  have h := word_far_from_slot s.cfg wa k hb hwa hc hk
  mword_setMword_of_far _ _ _ _ h.2 h.1

/-- A byte of a word outside the Register File View lies in no slot. -/
theorem not_inSlot_of_word (c : Config) (wa : Word) (j k : Nat) (hb : c.regBase.toNat % 4 = 0)
    (hwa : wa.toNat % 4 = 0) (hc : inWords c.regBase Config.slots wa = false) (hk : k < 35) (hj : j < 4) :
    ¬ InSlot c k (wa + BitVec.ofNat 32 j).toNat := by
  rintro ⟨l, hl, e⟩
  have h := word_far_from_slot c wa k hb hwa hc hk
  have e' := BitVec.eq_of_toNat_eq e
  generalize slotAddr c k = q at *
  bv_omega

/-- The commit of a sequential store, from what its memory holds. -/
theorem storeEffect_of_mem (s s1 : State) (a : Word) (n : Nat) (val : Nat → Byte)
    (hs : s1 = { s with mem := s1.mem }) (hslot : ∀ k, k < 35 → s1.slot k = s.slot k)
    (h1 : ∀ k, k < n → readByte s1.mem (a + BitVec.ofNat 32 k).toNat = val k)
    (h2 : ∀ x, ¬ InBytes a n x → readByte s1.mem x = readByte s.mem x)
    (h3 : ∀ k, k < n → ¬ InSlot s.cfg Config.slotPC (a + BitVec.ofNat 32 k).toNat) :
    StoreEffect s a n val (commit false .seq s1) where
  gas := by rw [hs]; rfl
  steps := by rw [hs]; rfl
  status := by rw [hs]; rfl
  refused := by rw [hs]; rfl
  cfg := by rw [hs]; rfl
  inputs := by rw [hs]; rfl
  cache := by rw [hs]; rfl
  llbit := by rw [hs]; rfl
  pc := by rw [commit_getPC, hs]; rfl
  npc := by rw [commit_npc, hs]; rfl
  ds := by simp
  regs k := by
    rw [commit_getReg]
    unfold State.getReg
    split
    · rfl
    · exact hslot _ (by have := k.isLt; omega)
  hi := by rw [commit_getHI]; exact hslot _ (by decide)
  lo := by rw [commit_getLO]; exact hslot _ (by decide)
  stored k hk := by
    rw [commit_readByte _ _ _ _ (by rw [hs]; exact h3 k hk), h1 k hk]
  bytes x hx hn := by
    rw [commit_readByte _ _ _ _ (by rw [hs]; exact hx), h2 x hn]

/-- A plain store replaces one word of memory. -/
theorem routeWrite_plain (wa : Word) (f : Word → Word) (s : State)
    (h : classOf s.cfg wa = .key ∨ classOf s.cfg wa = .plain) :
    routeWrite wa f s = .ok (s.setMword wa (f (s.mword wa))) := by
  rcases h with h | h <;> simp [routeWrite, h]

/-- A plain load reads one word of memory and changes nothing. -/
theorem routeRead_plain (lw : Bool) (wa : Word) (s : State) (h : classOf s.cfg wa ≠ .reg)
    (h' : classOf s.cfg wa ≠ .trig) : routeRead lw wa s = .ok (s.mword wa, s) := by
  cases hc : classOf s.cfg wa <;> simp_all [routeRead]

/-- The writes one instruction is made of, from the start state on. `lw` allows the oracle trigger, `ll` the
load-linked bit, and `sl` lists the slots from 32 on that the instruction's own rule may write. -/
inductive Writes (lw ll : Bool) (sl : List Nat) (s : State) : State → Prop where
  | none : Writes lw ll sl s s
  | reg (u : State) (n : RegNum) (v : Word) : Writes lw ll sl s u → Writes lw ll sl s (u.setReg n v)
  | slot (u : State) (k : Nat) (v : Word) : 32 ≤ k → k < 35 →
      (k ∈ sl ∨ s.cfg.regfileData = .aliased) → Writes lw ll sl s u → Writes lw ll sl s (u.setSlot k v)
  | plain (u : State) (wa v : Word) : wa.toNat % 4 = 0 →
      (classOf s.cfg wa = .key ∨ classOf s.cfg wa = .plain) → Writes lw ll sl s u → Writes lw ll sl s (u.setMword wa v)
  | oracle (u : State) (key : Key) (bytes : List Byte) (ws : List Word) : lw = true →
      oracleAnswer s key = some bytes → ws.length = s.cfg.oracleWinWords → u.cache = s.cache →
      Writes lw ll sl s u → Writes lw ll sl s
        { u with mem := setMwords u.mem s.cfg.oracleWinBase ws, cache := cachePut key bytes u.cache }
  | llbit (u : State) : ll = true → Writes lw ll sl s u → Writes lw ll sl s (u.setLlbit true)

namespace Writes

variable {lw ll : Bool} {sl : List Nat} {s t : State}

theorem loopKept (h : Writes lw ll sl s t) : LoopKept s t := by
  induction h with
  | none => exact ⟨rfl, rfl, rfl, rfl, rfl, rfl⟩
  | reg u n v _ ih => obtain ⟨a, b, c, d, e, f⟩ := ih; constructor <;> simpa
  | slot u k v _ _ _ _ ih => obtain ⟨a, b, c, d, e, f⟩ := ih; constructor <;> simpa
  | plain u wa v _ _ _ ih => obtain ⟨a, b, c, d, e, f⟩ := ih; constructor <;> simpa
  | oracle u key bytes ws _ _ _ _ _ ih => obtain ⟨a, b, c, d, e, f⟩ := ih; constructor <;> simpa
  | llbit u _ _ ih => obtain ⟨a, b, c, d, e, f⟩ := ih; constructor <;> simpa

theorem npc (h : Writes lw ll sl s t) : t.npc = s.npc := by
  induction h <;> simp_all

theorem mem_wf (h : Writes lw ll sl s t) (hm : Memory.wf s.mem = true) : Memory.wf t.mem = true := by
  induction h with
  | none => exact hm
  | reg u n v _ ih => unfold State.setReg; split; exact ih; exact wf_setMword _ _ _ ih
  | slot u k v _ _ _ _ ih => exact wf_setMword _ _ _ ih
  | plain u wa v _ _ _ ih => exact wf_setMword _ _ _ ih
  | oracle u key bytes ws _ _ _ _ _ ih => exact wf_setMwords _ _ _ ih
  | llbit u _ _ ih => exact ih

theorem cache_kept (h : Writes false ll sl s t) : t.cache = s.cache := by
  induction h with
  | none => rfl
  | reg u n v _ ih => simpa
  | slot u k v _ _ _ _ ih => simpa
  | plain u wa v _ _ _ ih => simpa
  | oracle u key bytes ws h => cases h
  | llbit u _ _ ih => simpa

theorem llbit_kept (h : Writes lw false sl s t) : t.llbit = s.llbit := by
  induction h with
  | none => rfl
  | reg u n v _ ih => simpa
  | slot u k v _ _ _ _ ih => simpa
  | plain u wa v _ _ _ ih => simpa
  | oracle u key bytes ws _ _ _ _ _ ih => exact ih
  | llbit u h => cases h

theorem llbit_mono (h : Writes lw ll sl s t) (hl : s.llbit = true) : t.llbit = true := by
  induction h with
  | none => exact hl
  | reg u n v _ ih => simpa
  | slot u k v _ _ _ _ ih => simpa
  | plain u wa v _ _ _ ih => simpa
  | oracle u key bytes ws _ _ _ _ _ ih => exact ih
  | llbit u h => rfl

end Writes

theorem assoc_cons {α β : Type} [DecidableEq α] (k k' : α) (v : β) (l : List (α × β)) :
    assoc k ((k', v) :: l) = if k' = k then some v else assoc k l := rfl

/-- After a trigger the cache holds the key's answer and every earlier entry (20_memory.md R121). -/
theorem assoc_cachePut (key k : Key) (bytes : List Byte) (cache : List (Key × List Byte)) :
    assoc k (cachePut key bytes cache) =
      if k = key then (match assoc key cache with | some b => some b | none => some bytes)
      else assoc k cache := by
  unfold cachePut
  cases h : assoc key cache with
  | some b =>
    simp only
    split
    · rename_i e; rw [e, h]
    · rfl
  | none =>
    simp only [assoc_cons]
    by_cases e : key = k
    · simp [e]
    · rw [if_neg e, if_neg (Ne.symm e)]

theorem Writes.cache_agrees {lw ll : Bool} {sl : List Nat} {s t : State} (h : Writes lw ll sl s t)
    (hc : ∀ key bytes, assoc key s.cache = some bytes → assoc key s.inputs.oracle = some bytes) :
    ∀ key bytes, assoc key t.cache = some bytes → assoc key s.inputs.oracle = some bytes := by
  induction h with
  | none => exact hc
  | reg u n v _ ih => simpa using ih
  | slot u k v _ _ _ _ ih => simpa using ih
  | plain u wa v _ _ _ ih => simpa using ih
  | oracle u key bytes ws _ ha _ huc _ ih =>
    intro k b hk
    simp only [assoc_cachePut, huc] at hk
    split at hk
    · rename_i e
      subst e
      unfold oracleAnswer at ha
      cases hs : assoc k s.cache with
      | some b' => rw [hs] at hk; simp only [Option.some.injEq] at hk; exact hk ▸ hc _ _ hs
      | none =>
        rw [hs] at hk ha
        simp only [Option.some.injEq] at hk ha
        rw [ha, hk]
    · exact hc _ _ hk
  | llbit u _ _ ih => simpa using ih

theorem oracleTrigger_writes (ll : Bool) (sl : List Nat) (s s1 : State) (w : Word) (h : oracleTrigger s = .ok (w, s1)) :
    Writes true ll sl s s1 := by
  unfold oracleTrigger at h
  cases ha : oracleAnswer s (oracleKey s) with
  | none => simp [ha] at h
  | some bytes =>
    cases hl : oracleLayout s.cfg bytes with
    | none => simp [ha, hl] at h
    | some ws =>
      simp only [ha, hl, Res.ok.injEq, Prod.mk.injEq] at h
      rw [← h.2]
      refine .oracle s _ _ ws rfl ha ?_ rfl .none
      unfold oracleLayout at hl
      split at hl
      · split at hl
        · simp only [Option.some.injEq] at hl; rw [← hl]; assumption
        · cases hl
      · cases hl

theorem routeRead_writes (lw ll : Bool) (sl : List Nat) (wa : Word) (s s1 : State) (w : Word)
    (h : routeRead lw wa s = .ok (w, s1)) : Writes lw ll sl s s1 := by
  unfold routeRead at h
  cases hc : classOf s.cfg wa with
  | reg =>
    simp only [hc] at h
    cases hr : s.cfg.regfileData <;> simp only [hr, Res.ok.injEq, Prod.mk.injEq, reduceCtorEq] at h
    exact h.2 ▸ .none
  | trig =>
    simp only [hc] at h
    cases lw with
    | false => simp at h
    | true => exact oracleTrigger_writes ll sl s s1 w (by simpa using h)
  | key => simp only [hc, Res.ok.injEq, Prod.mk.injEq] at h; exact h.2 ▸ .none
  | win => simp only [hc, Res.ok.injEq, Prod.mk.injEq] at h; exact h.2 ▸ .none
  | plain => simp only [hc, Res.ok.injEq, Prod.mk.injEq] at h; exact h.2 ▸ .none

/-- The trigger is reached at class TRIG only, by an LW. -/
theorem routeRead_state (lw : Bool) (wa : Word) (s s1 : State) (w : Word)
    (h : routeRead lw wa s = .ok (w, s1)) (hn : lw = false ∨ classOf s.cfg wa ≠ .trig) : s1 = s := by
  unfold routeRead at h
  cases hc : classOf s.cfg wa with
  | reg =>
    simp only [hc] at h
    cases hr : s.cfg.regfileData <;> simp only [hr, Res.ok.injEq, Prod.mk.injEq, reduceCtorEq] at h
    exact h.2.symm
  | trig =>
    simp only [hc] at h
    rcases hn with rfl | hn
    · simp at h
    · exact absurd hc hn
  | key => simp only [hc, Res.ok.injEq, Prod.mk.injEq] at h; exact h.2.symm
  | win => simp only [hc, Res.ok.injEq, Prod.mk.injEq] at h; exact h.2.symm
  | plain => simp only [hc, Res.ok.injEq, Prod.mk.injEq] at h; exact h.2.symm

theorem slotIndex_lt (c : Config) (wa : Word) (h : classOf c wa = .reg) : slotIndex c wa < 35 := by
  rw [classOf_reg, inWords_iff] at h
  have := h.2
  unfold slotIndex
  change _ < 4 * 35 at this
  omega

theorem slotWrite_writes (lw ll : Bool) (sl : List Nat) (wa v : Word) (s u : State) (hu : Writes lw ll sl s u)
    (h : classOf u.cfg wa = .reg) (ha : u.cfg.regfileData = .aliased) : Writes lw ll sl s (slotWrite wa v u) := by
  unfold slotWrite
  have hk := slotIndex_lt _ _ h
  simp only
  split
  · exact .reg _ _ _ hu
  · exact .slot _ _ _ (by omega) hk (.inr (hu.loopKept.cfg ▸ ha)) hu

theorem routeWrite_writes (lw ll : Bool) (sl : List Nat) (a : Word) (f : Word → Word) (s u s1 : State) (hu : Writes lw ll sl s u)
    (h : routeWrite (wordAddress a) f u = .ok s1) : Writes lw ll sl s s1 := by
  have hcfg := hu.loopKept.cfg
  unfold routeWrite at h
  cases hc : classOf u.cfg (wordAddress a) with
  | reg =>
    simp only [hc] at h
    cases hr : u.cfg.regfileData <;> simp only [hr, Res.ok.injEq, reduceCtorEq] at h
    exact h ▸ slotWrite_writes _ _ _ _ _ _ _ hu hc hr
  | trig => simp [hc] at h
  | win => simp [hc] at h
  | key =>
    simp only [hc, Res.ok.injEq] at h
    exact h ▸ .plain _ _ _ (wordAddress_aligned a) (.inl (hcfg ▸ hc)) hu
  | plain =>
    simp only [hc, Res.ok.injEq] at h
    exact h ▸ .plain _ _ _ (wordAddress_aligned a) (.inr (hcfg ▸ hc)) hu

theorem Res.andThen_ok {α β : Type} (r : Res α) (k : α → Res β) (b : β) (h : r.andThen k = .ok b) :
    ∃ a, r = .ok a ∧ k a = .ok b := by
  cases r with
  | ok a => exact ⟨a, rfl, h⟩
  | error e => simp [Res.andThen] at h
  | refuse q => simp [Res.andThen] at h

theorem memReadWord_writes (lw ll : Bool) (sl : List Nat) (a : Word) (s s1 : State) (w : Word)
    (h : memReadWord lw a s = .ok (w, s1)) : Writes lw ll sl s s1 := by
  unfold memReadWord at h
  split at h
  · exact routeRead_writes _ _ _ _ _ _ _ h
  · cases h

theorem memWriteWord_writes (lw ll : Bool) (sl : List Nat) (a v : Word) (s u s1 : State) (hu : Writes lw ll sl s u)
    (h : memWriteWord a v u = .ok s1) : Writes lw ll sl s s1 := by
  unfold memWriteWord at h
  split at h
  · exact routeWrite_writes _ _ _ _ _ _ _ _ hu h
  · cases h

theorem memWriteByte_writes (lw ll : Bool) (sl : List Nat) (a v : Word) (s u s1 : State) (hu : Writes lw ll sl s u)
    (h : memWriteByte a v u = .ok s1) : Writes lw ll sl s s1 :=
  routeWrite_writes _ _ _ _ _ _ _ _ hu h

theorem memWriteHalf_writes (lw ll : Bool) (sl : List Nat) (a v : Word) (s u s1 : State) (hu : Writes lw ll sl s u)
    (h : memWriteHalf a v u = .ok s1) : Writes lw ll sl s s1 := by
  unfold memWriteHalf at h
  split at h
  · cases ho : u.cfg.halfOdd <;> simp only [ho, reduceCtorEq] at h
    · exact routeWrite_writes _ _ _ _ _ _ _ _ hu h
    · obtain ⟨u1, h1, h2⟩ := Res.andThen_ok _ _ _ h
      exact memWriteByte_writes _ _ _ _ _ _ _ _ (memWriteByte_writes _ _ _ _ _ _ _ _ hu h1) h2
  · exact routeWrite_writes _ _ _ _ _ _ _ _ hu h

end Sys2Proof.Machine
end

