-- ==== Sys2Proof/Laws/Data.lean ====
section
/-! SUPPORT. Each data access at a plain word, said once: the bytes it reads and the bytes it writes (20_memory.md R103, R106,
R107, R112, R113), and the store of a word's bytes as a StoreEffect. -/

namespace Sys2Proof.Machine

open Memory

theorem StoresPlain.loads {c : Config} {a : Word} (h : StoresPlain c a) : LoadsPlain c a := by
  rcases h with h | h <;> exact ⟨by rw [h]; decide, by rw [h]; decide⟩

theorem wordAddress_idem (a : Word) : wordAddress (wordAddress a) = wordAddress a :=
  wordAddress_of_aligned _ (wordAddress_aligned a)

/-- The word address of a byte of an aligned word. -/
theorem wordAddress_add_lt (a : Word) (k : Nat) (ha : a.toNat % 4 = 0) (hk : k < 4) :
    wordAddress (a + BitVec.ofNat 32 k) = a ∧ byteOffset (a + BitVec.ofNat 32 k) = k := by
  have hb : byteOffset (a + BitVec.ofNat 32 k) = k := by
    have := a.isLt
    simp only [byteOffset, BitVec.toNat_add, BitVec.toNat_ofNat]
    omega
  refine ⟨?_, hb⟩
  have := wordAddress_add (a + BitVec.ofNat 32 k)
  rw [hb] at this
  bv_omega

theorem wordAddress_eq_sub (a : Word) : wordAddress a = a - BitVec.ofNat 32 (a.toNat % 4) := by
  have h : wordAddress a + BitVec.ofNat 32 (a.toNat % 4) = a := wordAddress_add a
  generalize wordAddress a = q at *
  rw [← h]
  bv_omega

theorem getLsbD_zero_iff (a : Word) : a.getLsbD 0 = true ↔ a.toNat % 2 = 1 := by
  rw [BitVec.getLsbD, Nat.testBit_zero, decide_eq_true_eq]

theorem getLsbD_zero_false (a : Word) (h : a.toNat % 2 = 0) : a.getLsbD 0 = false := by
  rw [← Bool.not_eq_true, getLsbD_zero_iff]; omega

/-- Clearing bit 0 of an odd address. -/
theorem and_not_one (a : Word) (h : a.toNat % 2 = 1) : a &&& ~~~(1 : Word) = a - 1 := by
  have e : a &&& ~~~(1 : Word) = (a >>> 1) <<< 1 := by
    ext i hi
    interval_cases i <;> simp
  rw [e]
  apply BitVec.eq_of_toNat_eq
  have := a.isLt
  have h1 : (1 : Word).toNat = 1 := rfl
  simp only [BitVec.toNat_shiftLeft, BitVec.toNat_ushiftRight, Nat.shiftLeft_eq, Nat.shiftRight_eq_div_pow,
    BitVec.toNat_sub, h1]
  omega

/-- The even address below an odd one lies in the same word. -/
theorem odd_pred (a : Word) (h : a.toNat % 2 = 1) :
    wordAddress (a - 1) = wordAddress a ∧ (a - 1).getLsbD 0 = false := by
  refine ⟨?_, getLsbD_zero_false _ (by bv_omega)⟩
  apply BitVec.eq_of_toNat_eq
  rw [wordAddress_toNat, wordAddress_toNat]
  bv_omega

theorem sextByte_zeroExtend (b : Byte) : sextByte (b.zeroExtend 32) = b.signExtend 32 := by
  rw [sextByte]
  congr 1
  ext i hi
  interval_cases i <;> simp

theorem zextByte_zeroExtend (b : Byte) : zextByte (b.zeroExtend 32) = b.zeroExtend 32 := by
  rw [zextByte]
  congr 1
  ext i hi
  interval_cases i <;> simp

theorem byteAt_high_half (v : Word) : byteAt v 0 ++ byteAt v 1 = v.extractLsb' 16 16 := by
  unfold byteAt
  apply BitVec.eq_of_getLsbD_eq
  intro i hi
  simp only [BitVec.getLsbD_append, BitVec.getLsbD_extractLsb']
  interval_cases i <;> simp

theorem byteAt_low_half (v : Word) : byteAt v 2 ++ byteAt v 3 = v.extractLsb' 0 16 := by
  unfold byteAt
  apply BitVec.eq_of_getLsbD_eq
  intro i hi
  simp only [BitVec.getLsbD_append, BitVec.getLsbD_extractLsb']
  interval_cases i <;> simp

/-- Two bytes shifted together are a halfword. -/
theorem shift_or_bytes (hi lo : Byte) :
    (((hi.zeroExtend 32 : Word) <<< 8) ||| lo.zeroExtend 32) = (hi ++ lo).zeroExtend 32 := by
  apply BitVec.eq_of_getLsbD_eq
  intro i h
  simp only [BitVec.truncate_eq_setWidth, BitVec.getLsbD_setWidth, BitVec.getLsbD_append, BitVec.getLsbD_or,
    BitVec.getLsbD_shiftLeft]
  interval_cases i <;> simp

theorem byteAt_shift (v : Word) : byteAt (v >>> 8) 3 = byteAt v 2 := by
  unfold byteAt
  ext i hi
  interval_cases i <;> simp

theorem byteFrom_add (s : State) (a : Word) (j k : Nat) :
    byteFrom s (a + BitVec.ofNat 32 j) k = byteFrom s a (j + k) := by
  rw [byteFrom, byteFrom, BitVec.add_assoc, BitVec.ofNat_add]

theorem byteFrom_zero (s : State) (a : Word) : byteFrom s a 0 = readByte s.mem a.toNat := by
  rw [byteFrom, BitVec.add_zero]

/-- A load of a byte gives the byte at its address. -/
theorem memReadByte_plain (a : Word) (s : State) (h : LoadsPlain s.cfg a) :
    memReadByte a s = .ok ((byteFrom s a 0).zeroExtend 32) := by
  rw [memReadByte, routeRead_plain _ _ _ h.1 h.2]
  simp only [Res.andThen, State.mword, extractByte_eq, byteAt_mword_wordAddress, byteFrom_zero]

/-- A load of a halfword at an even address gives the two bytes from its address. -/
theorem memReadEvenHalf_plain (a : Word) (s : State) (h : LoadsPlain s.cfg a) (ha : a.getLsbD 0 = false) :
    memReadEvenHalf a s = .ok ((byteFrom s a 0 ++ byteFrom s a 1).zeroExtend 32) := by
  rw [memReadEvenHalf, routeRead_plain _ _ _ h.1 h.2]
  have hb := byteOffset_even a ha
  simp only [Res.andThen, State.mword, extractHalf_eq _ _ ha, byteAt_mword_wordAddress, byteFrom_zero,
    byteAt_mword_succ _ _ (by omega : byteOffset a + 1 < 4)]
  rfl

/-- A load of a word at an aligned address gives the four bytes from its address. -/
theorem memReadWord_plain (lw : Bool) (a : Word) (s : State) (h : LoadsPlain s.cfg a) (ha : a.toNat % 4 = 0) :
    memReadWord lw a s = .ok (byteFrom s a 0 ++ byteFrom s a 1 ++ byteFrom s a 2 ++ byteFrom s a 3, s) := by
  rw [memReadWord, if_pos (show byteOffset a = 0 from ha), routeRead_plain _ _ _ h.1 h.2,
    wordAddress_of_aligned a ha, byteFrom_zero]
  rfl

/-- A word store whose new word `w` holds `val` at the stored bytes and the old bytes elsewhere. -/
theorem storeEffect_setMword (s : State) (wa w a : Word) (n : Nat) (val : Nat → Byte) (hc : s.cfg.wf = true)
    (hwa : wa.toNat % 4 = 0) (hp : classOf s.cfg wa = .key ∨ classOf s.cfg wa = .plain)
    (h1 : ∀ k, k < n → ∃ j, j < 4 ∧ a + BitVec.ofNat 32 k = wa + BitVec.ofNat 32 j ∧ byteAt w j = val k)
    (h2 : ∀ j, j < 4 → (∀ k, k < n → a + BitVec.ofNat 32 k ≠ wa + BitVec.ofNat 32 j) →
      byteAt w j = byteAt (s.mword wa) j) :
    StoreEffect s a n val (commit false .seq (s.setMword wa w)) := by
  have hb := regBase_aligned _ hc
  have hr : inWords s.cfg.regBase Config.slots wa = false :=
    classOf_not_reg _ _ (by rcases hp with h | h <;> rw [h] <;> decide)
  refine storeEffect_of_mem s _ a n val rfl (fun k hk => slot_setMword_plain s wa w k hb hwa hr hk) ?_ ?_ ?_
  · intro k hk
    obtain ⟨j, hj, e, hv⟩ := h1 k hk
    rw [e]
    exact (readByte_setMword_byteAt s.mem wa w j hj).trans hv
  · intro x hx
    rcases readByte_setMword_cases s.mem wa w x with ⟨j, hj, rfl, e⟩ | ⟨_, e⟩
    · refine e.trans ((h2 j hj fun k hk he => hx ⟨k, hk, ?_⟩).trans (byteAt_mword _ _ _ hj))
      rw [he]
    · exact e
  · intro k hk
    obtain ⟨j, hj, e, _⟩ := h1 k hk
    rw [e]
    exact not_inSlot_of_word s.cfg wa j _ hb hwa hr (by decide) hj

/-- A byte store to a plain word. -/
theorem memWriteByte_effect (s : State) (a v : Word) (hc : s.cfg.wf = true) (hp : StoresPlain s.cfg a) :
    ∃ s1, memWriteByte a v s = .ok s1 ∧ StoreEffect s a 1 (fun _ => byteAt v 3) (commit false .seq s1) := by
  refine ⟨_, routeWrite_plain _ _ _ hp, storeEffect_setMword s _ _ _ _ _ hc (wordAddress_aligned a) hp ?_ ?_⟩
  · intro k hk
    obtain rfl : k = 0 := by omega
    exact ⟨byteOffset a, byteOffset_lt a, by rw [BitVec.add_zero, wordAddress_add],
      by rw [byteAt_insertByte _ _ _ _ (byteOffset_lt a), if_pos rfl]; rfl⟩
  · intro j hj h
    rw [byteAt_insertByte _ _ _ _ hj, if_neg]
    rintro rfl
    exact h 0 (by omega) (by rw [BitVec.add_zero, wordAddress_add])

/-- A halfword store at an even address to a plain word. -/
theorem memWriteEvenHalf_effect (s : State) (a v : Word) (hc : s.cfg.wf = true) (hp : StoresPlain s.cfg a)
    (ha : a.getLsbD 0 = false) :
    ∃ s1, memWriteEvenHalf a v s = .ok s1 ∧
      StoreEffect s a 2 (fun k => byteAt v (k + 2)) (commit false .seq s1) := by
  have hb := byteOffset_even a ha
  have hw := wordAddress_add a
  have hw1 := wordAddress_add_succ a
  refine ⟨_, routeWrite_plain _ _ _ hp, storeEffect_setMword s _ _ _ _ _ hc (wordAddress_aligned a) hp ?_ ?_⟩
  · intro k hk
    obtain rfl | rfl : k = 0 ∨ k = 1 := by omega
    · exact ⟨byteOffset a, by omega, by rw [BitVec.add_zero, hw],
        by rw [byteAt_insertHalf _ _ _ _ (by omega) ha, if_pos rfl]; rfl⟩
    · exact ⟨byteOffset a + 1, by omega, hw1.symm,
        by rw [byteAt_insertHalf _ _ _ _ (by omega) ha, if_neg (by omega), if_pos rfl]; rfl⟩
  · intro j hj h
    rw [byteAt_insertHalf _ _ _ _ hj ha, if_neg, if_neg]
    · rintro rfl; exact h 1 (by omega) hw1.symm
    · rintro rfl; exact h 0 (by omega) (by rw [BitVec.add_zero, hw])

/-- A word store to a plain word. -/
theorem memWriteWord_effect (s : State) (a v : Word) (hc : s.cfg.wf = true) (hp : StoresPlain s.cfg a)
    (ha : a.toNat % 4 = 0) :
    ∃ s1, memWriteWord a v s = .ok s1 ∧ StoreEffect s a 4 (fun k => byteAt v k) (commit false .seq s1) := by
  refine ⟨_, (if_pos (show byteOffset a = 0 from ha)).trans (routeWrite_plain _ _ _ hp), ?_⟩
  have hw : wordAddress a = a := wordAddress_of_aligned a ha
  refine storeEffect_setMword s _ _ _ _ _ hc (wordAddress_aligned a) hp ?_ ?_
  · exact fun k hk => ⟨k, hk, by rw [hw], rfl⟩
  · exact fun j hj h => absurd (by rw [hw]) (h j hj)

/-- Everything a byte store to a plain word does to the state. -/
theorem memWriteByte_plain (s : State) (a v : Word) (hc : s.cfg.wf = true) (hp : StoresPlain s.cfg a) :
    ∃ s1, memWriteByte a v s = .ok s1 ∧ s1 = { s with mem := s1.mem } ∧ (∀ k, k < 35 → s1.slot k = s.slot k) ∧
      ∀ x, readByte s1.mem x = if x = a.toNat then byteAt v 3 else readByte s.mem x :=
  ⟨_, routeWrite_plain _ _ _ hp, rfl,
    fun k hk => slot_setMword_plain s _ _ k (regBase_aligned _ hc) (wordAddress_aligned _)
      (classOf_not_reg _ _ hp.loads.1) hk,
    fun x => readByte_storeByte s.mem a v x⟩

/-- Everything a word store to a plain word does to the state. -/
theorem memWriteWord_plain (s : State) (a v : Word) (hc : s.cfg.wf = true) (hp : StoresPlain s.cfg a)
    (ha : a.toNat % 4 = 0) :
    ∃ s1, memWriteWord a v s = .ok s1 ∧ s1 = { s with mem := s1.mem } ∧ (∀ k, k < 35 → s1.slot k = s.slot k) ∧
      (∀ k, k < 4 → readByte s1.mem (a + BitVec.ofNat 32 k).toNat = byteAt v k) ∧
      ∀ x, ¬ InBytes a 4 x → readByte s1.mem x = readByte s.mem x := by
  have hw : wordAddress a = a := wordAddress_of_aligned a ha
  refine ⟨_, (if_pos (show byteOffset a = 0 from ha)).trans (routeWrite_plain _ _ _ hp), rfl,
    fun k hk => slot_setMword_plain s _ _ k (regBase_aligned _ hc) (wordAddress_aligned _)
      (classOf_not_reg _ _ hp.loads.1) hk, fun k hk => ?_, fun x hx => ?_⟩
  · rw [hw]; exact readByte_setMword_byteAt _ _ _ _ hk
  · rw [hw]; exact readByte_setMword_of_ne _ _ _ _ fun k hk e => hx ⟨k, hk, e⟩

/-- A byte of a plain word lies in no slot. -/
theorem not_inSlot_of_plain (c : Config) (a : Word) (k : Nat) (hc : c.wf = true) (hp : StoresPlain c a)
    (hk : k < 35) : ¬ InSlot c k a.toNat := by
  rw [← wordAddress_add a]
  exact not_inSlot_of_word c _ _ _ (regBase_aligned _ hc) (wordAddress_aligned _)
    (classOf_not_reg _ _ hp.loads.1) hk (byteOffset_lt _)

/-- Two byte stores one after the other, the form an odd halfword takes under `P_HALF_ODD = bytes`. -/
theorem memWriteTwoBytes_effect (s : State) (a v : Word) (hc : s.cfg.wf = true) (hp : StoresPlain s.cfg a)
    (hp1 : StoresPlain s.cfg (a + 1)) :
    ∃ s2, ((memWriteByte a (v >>> 8) s).andThen fun s1 => memWriteByte (a + 1) v s1) = .ok s2 ∧
      StoreEffect s a 2 (fun k => byteAt v (k + 2)) (commit false .seq s2) := by
  obtain ⟨s1, e1, hs1, hslot1, hb1⟩ := memWriteByte_plain s a (v >>> 8) hc hp
  have hcfg : s1.cfg = s.cfg := by rw [hs1]
  obtain ⟨s2, e2, hs2, hslot2, hb2⟩ := memWriteByte_plain s1 (a + 1) v (hcfg ▸ hc) (hcfg ▸ hp1)
  refine ⟨s2, by rw [e1]; exact e2, ?_⟩
  refine storeEffect_of_mem s s2 a 2 _ (by rw [hs2, hs1]) (fun k hk => (hslot2 k hk).trans (hslot1 k hk)) ?_ ?_ ?_
  · intro k hk
    obtain rfl | rfl : k = 0 ∨ k = 1 := by omega
    · rw [hb2, if_neg (by bv_omega), hb1, if_pos (by rw [BitVec.add_zero])]
      exact byteAt_shift v
    · rw [hb2]; exact if_pos rfl
  · intro x hx
    have h1 : x ≠ (a + 1).toNat := fun e => hx ⟨1, by omega, e⟩
    have h0 : x ≠ a.toNat := fun e => hx ⟨0, by omega, by rw [BitVec.add_zero]; exact e⟩
    rw [hb2, if_neg h1, hb1, if_neg h0]
  · intro k hk
    obtain rfl | rfl : k = 0 ∨ k = 1 := by omega
    · rw [BitVec.add_zero]; exact not_inSlot_of_plain _ _ _ hc hp (by decide)
    · exact not_inSlot_of_plain _ _ _ hc hp1 (by decide)

/-- A byte of an aligned plain word lies in no slot. -/
theorem not_inSlot_of_plain_word (c : Config) (a : Word) (k j : Nat) (hc : c.wf = true) (hp : StoresPlain c a)
    (ha : a.toNat % 4 = 0) (hk : k < 35) (hj : j < 4) : ¬ InSlot c k (a + BitVec.ofNat 32 j).toNat := by
  have hw : wordAddress a = a := wordAddress_of_aligned a ha
  exact not_inSlot_of_word c _ _ _ (regBase_aligned _ hc) ha
    (classOf_not_reg _ _ (hw ▸ hp.loads.1)) hk hj

/-- The read of the word an address lies in, for LWL and LWR. -/
theorem memReadWord_wordAddress (s : State) (a : Word) (hp : LoadsPlain s.cfg a) :
    memReadWord false (wordAddress a) s = .ok (s.mword (wordAddress a), s) := by
  rw [memReadWord, if_pos (show byteOffset (wordAddress a) = 0 from wordAddress_aligned a), wordAddress_idem,
    routeRead_plain _ _ _ hp.1 hp.2]

/-- The bytes of the word an address lies in. -/
theorem byteAt_mword_sub (s : State) (a : Word) (j : Nat) (hj : j < 4) :
    byteAt (s.mword (wordAddress a)) j = byteFrom s (a - BitVec.ofNat 32 (a.toNat % 4)) j := by
  rw [← wordAddress_eq_sub]
  exact byteAt_mword s.mem _ j hj

/-- The store of a merged word, for SWL and SWR: it reads the word and writes `f` of it back. -/
theorem readModify_plain (s : State) (a : Word) (f : Word → Word) (hp : StoresPlain s.cfg a) :
    ((memReadWord false (wordAddress a) s).andThen fun p => memWriteWord (wordAddress a) (f p.1) s) =
      .ok (s.setMword (wordAddress a) (f (s.mword (wordAddress a)))) := by
  have h0 : byteOffset (wordAddress a) = 0 := wordAddress_aligned a
  rw [memReadWord, if_pos h0, wordAddress_idem, routeRead_plain _ _ _ hp.loads.1 hp.loads.2]
  simp only [Res.andThen, memWriteWord, h0, if_true, wordAddress_idem]
  exact routeWrite_plain _ _ _ hp

/-- A store completes once its access does. -/
theorem store_completes {i : Instr} {s : State} {r : Res State} {post : State → Prop}
    (h : exec i s = finish s r id) (hr : ∃ s1, r = .ok s1 ∧ post (commit false .seq s1)) : Completes i s post := by
  obtain ⟨s1, rfl, hp⟩ := hr
  exact ⟨_, h, hp⟩

/-- A load completes once its access does. -/
theorem load_completes {α : Type} {i : Instr} {s : State} {r : Res α} {k : α → State} {n : RegNum} {v : Word}
    (h : exec i s = finish s r k) (hr : ∃ a, r = .ok a ∧ k a = s.setReg n v) : Completes i s (RegEffect s n v) := by
  obtain ⟨a, rfl, hk⟩ := hr
  exact reg_completes i s n v (by rw [h, finish, hk])

end Sys2Proof.Machine
end

