-- ==== Sys2Proof/Laws/Decode.lean ====
section
/-! SUPPORT. The fields of the instruction layouts (30_encoding.md R150 to R154), and the entry each layout selects. -/

namespace Sys2Proof

/-- A field that starts at bit `lo` of `a ++ b` and lies in `a`. -/
theorem extract_append_hi {n m k : Nat} (a : BitVec n) (b : BitVec m) (lo : Nat) (h : m ≤ lo) :
    (a ++ b).extractLsb' lo k = a.extractLsb' (lo - m) k := by
  apply BitVec.eq_of_getLsbD_eq
  intro i hi
  simp only [BitVec.getLsbD_extractLsb', BitVec.getLsbD_append, hi, decide_true, Bool.true_and]
  rw [if_neg (by omega)]
  congr 1
  omega

/-- A field of `a ++ b` that lies in `b`. -/
theorem extract_append_lo {n m k : Nat} (a : BitVec n) (b : BitVec m) (lo : Nat) (h : lo + k ≤ m) :
    (a ++ b).extractLsb' lo k = b.extractLsb' lo k := by
  apply BitVec.eq_of_getLsbD_eq
  intro i hi
  simp only [BitVec.getLsbD_extractLsb', BitVec.getLsbD_append, hi, decide_true, Bool.true_and]
  rw [if_pos (by omega)]

theorem extract_all {n : Nat} (a : BitVec n) : a.extractLsb' 0 n = a := by
  apply BitVec.eq_of_getLsbD_eq
  intro i hi
  simp [hi]

section RType
variable (op : BitVec 6) (rs rt rd : RegNum) (sa : BitVec 5) (funct : BitVec 6)

@[simp] theorem opField_rType : opField (rType op rs rt rd sa funct) = op := by
  unfold opField rType
  rw [extract_append_hi _ _ _ (by decide), extract_append_hi _ _ _ (by decide),
    extract_append_hi _ _ _ (by decide), extract_append_hi _ _ _ (by decide),
    extract_append_hi _ _ _ (by decide)]
  exact extract_all op
@[simp] theorem rsField_rType : rsField (rType op rs rt rd sa funct) = rs := by
  unfold rsField rType
  rw [extract_append_hi _ _ _ (by decide), extract_append_hi _ _ _ (by decide),
    extract_append_hi _ _ _ (by decide), extract_append_hi _ _ _ (by decide),
    extract_append_lo _ _ _ (by decide)]
  exact extract_all rs
@[simp] theorem rtField_rType : rtField (rType op rs rt rd sa funct) = rt := by
  unfold rtField rType
  rw [extract_append_hi _ _ _ (by decide), extract_append_hi _ _ _ (by decide),
    extract_append_hi _ _ _ (by decide), extract_append_lo _ _ _ (by decide)]
  exact extract_all rt
@[simp] theorem rdField_rType : rdField (rType op rs rt rd sa funct) = rd := by
  unfold rdField rType
  rw [extract_append_hi _ _ _ (by decide), extract_append_hi _ _ _ (by decide),
    extract_append_lo _ _ _ (by decide)]
  exact extract_all rd
@[simp] theorem saField_rType : saField (rType op rs rt rd sa funct) = sa := by
  unfold saField rType
  rw [extract_append_hi _ _ _ (by decide), extract_append_lo _ _ _ (by decide)]
  exact extract_all sa
@[simp] theorem functField_rType : functField (rType op rs rt rd sa funct) = funct := by
  unfold functField rType
  rw [extract_append_lo _ _ _ (by decide)]
  exact extract_all funct

end RType

section IType
variable (op : BitVec 6) (rs rt : RegNum) (imm : Imm16)

@[simp] theorem opField_iType : opField (iType op rs rt imm) = op := by
  unfold opField iType
  rw [extract_append_hi _ _ _ (by decide), extract_append_hi _ _ _ (by decide),
    extract_append_hi _ _ _ (by decide)]
  exact extract_all op
@[simp] theorem rsField_iType : rsField (iType op rs rt imm) = rs := by
  unfold rsField iType
  rw [extract_append_hi _ _ _ (by decide), extract_append_hi _ _ _ (by decide),
    extract_append_lo _ _ _ (by decide)]
  exact extract_all rs
@[simp] theorem rtField_iType : rtField (iType op rs rt imm) = rt := by
  unfold rtField iType
  rw [extract_append_hi _ _ _ (by decide), extract_append_lo _ _ _ (by decide)]
  exact extract_all rt
@[simp] theorem immField_iType : immField (iType op rs rt imm) = imm := by
  unfold immField iType
  rw [extract_append_lo _ _ _ (by decide)]
  exact extract_all imm

end IType

@[simp] theorem opField_jType (op : BitVec 6) (index : Index26) : opField (jType op index) = op := by
  unfold opField jType
  rw [extract_append_hi _ _ _ (by decide)]
  exact extract_all op
@[simp] theorem indexField_jType (op : BitVec 6) (index : Index26) : indexField (jType op index) = index := by
  unfold indexField jType
  rw [extract_append_lo _ _ _ (by decide)]
  exact extract_all index
@[simp] theorem opField_codeType (op : BitVec 6) (code : BitVec 20) (funct : BitVec 6) :
    opField (codeType op code funct) = op := by
  unfold opField codeType
  rw [extract_append_hi _ _ _ (by decide), extract_append_hi _ _ _ (by decide)]
  exact extract_all op
@[simp] theorem codeField_codeType (op : BitVec 6) (code : BitVec 20) (funct : BitVec 6) :
    codeField (codeType op code funct) = code := by
  unfold codeField codeType
  rw [extract_append_hi _ _ _ (by decide), extract_append_lo _ _ _ (by decide)]
  exact extract_all code
@[simp] theorem functField_codeType (op : BitVec 6) (code : BitVec 20) (funct : BitVec 6) :
    functField (codeType op code funct) = funct := by
  unfold functField codeType
  rw [extract_append_lo _ _ _ (by decide)]
  exact extract_all funct

/-- The entry a word of a SPECIAL layout selects. -/
theorem select_special (w : Word) (h : opField w = 0x00) :
    selectMnemonic w = assoc (functField w).toNat specialMap := by
  simp [selectMnemonic, h]

theorem select_special2 (w : Word) (h : opField w = 0x1C) :
    selectMnemonic w = assoc (functField w).toNat special2Map := by
  simp [selectMnemonic, h]

theorem select_regimm (w : Word) (h : opField w = 0x01) :
    selectMnemonic w = assoc (rtField w).toNat regimmMap := by
  simp [selectMnemonic, h]

theorem select_primary (w : Word) (h0 : opField w ≠ 0x00) (h1 : opField w ≠ 0x01) (h2 : opField w ≠ 0x1C) :
    selectMnemonic w = assoc (opField w).toNat primaryMap := by
  have e0 : (opField w).toNat ≠ 0 := fun e => h0 (BitVec.eq_of_toNat_eq e)
  have e1 : (opField w).toNat ≠ 1 := fun e => h1 (BitVec.eq_of_toNat_eq e)
  have e2 : (opField w).toNat ≠ 28 := fun e => h2 (BitVec.eq_of_toNat_eq e)
  simp only [selectMnemonic, if_neg e0, if_neg e1, if_neg e2]

theorem decodeWord_of_select (w : Word) (m : Mnemonic) (h : selectMnemonic w = some m) :
    decodeWord w = some (Instr.ofFields w m) := by
  rw [decodeWord, h]; rfl

@[simp] theorem ofFields_mnemonic (w : Word) (m : Mnemonic) : (Instr.ofFields w m).mnemonic = m := by
  cases m <;> rfl

/-- What a decoded word says of its entry. -/
theorem decodeWord_eq (w : Word) (i : Instr) (h : decodeWord w = some i) :
    selectMnemonic w = some i.mnemonic ∧ i = Instr.ofFields w i.mnemonic := by
  unfold decodeWord at h
  cases hs : selectMnemonic w with
  | none => simp [hs] at h
  | some m =>
    simp only [hs, Option.map_some, Option.some.injEq] at h
    subst h
    simp

theorem wordOfBytes_wordBytes (w : Word) :
    wordOfBytes (w.extractLsb' 24 8) (w.extractLsb' 16 8) (w.extractLsb' 8 8) (w.extractLsb' 0 8) = w := by
  apply BitVec.eq_of_getLsbD_eq
  intro i hi
  unfold wordOfBytes
  simp only [BitVec.getLsbD_append, BitVec.getLsbD_extractLsb']
  interval_cases i <;> simp

/-- Bytes and words agree: decoding the big-endian bytes of a word decodes the word. -/
theorem decodeBytes_wordBytes (w : Word) (rest : List Byte) :
    decodeBytes (wordBytes w ++ rest) =
      match decodeWord w with
      | some i => .ok (i, rest)
      | none => .error (.reserved w) := by
  simp only [wordBytes, List.cons_append, List.nil_append, decodeBytes, wordOfBytes_wordBytes]
  all_goals (cases decodeWord w <;> rfl)

/-- The decode procedure on a word whose entry is not reserved. -/
theorem decode_of_decodeWord (c : Config) (w : Word) (i : Instr) (h : decodeWord w = some i) :
    decode c w = match c.presence i.group with
      | .invalid => .invalidOpcode
      | .unknown => .groupUnknown i.group
      | .implemented => fieldsVerdict c w i := by
  simp only [decode, h]
  all_goals (cases c.presence i.group <;> rfl)

@[simp] theorem describe_instr (w : Word) (i : Instr) : (describe w i).instr = i := rfl

/-- A descriptor the decoder gives is that of its instruction and its word (30_encoding.md R161, R163). -/
theorem decode_op (c : Config) (w : Word) (o : Operation) (h : decode c w = .op o) :
    decodeWord w = some o.instr ∧ c.presence o.instr.group = .implemented ∧ o = describe w o.instr := by
  cases hw : decodeWord w with
  | none => simp [decode, hw] at h
  | some i =>
    rw [decode_of_decodeWord c w i hw] at h
    cases hp : c.presence i.group <;> simp only [hp, reduceCtorEq] at h
    unfold fieldsVerdict at h
    split at h
    · cases h; exact ⟨rfl, hp, rfl⟩
    · cases hf : c.strictFields <;> simp only [hf, reduceCtorEq] at h
      cases h; exact ⟨rfl, hp, rfl⟩

end Sys2Proof
end

