-- ==== Sys2Proof/Laws/Exec.lean ====
section
/-! SUPPORT. Everything a meaning can do when it answers a next state, said once for all instructions. -/

namespace Sys2Proof.Machine

/-- The instruction is LW, the only one that may trigger the oracle (20_memory.md R118). -/
def isLw (i : Instr) : Bool := i.mnemonic == .lw

/-- The instruction is LL, the only one that sets `llbit` (10_state.md R73). -/
def isLl (i : Instr) : Bool := i.mnemonic == .ll

/-- The instruction is JR or JALR, whose targets come from a register (43_branch_jump.md R375). -/
def isJr (i : Instr) : Bool := i.mnemonic == .jr || i.mnemonic == .jalr

/-- The slots of HI (33) and LO (34) that an instruction's own rule writes (10_state.md R59). -/
def slotsOf (i : Instr) : List Nat :=
  if i.mnemonic = .mthi then [33]
  else if i.mnemonic = .mtlo then [34]
  else if i.mnemonic ∈ [.mult, .multu, .div, .divu, .madd, .maddu, .msub, .msubu, .mul] then [33, 34]
  else []

/-- The errors an instruction's own rule can raise: ArithmeticOverflow, UnalignedAccess, OracleMiss
(60_exceptions.md R501, R503, R505). -/
def RuleError (e : EngineError) : Prop :=
  (∃ pc, e = .arithmeticOverflow pc) ∨ (∃ a, e = .unalignedAccess a) ∨ ∃ key, e = .oracleMiss key

/-- The groups of 45_system.md, whose instructions have a decode verdict and no effect. -/
abbrev Unmodelled (g : Group) : Prop := g ∈ [.syscall, .brk, .trap, .cop, .ase, .r2]

/-- What a next state of `exec i s` can be: an error state of `s`, of no control transfer, its error one of the rule's
own unless the group is unmodelled; or the commit of some writes, with outcome `seq` unless `i` is a control transfer,
`annul` only for a branch-likely, and an aligned target unless it comes from a register. -/
def ExecShape (i : Instr) (s t : State) : Prop :=
  (∃ e, t = errorState e s ∧ i.isCT = false ∧ (RuleError e ∨ Unmodelled i.group)) ∨
  ∃ s1 c, t = commit i.isCT c s1 ∧ (i.isCT = false → c = .seq) ∧ (c = .annul → i.group = .likely) ∧
    (isJr i = false → s.getPC.toNat % 4 = 0 → ∀ T, c = .branchTo T → T.toNat % 4 = 0) ∧
    Writes (isLw i) (isLl i) (slotsOf i) s s1

theorem branchTarget_aligned (pc : Word) (imm : Imm16) (h : pc.toNat % 4 = 0) :
    (branchTarget pc imm).toNat % 4 = 0 := by
  unfold branchTarget
  have : (boff imm).toNat % 4 = 0 := by
    rw [boff, BitVec.toNat_shiftLeft, Nat.shiftLeft_eq]; omega
  bv_omega

theorem jumpTarget_aligned (pc : Word) (index : Index26) : (jumpTarget pc index).toNat % 4 = 0 := by
  unfold jumpTarget
  rw [BitVec.toNat_append, Nat.shiftLeft_eq]
  have : (0 : BitVec 2).toNat = 0 := rfl
  rw [this, Nat.or_zero]
  omega

variable {i : Instr} {s t u : State}

theorem shape_seq (h : commitSeq u = .next t) (hi : i.isCT = false) (hu : Writes (isLw i) (isLl i) (slotsOf i) s u) :
    ExecShape i s t := by
  simp only [commitSeq, Host.Outcome.next.injEq] at h
  exact .inr ⟨u, .seq, by rw [hi, h], fun _ => rfl, (fun e => nomatch e), (fun _ _ _ e => nomatch e), hu⟩

theorem shape_signed {n : RegNum} {r : Int} (h : signedResult n r s = .next t) (hi : i.isCT = false) :
    ExecShape i s t := by
  unfold signedResult at h
  split at h
  · exact shape_seq h hi (.reg _ _ _ .none)
  · simp only [takeError_eq, Host.Outcome.next.injEq] at h
    exact .inl ⟨_, h.symm, hi, .inl (.inl ⟨_, rfl⟩)⟩

theorem shape_branch {cond : Bool} {imm : Imm16} (h : branch cond imm s u = .next t) (hi : i.isCT = true)
    (hu : Writes (isLw i) (isLl i) (slotsOf i) s u) : ExecShape i s t := by
  simp only [branch, Host.Outcome.next.injEq] at h
  refine .inr ⟨u, _, by rw [hi, h], (fun e => by rw [hi] at e; cases e), (fun e => by cases cond <;> cases e), ?_, hu⟩
  intro _ hp T e
  cases cond
  · cases e
  · cases e; exact branchTarget_aligned _ _ hp

theorem shape_likely {cond : Bool} {imm : Imm16} (h : branchLikely cond imm s u = .next t)
    (hi : i.isCT = true) (hg : i.group = .likely) (hu : Writes (isLw i) (isLl i) (slotsOf i) s u) : ExecShape i s t := by
  simp only [branchLikely, Host.Outcome.next.injEq] at h
  refine .inr ⟨u, _, by rw [hi, h], (fun e => by rw [hi] at e; cases e), (fun _ => hg), ?_, hu⟩
  intro _ hp T e
  cases cond
  · cases e
  · cases e; exact branchTarget_aligned _ _ hp

theorem shape_jump {T : Word} (h : jump T u = .next t) (hi : i.isCT = true)
    (hT : isJr i = false → s.getPC.toNat % 4 = 0 → T.toNat % 4 = 0)
    (hu : Writes (isLw i) (isLl i) (slotsOf i) s u) : ExecShape i s t := by
  simp only [jump, Host.Outcome.next.injEq] at h
  exact .inr ⟨u, .branchTo T, by rw [hi, h], (fun e => by rw [hi] at e; cases e), (fun e => nomatch e),
    (fun hj hp T' e => by cases e; exact hT hj hp), hu⟩

/-- Every error of an access is one of the rule errors. -/
def AccessErrors {α : Type} (r : Res α) : Prop := ∀ e, r = .error e → RuleError e

theorem AccessErrors.andThen {α β : Type} {r : Res α} {k : α → Res β} (h : AccessErrors r)
    (hk : ∀ a, AccessErrors (k a)) : AccessErrors (r.andThen k) := by
  intro e he
  cases r with
  | ok a => exact hk a e he
  | error e' => simp only [Res.andThen, Res.error.injEq] at he; exact he ▸ h e' rfl
  | refuse q => simp [Res.andThen] at he

theorem AccessErrors.ok {α : Type} (a : α) : AccessErrors (Res.ok a) := fun _ h => nomatch h

theorem routeRead_errors (lw : Bool) (wa : Word) (s : State) : AccessErrors (routeRead lw wa s) := by
  intro e h
  unfold routeRead oracleTrigger at h
  split at h
  · split at h <;> cases h
  · split at h
    · simp only at h
      split at h
      · simp only [Res.error.injEq] at h; exact .inr (.inr ⟨_, h.symm⟩)
      · split at h <;> cases h
    · cases h
  all_goals cases h

theorem routeWrite_errors (wa : Word) (f : Word → Word) (s : State) : AccessErrors (routeWrite wa f s) := by
  intro e h
  unfold routeWrite at h
  split at h
  · split at h <;> cases h
  all_goals cases h

theorem memReadWord_errors (lw : Bool) (a : Word) (s : State) : AccessErrors (memReadWord lw a s) := by
  intro e h
  unfold memReadWord at h
  split at h
  · exact routeRead_errors _ _ _ e h
  · simp only [Res.error.injEq] at h; exact .inr (.inl ⟨_, h.symm⟩)

theorem memWriteWord_errors (a v : Word) (s : State) : AccessErrors (memWriteWord a v s) := by
  intro e h
  unfold memWriteWord at h
  split at h
  · exact routeWrite_errors _ _ _ e h
  · simp only [Res.error.injEq] at h; exact .inr (.inl ⟨_, h.symm⟩)

theorem memReadByte_errors (a : Word) (s : State) : AccessErrors (memReadByte a s) :=
  (routeRead_errors _ _ _).andThen fun _ => .ok _

theorem memWriteByte_errors (a v : Word) (s : State) : AccessErrors (memWriteByte a v s) :=
  routeWrite_errors _ _ _

theorem memReadHalf_errors (a : Word) (s : State) : AccessErrors (memReadHalf a s) := by
  intro e h
  unfold memReadHalf at h
  split at h
  · split at h
    · cases h
    · simp only [Res.error.injEq] at h; exact .inr (.inl ⟨_, h.symm⟩)
    · exact (routeRead_errors _ _ _).andThen (fun _ => .ok _) e h
    · exact (memReadByte_errors _ _).andThen (fun _ => (memReadByte_errors _ _).andThen fun _ => .ok _) e h
  · exact (routeRead_errors _ _ _).andThen (fun _ => .ok _) e h

theorem memWriteHalf_errors (a v : Word) (s : State) : AccessErrors (memWriteHalf a v s) := by
  intro e h
  unfold memWriteHalf at h
  split at h
  · split at h
    · cases h
    · simp only [Res.error.injEq] at h; exact .inr (.inl ⟨_, h.symm⟩)
    · exact routeWrite_errors _ _ _ e h
    · exact (memWriteByte_errors _ _ _).andThen (fun _ => memWriteByte_errors _ _ _) e h
  · exact routeWrite_errors _ _ _ e h

theorem readModify_errors (a : Word) (f : Word × State → Word) (s : State) :
    AccessErrors ((memReadWord false a s).andThen fun p => memWriteWord a (f p) s) :=
  (memReadWord_errors _ _ _).andThen fun _ => memWriteWord_errors _ _ _

theorem shape_finish {α : Type} {r : Res α} {k : α → State} (h : finish s r k = .next t) (hi : i.isCT = false)
    (he : AccessErrors r) (hk : ∀ a, r = .ok a → Writes (isLw i) (isLl i) (slotsOf i) s (k a)) : ExecShape i s t := by
  rcases finish_next s t r k h with ⟨a, ha, rfl⟩ | ⟨e, hr, rfl⟩
  · exact shape_seq rfl hi (hk a ha)
  · exact .inl ⟨e, rfl, hi, .inl (he e hr)⟩

theorem writes_hiLo {lw ll : Bool} (p : Word × Word) (hu : Writes lw ll [33, 34] s u) :
    Writes lw ll [33, 34] s (u.setHiLo p) :=
  .slot _ _ _ (by decide) (by decide) (.inl (by decide))
    (.slot _ _ _ (by decide) (by decide) (.inl (by decide)) hu)

theorem readModify_writes {lw ll : Bool} {sl : List Nat} {a : Word} {f : Word × State → Word}
    (h : ((memReadWord false a s).andThen fun p => memWriteWord a (f p) s) = .ok u) : Writes lw ll sl s u := by
  obtain ⟨p, _, h2⟩ := Res.andThen_ok _ _ _ h
  exact memWriteWord_writes _ _ _ _ _ _ _ _ .none h2

theorem shape_sc {rs rt : RegNum} {imm : Imm16} (h : execSc rs rt imm s = .next t) :
    ExecShape (.sc rs rt imm) s t := by
  unfold execSc at h
  split at h
  · exact shape_finish h rfl (memWriteWord_errors _ _ _) fun _ hp => .reg _ _ _ (memWriteWord_writes _ _ _ _ _ _ _ _ .none hp)
  · cases h

/-- No control transfer is in an unmodelled group (30_encoding.md R170). -/
theorem isCT_of_unmodelled (i : Instr) (h : Unmodelled i.group) : i.isCT = false := by
  change Unmodelled i.mnemonic.group at h
  change i.mnemonic.isCT = false
  generalize i.mnemonic = m at h
  revert h
  cases m <;> decide

theorem unmodelled_next {g : Group} {w : Word} (h : unmodelled g w s = .next t) (hi : i.group = g)
    (hg : Unmodelled g) :
    ∃ e, t = errorState e s ∧ i.isCT = false ∧ (RuleError e ∨ Unmodelled i.group) := by
  have hct : i.isCT = false := isCT_of_unmodelled i (hi ▸ hg)
  unfold unmodelled at h
  split at h
  · cases h
  · simp only [takeError_eq, Host.Outcome.next.injEq] at h; exact ⟨_, h.symm, hct, .inr (hi ▸ hg)⟩
  · simp only [takeError_eq, Host.Outcome.next.injEq] at h; exact ⟨_, h.symm, hct, .inr (hi ▸ hg)⟩

/-- Everything a meaning can do when it answers a next state. -/
theorem exec_shape (i : Instr) (s t : State) (h : exec i s = .next t) : ExecShape i s t := by
  cases i with
  | sll rt rd sa => exact shape_seq h rfl (.reg _ _ _ .none)
  | movci rs rt rd sa => exact .inl (unmodelled_next h rfl (by decide))
  | srl rt rd sa => exact shape_seq h rfl (.reg _ _ _ .none)
  | sra rt rd sa => exact shape_seq h rfl (.reg _ _ _ .none)
  | sllv rs rt rd => exact shape_seq h rfl (.reg _ _ _ .none)
  | srlv rs rt rd => exact shape_seq h rfl (.reg _ _ _ .none)
  | srav rs rt rd => exact shape_seq h rfl (.reg _ _ _ .none)
  | jr rs => exact shape_jump h rfl (fun hj => nomatch hj) .none
  | jalr rs rd => exact shape_jump h rfl (fun hj => nomatch hj) (.reg _ _ _ .none)
  | movz rs rt rd => exact shape_seq h rfl (by split; exacts [.reg _ _ _ .none, .none])
  | movn rs rt rd => exact shape_seq h rfl (by split; exacts [.reg _ _ _ .none, .none])
  | syscall code => exact .inl (unmodelled_next h rfl (by decide))
  | break_ code => exact .inl (unmodelled_next h rfl (by decide))
  | sync stype => exact shape_seq h rfl .none
  | mfhi rd => exact shape_seq h rfl (.reg _ _ _ .none)
  | mthi rs => exact shape_seq h rfl (.slot _ _ _ (by decide) (by decide) (.inl (List.mem_singleton.2 rfl)) .none)
  | mflo rd => exact shape_seq h rfl (.reg _ _ _ .none)
  | mtlo rs => exact shape_seq h rfl (.slot _ _ _ (by decide) (by decide) (.inl (List.mem_singleton.2 rfl)) .none)
  | mult rs rt => exact shape_seq h rfl (writes_hiLo _ .none)
  | multu rs rt => exact shape_seq h rfl (writes_hiLo _ .none)
  | div rs rt => exact shape_seq h rfl (writes_hiLo _ .none)
  | divu rs rt => exact shape_seq h rfl (writes_hiLo _ .none)
  | add rs rt rd => exact shape_signed h rfl
  | addu rs rt rd => exact shape_seq h rfl (.reg _ _ _ .none)
  | sub rs rt rd => exact shape_signed h rfl
  | subu rs rt rd => exact shape_seq h rfl (.reg _ _ _ .none)
  | and rs rt rd => exact shape_seq h rfl (.reg _ _ _ .none)
  | or rs rt rd => exact shape_seq h rfl (.reg _ _ _ .none)
  | xor rs rt rd => exact shape_seq h rfl (.reg _ _ _ .none)
  | nor rs rt rd => exact shape_seq h rfl (.reg _ _ _ .none)
  | slt rs rt rd => exact shape_seq h rfl (.reg _ _ _ .none)
  | sltu rs rt rd => exact shape_seq h rfl (.reg _ _ _ .none)
  | tge rs rt rd sa => exact .inl (unmodelled_next h rfl (by decide))
  | tgeu rs rt rd sa => exact .inl (unmodelled_next h rfl (by decide))
  | tlt rs rt rd sa => exact .inl (unmodelled_next h rfl (by decide))
  | tltu rs rt rd sa => exact .inl (unmodelled_next h rfl (by decide))
  | teq rs rt rd sa => exact .inl (unmodelled_next h rfl (by decide))
  | tne rs rt rd sa => exact .inl (unmodelled_next h rfl (by decide))
  | bltz rs imm => exact shape_branch h rfl .none
  | bgez rs imm => exact shape_branch h rfl .none
  | bltzl rs imm => exact shape_likely h rfl rfl .none
  | bgezl rs imm => exact shape_likely h rfl rfl .none
  | tgei rs imm => exact .inl (unmodelled_next h rfl (by decide))
  | tgeiu rs imm => exact .inl (unmodelled_next h rfl (by decide))
  | tlti rs imm => exact .inl (unmodelled_next h rfl (by decide))
  | tltiu rs imm => exact .inl (unmodelled_next h rfl (by decide))
  | teqi rs imm => exact .inl (unmodelled_next h rfl (by decide))
  | tnei rs imm => exact .inl (unmodelled_next h rfl (by decide))
  | bltzal rs imm => exact shape_branch h rfl (.reg _ _ _ .none)
  | bgezal rs imm => exact shape_branch h rfl (.reg _ _ _ .none)
  | bltzall rs imm => exact shape_likely h rfl rfl (.reg _ _ _ .none)
  | bgezall rs imm => exact shape_likely h rfl rfl (.reg _ _ _ .none)
  | synci rs imm => exact .inl (unmodelled_next h rfl (by decide))
  | madd rs rt => exact shape_seq h rfl (writes_hiLo _ .none)
  | maddu rs rt => exact shape_seq h rfl (writes_hiLo _ .none)
  | mul rs rt rd => exact shape_seq h rfl (writes_hiLo _ (.reg _ _ _ .none))
  | msub rs rt => exact shape_seq h rfl (writes_hiLo _ .none)
  | msubu rs rt => exact shape_seq h rfl (writes_hiLo _ .none)
  | clz rs rd => exact shape_seq h rfl (.reg _ _ _ .none)
  | clo rs rd => exact shape_seq h rfl (.reg _ _ _ .none)
  | sdbbp code => exact .inl (unmodelled_next h rfl (by decide))
  | j index => exact shape_jump h rfl (fun _ _ => jumpTarget_aligned _ _) .none
  | jal index => exact shape_jump h rfl (fun _ _ => jumpTarget_aligned _ _) (.reg _ _ _ .none)
  | beq rs rt imm => exact shape_branch h rfl .none
  | bne rs rt imm => exact shape_branch h rfl .none
  | blez rs imm => exact shape_branch h rfl .none
  | bgtz rs imm => exact shape_branch h rfl .none
  | addi rs rt imm => exact shape_signed h rfl
  | addiu rs rt imm => exact shape_seq h rfl (.reg _ _ _ .none)
  | slti rs rt imm => exact shape_seq h rfl (.reg _ _ _ .none)
  | sltiu rs rt imm => exact shape_seq h rfl (.reg _ _ _ .none)
  | andi rs rt imm => exact shape_seq h rfl (.reg _ _ _ .none)
  | ori rs rt imm => exact shape_seq h rfl (.reg _ _ _ .none)
  | xori rs rt imm => exact shape_seq h rfl (.reg _ _ _ .none)
  | lui rt imm => exact shape_seq h rfl (.reg _ _ _ .none)
  | cop0 rs rt imm => exact .inl (unmodelled_next h rfl (by decide))
  | cop1 rs rt imm => exact .inl (unmodelled_next h rfl (by decide))
  | cop2 rs rt imm => exact .inl (unmodelled_next h rfl (by decide))
  | cop1x rs rt imm => exact .inl (unmodelled_next h rfl (by decide))
  | beql rs rt imm => exact shape_likely h rfl rfl .none
  | bnel rs rt imm => exact shape_likely h rfl rfl .none
  | blezl rs imm => exact shape_likely h rfl rfl .none
  | bgtzl rs imm => exact shape_likely h rfl rfl .none
  | jalx index => exact .inl (unmodelled_next h rfl (by decide))
  | special3 rs rt imm => exact .inl (unmodelled_next h rfl (by decide))
  | lb rs rt imm => exact shape_finish h rfl (memReadByte_errors _ _) fun _ _ => .reg _ _ _ .none
  | lh rs rt imm => exact shape_finish h rfl (memReadHalf_errors _ _) fun _ _ => .reg _ _ _ .none
  | lwl rs rt imm => exact shape_finish h rfl (memReadWord_errors _ _ _) fun _ _ => .reg _ _ _ .none
  | lw rs rt imm => exact shape_finish h rfl (memReadWord_errors _ _ _) fun p hp => .reg _ _ _ (memReadWord_writes _ _ _ _ _ _ _ hp)
  | lbu rs rt imm => exact shape_finish h rfl (memReadByte_errors _ _) fun _ _ => .reg _ _ _ .none
  | lhu rs rt imm => exact shape_finish h rfl (memReadHalf_errors _ _) fun _ _ => .reg _ _ _ .none
  | lwr rs rt imm => exact shape_finish h rfl (memReadWord_errors _ _ _) fun _ _ => .reg _ _ _ .none
  | sb rs rt imm => exact shape_finish h rfl (memWriteByte_errors _ _ _) fun _ hp => memWriteByte_writes _ _ _ _ _ _ _ _ .none hp
  | sh rs rt imm => exact shape_finish h rfl (memWriteHalf_errors _ _ _) fun _ hp => memWriteHalf_writes _ _ _ _ _ _ _ _ .none hp
  | swl rs rt imm => exact shape_finish h rfl (readModify_errors _ _ _) fun _ hp => readModify_writes hp
  | sw rs rt imm => exact shape_finish h rfl (memWriteWord_errors _ _ _) fun _ hp => memWriteWord_writes _ _ _ _ _ _ _ _ .none hp
  | swr rs rt imm => exact shape_finish h rfl (readModify_errors _ _ _) fun _ hp => readModify_writes hp
  | cache rs rt imm => exact .inl (unmodelled_next h rfl (by decide))
  | ll rs rt imm => exact shape_finish h rfl (memReadWord_errors _ _ _) fun _ _ => .llbit _ rfl (.reg _ _ _ .none)
  | lwc1 rs rt imm => exact .inl (unmodelled_next h rfl (by decide))
  | lwc2 rs rt imm => exact .inl (unmodelled_next h rfl (by decide))
  | pref rs rt imm => exact .inl (unmodelled_next h rfl (by decide))
  | ldc1 rs rt imm => exact .inl (unmodelled_next h rfl (by decide))
  | ldc2 rs rt imm => exact .inl (unmodelled_next h rfl (by decide))
  | sc rs rt imm => exact shape_sc h
  | swc1 rs rt imm => exact .inl (unmodelled_next h rfl (by decide))
  | swc2 rs rt imm => exact .inl (unmodelled_next h rfl (by decide))
  | sdc1 rs rt imm => exact .inl (unmodelled_next h rfl (by decide))
  | sdc2 rs rt imm => exact .inl (unmodelled_next h rfl (by decide))

end Sys2Proof.Machine
end

