-- ==== Sys2Proof/Laws/Fields.lean ====
section
/-! SUPPORT. A word is its fields; so the encoder gives a decoded word back exactly when its must-be-zero check holds
(30_encoding.md R150 to R154, R167). -/

namespace Sys2Proof

theorem split_append {n m : Nat} (w : BitVec (n + m)) : w.extractLsb' m n ++ w.extractLsb' 0 m = w := by
  apply BitVec.eq_of_getLsbD_eq
  intro k hk
  simp only [BitVec.getLsbD_append, BitVec.getLsbD_extractLsb']
  split
  · simp [*]
  · simp [show k - m < n by omega, show m + (k - m) = k by omega]

theorem append_eq_iff {n m : Nat} (a : BitVec n) (b : BitVec m) (w : BitVec (n + m)) :
    a ++ b = w ↔ w.extractLsb' m n = a ∧ w.extractLsb' 0 m = b := by
  constructor
  · rintro rfl
    rw [extract_append_hi _ _ _ (Nat.le_refl _), extract_append_lo _ _ _ (by omega), Nat.sub_self, extract_all,
      extract_all]
    exact ⟨rfl, rfl⟩
  · rintro ⟨rfl, rfl⟩; exact split_append w

theorem eq_append_iff {n m : Nat} (a : BitVec n) (b : BitVec m) (w : BitVec (n + m)) :
    w = a ++ b ↔ w.extractLsb' m n = a ∧ w.extractLsb' 0 m = b := eq_comm.trans (append_eq_iff a b w)

theorem extract_extract {n : Nat} (w : BitVec n) (lo1 len1 lo2 len2 : Nat) (h : lo2 + len2 ≤ len1) :
    (w.extractLsb' lo1 len1).extractLsb' lo2 len2 = w.extractLsb' (lo1 + lo2) len2 := by
  apply BitVec.eq_of_getLsbD_eq
  intro k hk
  simp only [BitVec.getLsbD_extractLsb', hk, decide_true, Bool.true_and, show lo2 + k < len1 by omega]
  congr 1
  omega

theorem rType_eq_iff (op : BitVec 6) (rs rt rd : RegNum) (sa : BitVec 5) (funct : BitVec 6) (w : Word) :
    rType op rs rt rd sa funct = w ↔
      opField w = op ∧ rsField w = rs ∧ rtField w = rt ∧ rdField w = rd ∧ saField w = sa ∧ functField w = funct := by
  unfold rType opField rsField rtField rdField saField functField
  rw [append_eq_iff (n := 26) (m := 6), eq_append_iff (n := 21) (m := 5), eq_append_iff (n := 16) (m := 5),
    eq_append_iff (n := 11) (m := 5), eq_append_iff (n := 6) (m := 5)]
  simp only [extract_extract, Nat.reduceAdd, Nat.reduceLeDiff, and_assoc]

theorem iType_eq_iff (op : BitVec 6) (rs rt : RegNum) (imm : Imm16) (w : Word) :
    iType op rs rt imm = w ↔ opField w = op ∧ rsField w = rs ∧ rtField w = rt ∧ immField w = imm := by
  unfold iType opField rsField rtField immField
  rw [append_eq_iff (n := 16) (m := 16), eq_append_iff (n := 11) (m := 5), eq_append_iff (n := 6) (m := 5)]
  simp only [extract_extract, Nat.reduceAdd, Nat.reduceLeDiff, and_assoc]

theorem jType_eq_iff (op : BitVec 6) (index : Index26) (w : Word) :
    jType op index = w ↔ opField w = op ∧ indexField w = index :=
  append_eq_iff (n := 6) (m := 26) op index w

theorem codeType_eq_iff (op : BitVec 6) (code : BitVec 20) (funct : BitVec 6) (w : Word) :
    codeType op code funct = w ↔ opField w = op ∧ codeField w = code ∧ functField w = funct := by
  unfold codeType opField codeField functField
  rw [append_eq_iff (n := 26) (m := 6), eq_append_iff (n := 6) (m := 20)]
  simp only [extract_extract, Nat.reduceAdd, Nat.reduceLeDiff, and_assoc]

theorem mem_of_assoc {α β : Type} [DecidableEq α] (k : α) (v : β) (l : List (α × β)) (h : assoc k l = some v) :
    (k, v) ∈ l := by
  induction l with
  | nil => cases h
  | cons p rest ih =>
    obtain ⟨a, b⟩ := p
    simp only [assoc] at h
    split at h
    · rename_i e; simp only [Option.some.injEq] at h; subst e h; exact List.mem_cons_self
    · exact List.mem_cons_of_mem _ (ih h)

theorem eq_ofNat_of_toNat {n k : Nat} (x : BitVec n) (h : x.toNat = k) : BitVec.ofNat n k = x := by
  apply BitVec.eq_of_toNat_eq
  rw [BitVec.toNat_ofNat, h, Nat.mod_eq_of_lt (h ▸ x.isLt)]

/-- What the encoder writes for a word of the SPECIAL map. -/
theorem encode_special (w : Word) (m : Mnemonic) (h0 : opField w = 0x00)
    (hm : ((functField w).toNat, m) ∈ specialMap) :
    encode (Instr.ofFields w m) = w ↔ fieldsOK w m = true := by
  simp only [specialMap, specialMapA, specialMapB, specialMapC, List.cons_append, List.nil_append, List.mem_cons,
    Prod.mk.injEq, List.not_mem_nil, or_false] at hm
  rcases hm with ⟨hk, rfl⟩ | ⟨hk, rfl⟩ | ⟨hk, rfl⟩ | ⟨hk, rfl⟩ | ⟨hk, rfl⟩ | ⟨hk, rfl⟩ | ⟨hk, rfl⟩ | ⟨hk, rfl⟩ |
      ⟨hk, rfl⟩ | ⟨hk, rfl⟩ | ⟨hk, rfl⟩ | ⟨hk, rfl⟩ | ⟨hk, rfl⟩ | ⟨hk, rfl⟩ | ⟨hk, rfl⟩ | ⟨hk, rfl⟩ | ⟨hk,
      rfl⟩ | ⟨hk, rfl⟩ | ⟨hk, rfl⟩ | ⟨hk, rfl⟩ | ⟨hk, rfl⟩ | ⟨hk, rfl⟩ | ⟨hk, rfl⟩ | ⟨hk, rfl⟩ | ⟨hk, rfl⟩ |
      ⟨hk, rfl⟩ | ⟨hk, rfl⟩ | ⟨hk, rfl⟩ | ⟨hk, rfl⟩ | ⟨hk, rfl⟩ | ⟨hk, rfl⟩ | ⟨hk, rfl⟩ | ⟨hk, rfl⟩ | ⟨hk,
      rfl⟩ | ⟨hk, rfl⟩ | ⟨hk, rfl⟩ | ⟨hk, rfl⟩ | ⟨hk, rfl⟩ <;>
  · have hf := (eq_ofNat_of_toNat _ hk).symm
    simp [Instr.ofFields, encode, rType_eq_iff, codeType_eq_iff, fieldsOK, h0, hf, and_assoc]

/-- What the encoder writes for a word of the SPECIAL2 map. -/
theorem encode_special2 (w : Word) (m : Mnemonic) (h0 : opField w = 0x1C)
    (hm : ((functField w).toNat, m) ∈ special2Map) :
    encode (Instr.ofFields w m) = w ↔ fieldsOK w m = true := by
  simp only [special2Map, List.mem_cons, Prod.mk.injEq, List.not_mem_nil, or_false] at hm
  rcases hm with ⟨hk, rfl⟩ | ⟨hk, rfl⟩ | ⟨hk, rfl⟩ | ⟨hk, rfl⟩ | ⟨hk, rfl⟩ | ⟨hk, rfl⟩ | ⟨hk, rfl⟩ | ⟨hk, rfl⟩
      <;>
  · have hf := (eq_ofNat_of_toNat _ hk).symm
    simp [Instr.ofFields, encode, rType_eq_iff, codeType_eq_iff, fieldsOK, h0, hf, and_comm]

/-- What the encoder writes for a word of the REGIMM map. -/
theorem encode_regimm (w : Word) (m : Mnemonic) (h0 : opField w = 0x01)
    (hm : ((rtField w).toNat, m) ∈ regimmMap) :
    encode (Instr.ofFields w m) = w ↔ fieldsOK w m = true := by
  simp only [regimmMap, List.mem_cons, Prod.mk.injEq, List.not_mem_nil, or_false] at hm
  rcases hm with ⟨hk, rfl⟩ | ⟨hk, rfl⟩ | ⟨hk, rfl⟩ | ⟨hk, rfl⟩ | ⟨hk, rfl⟩ | ⟨hk, rfl⟩ | ⟨hk, rfl⟩ | ⟨hk, rfl⟩ |
      ⟨hk, rfl⟩ | ⟨hk, rfl⟩ | ⟨hk, rfl⟩ | ⟨hk, rfl⟩ | ⟨hk, rfl⟩ | ⟨hk, rfl⟩ | ⟨hk, rfl⟩ <;>
  · have hf := (eq_ofNat_of_toNat _ hk).symm
    simp [Instr.ofFields, encode, iType_eq_iff, fieldsOK, h0, hf]

/-- What the encoder writes for a word of the primary map. -/
theorem encode_primary (w : Word) (m : Mnemonic) (hm : ((opField w).toNat, m) ∈ primaryMap) :
    encode (Instr.ofFields w m) = w ↔ fieldsOK w m = true := by
  simp only [primaryMap, primaryMapA, primaryMapB, primaryMapC, List.cons_append, List.nil_append, List.mem_cons,
    Prod.mk.injEq, List.not_mem_nil, or_false] at hm
  rcases hm with ⟨hk, rfl⟩ | ⟨hk, rfl⟩ | ⟨hk, rfl⟩ | ⟨hk, rfl⟩ | ⟨hk, rfl⟩ | ⟨hk, rfl⟩ | ⟨hk, rfl⟩ | ⟨hk, rfl⟩ |
      ⟨hk, rfl⟩ | ⟨hk, rfl⟩ | ⟨hk, rfl⟩ | ⟨hk, rfl⟩ | ⟨hk, rfl⟩ | ⟨hk, rfl⟩ | ⟨hk, rfl⟩ | ⟨hk, rfl⟩ | ⟨hk,
      rfl⟩ | ⟨hk, rfl⟩ | ⟨hk, rfl⟩ | ⟨hk, rfl⟩ | ⟨hk, rfl⟩ | ⟨hk, rfl⟩ | ⟨hk, rfl⟩ | ⟨hk, rfl⟩ | ⟨hk, rfl⟩ |
      ⟨hk, rfl⟩ | ⟨hk, rfl⟩ | ⟨hk, rfl⟩ | ⟨hk, rfl⟩ | ⟨hk, rfl⟩ | ⟨hk, rfl⟩ | ⟨hk, rfl⟩ | ⟨hk, rfl⟩ | ⟨hk,
      rfl⟩ | ⟨hk, rfl⟩ | ⟨hk, rfl⟩ | ⟨hk, rfl⟩ | ⟨hk, rfl⟩ | ⟨hk, rfl⟩ | ⟨hk, rfl⟩ | ⟨hk, rfl⟩ | ⟨hk, rfl⟩ |
      ⟨hk, rfl⟩ | ⟨hk, rfl⟩ | ⟨hk, rfl⟩ | ⟨hk, rfl⟩ | ⟨hk, rfl⟩ | ⟨hk, rfl⟩ <;>
  · have hf := (eq_ofNat_of_toNat _ hk).symm
    simp [Instr.ofFields, encode, iType_eq_iff, jType_eq_iff, fieldsOK, hf]

/-- The encoder gives a word back exactly when the word's must-be-zero check holds. -/
theorem encode_ofFields (w : Word) (m : Mnemonic) (hs : selectMnemonic w = some m) :
    encode (Instr.ofFields w m) = w ↔ fieldsOK w m = true := by
  unfold selectMnemonic at hs
  simp only at hs
  split at hs
  · rename_i h0; exact encode_special w m (eq_ofNat_of_toNat _ h0).symm (mem_of_assoc _ _ _ hs)
  · split at hs
    · rename_i h0; exact encode_regimm w m (eq_ofNat_of_toNat _ h0).symm (mem_of_assoc _ _ _ hs)
    · split at hs
      · rename_i h0; exact encode_special2 w m (eq_ofNat_of_toNat _ h0).symm (mem_of_assoc _ _ _ hs)
      · exact encode_primary w m (mem_of_assoc _ _ _ hs)

end Sys2Proof
end

