-- ==== Sys2Proof/Laws/Oracle.lean ====
section
/-! SUPPORT. The oracle window and trigger (20_memory.md R110, R118, R121): the words a trigger writes, and their place under
a valid parameter set. -/

namespace Sys2Proof.Machine

open Memory

/-- Word `k` of the words stored from `base` on. -/
theorem mword_setMwords_get (m : Memory) (base : Word) (ws : List Word) (k : Nat) (w : Word)
    (hn : 4 * ws.length ≤ 2 ^ 32) (h : ws[k]? = some w) :
    mword (setMwords m base ws) (base + BitVec.ofNat 32 (4 * k)) = w := by
  induction ws generalizing m base k with
  | nil => simp at h
  | cons v ws ih =>
    rw [List.length_cons] at hn
    rw [setMwords]
    cases k with
    | zero =>
      simp only [List.getElem?_cons_zero, Option.some.injEq] at h
      subst h
      rw [Nat.mul_zero, BitVec.add_zero]
      refine (mword_congr _ _ _ fun j hj => ?_).trans (mword_setMword m base v)
      refine readByte_setMwords_of_ne _ _ _ _ fun i hi e => ?_
      have e' := BitVec.eq_of_toNat_eq e
      bv_omega
    | succ k =>
      rw [List.getElem?_cons_succ] at h
      have := ih (setMword m base v) (base + 4) k (by omega) h
      rwa [show base + 4 + BitVec.ofNat 32 (4 * k) = base + BitVec.ofNat 32 (4 * (k + 1)) from by
        rw [BitVec.add_assoc]; congr 1; rw [Nat.mul_succ, BitVec.ofNat_add]; exact BitVec.add_comm _ _] at this

/-- A word apart from the words stored from `base` on. -/
theorem mword_setMwords_of_ne (m : Memory) (base : Word) (ws : List Word) (a : Word)
    (h : ∀ i j, i < 4 * ws.length → j < 4 → a + BitVec.ofNat 32 j ≠ base + BitVec.ofNat 32 i) :
    mword (setMwords m base ws) a = mword m a :=
  mword_congr _ _ _ fun j hj => readByte_setMwords_of_ne _ _ _ _ fun i hi e =>
    h i j hi hj (BitVec.eq_of_toNat_eq e)

end Sys2Proof.Machine

namespace Sys2Proof.Config

/-- What a valid parameter set says of the oracle mailbox and the Register File View, as numbers. -/
structure Apart (c : Config) : Prop where
  reg : c.regBase.toNat % 4 = 0 ∧ c.regBase.toNat + 140 ≤ 2 ^ 32
  trig : c.oracleTrigger.toNat % 4 = 0
  win : c.oracleWinBase.toNat % 4 = 0 ∧ c.oracleWinBase.toNat + 4 * c.oracleWinWords ≤ 2 ^ 32
  key : c.oracleKeyBase.toNat % 4 = 0 ∧ c.oracleKeyBase.toNat + 4 * c.oracleKeyWords ≤ 2 ^ 32
  trig_reg : c.oracleTrigger.toNat + 4 ≤ c.regBase.toNat ∨ c.regBase.toNat + 140 ≤ c.oracleTrigger.toNat
  trig_key : c.oracleTrigger.toNat + 4 ≤ c.oracleKeyBase.toNat ∨
    c.oracleKeyBase.toNat + 4 * c.oracleKeyWords ≤ c.oracleTrigger.toNat
  win_reg : c.oracleWinWords = 0 ∨ c.regBase.toNat + 140 ≤ c.oracleWinBase.toNat ∨
    c.oracleWinBase.toNat + 4 * c.oracleWinWords ≤ c.regBase.toNat
  win_key : c.oracleWinWords = 0 ∨ c.oracleKeyBase.toNat + 4 * c.oracleKeyWords ≤ c.oracleWinBase.toNat ∨
    c.oracleWinBase.toNat + 4 * c.oracleWinWords ≤ c.oracleKeyBase.toNat

theorem apart (c : Config) (h : c.wf = true) : c.Apart := by
  simp only [wf, wfAligned, wfNoWrap, wfKeyWords, wfDisjoint, wfTrigger, WordRange.aligned, WordRange.noWrap,
    WordRange.disjoint, regRange, keyRange, trigRange, winRange, Bool.and_eq_true, beq_iff_eq,
    decide_eq_true_eq, slots] at h
  obtain ⟨⟨⟨⟨⟨⟨⟨⟨⟨a1, a2⟩, a3⟩, a4⟩, _⟩, ⟨b1, b2⟩, b3⟩, k1⟩, ⟨d1, d2⟩, d3⟩, t1, t2⟩, _⟩ := h
  have b1 := of_decide_eq_true b1
  have b2 := of_decide_eq_true b2
  have b3 := of_decide_eq_true b3
  have d2 := of_decide_eq_true d2
  have d3 := of_decide_eq_true d3
  have t1 := of_decide_eq_true t1
  have t2 := of_decide_eq_true t2
  constructor <;> omega

end Sys2Proof.Config

namespace Sys2Proof.Machine

theorem classOf_trig (c : Config) (h : c.Apart) : classOf c c.oracleTrigger = .trig := by
  have hr : inWords c.regBase Config.slots c.oracleTrigger = false := by
    rw [← Bool.not_eq_true, inWords_iff]
    have := h.trig_reg; have := h.reg; have := h.trig
    simp only [Config.slots]
    bv_omega
  simp [classOf, hr]

/-- The words of the window and the trigger word, as the places of their bytes. -/
theorem word_apart_slot (c : Config) (h : c.Apart) (a : Word) (ha : a.toNat % 4 = 0)
    (hr : a.toNat + 4 ≤ c.regBase.toNat ∨ c.regBase.toNat + 140 ≤ a.toNat) :
    inWords c.regBase Config.slots a = false := by
  rw [← Bool.not_eq_true, inWords_iff]
  have := h.reg
  simp only [Config.slots]
  bv_omega

theorem win_word (c : Config) (h : c.Apart) (k : Nat) (hk : k < c.oracleWinWords) :
    (c.oracleWinBase + BitVec.ofNat 32 (4 * k)).toNat = c.oracleWinBase.toNat + 4 * k := by
  have := h.win
  bv_omega

theorem win_not_slot (c : Config) (h : c.Apart) (k : Nat) (hk : k < c.oracleWinWords) :
    inWords c.regBase Config.slots (c.oracleWinBase + BitVec.ofNat 32 (4 * k)) = false := by
  have hw := win_word c h k hk
  have := h.win; have := h.win_reg; have := h.reg
  refine word_apart_slot c h _ (by omega) (by omega)

/-- The trigger lies in the window exactly when it is one of its words. -/
theorem trigger_in_window (c : Config) (h : c.Apart) :
    inWords c.oracleWinBase c.oracleWinWords c.oracleTrigger = true ↔
      ∃ k, k < c.oracleWinWords ∧ c.oracleWinBase + BitVec.ofNat 32 (4 * k) = c.oracleTrigger := by
  rw [inWords_iff]
  have := h.win; have := h.trig
  constructor
  · rintro ⟨h1, h2⟩
    refine ⟨(c.oracleTrigger - c.oracleWinBase).toNat / 4, by omega, ?_⟩
    rw [Nat.mul_div_cancel' (Nat.dvd_of_mod_eq_zero h1)]
    bv_omega
  · rintro ⟨k, hk, e⟩
    rw [← e]
    have : (c.oracleWinBase + BitVec.ofNat 32 (4 * k) - c.oracleWinBase).toNat = 4 * k := by bv_omega
    omega

end Sys2Proof.Machine
end

