-- ==== Sys2Proof/Laws/Step.lean ====
section
/-! SUPPORT. What one turn of the Step Loop can do (40_step_cycle.md R200 to R212). -/

namespace Sys2Proof.Machine

theorem step_of_live (s : State) (h : Live s) : step s = cycle s := by
  simp only [step, loopTurn, h.unmarked, h.running, if_neg h.budget]

theorem step_of_fetches (s : State) (w : Word) (h : Fetches s w) : step s = runWord w s := by
  rw [step_of_live s h.toLive, cycle, fetchWord, if_pos (show byteOffset s.getPC = 0 from h.aligned)]
  simp only [h.word]

theorem step_of_op (s : State) (w : Word) (i : Instr) (h : Fetches s w)
    (hd : decode s.cfg w = .op (describe w i)) : step s = runInstr i s := by
  simp only [step_of_fetches s w h, runWord, hd, describe_instr]

/-- The step runs the decoded instruction: charge, execute, count and halt check. -/
theorem step_of_decode (s : State) (w : Word) (i : Instr) (h : Fetches s w)
    (hd : decode s.cfg w = .op (describe w i)) (hc : ctRefused s i = false) (hg : gasCostOf s i ≤ s.gas) :
    step s = closeOutcome (exec i (charge i s)) := by
  simp only [step_of_op s w i h hd, runInstr, hc, Bool.false_eq_true, if_false, if_neg (Nat.not_lt.2 hg)]

/-- Every way a step can answer a next state. -/
inductive StepShape (s : State) : State → Prop where
  /-- the budget is used up -/
  | budget : s.status = .running → s.refused = none → s.steps = s.inputs.maxSteps →
      StepShape s { s with status := .budget }
  /-- an error before the charge: fetch, decode or out of gas -/
  | early (e : EngineError) : Live s → stepCharge s = 0 → StepShape s (errorState e s)
  /-- the charged instruction was executed -/
  | ran (i : Instr) (u : State) : Fetches s (s.mword s.getPC) →
      decode s.cfg (s.mword s.getPC) = .op (describe (s.mword s.getPC) i) →
      ctRefused s i = false → gasCostOf s i ≤ s.gas → stepCharge s = gasCostOf s i →
      exec i (charge i s) = .next u → StepShape s (closeStep u)

theorem step_shape (s t : State) (h : step s = .next t) : StepShape s t := by
  unfold step loopTurn at h
  cases hr : s.refused with
  | some q => simp [hr] at h
  | none =>
    cases hs : s.status with
    | halted => simp [hr, hs] at h
    | budget => simp [hr, hs] at h
    | error e => simp [hr, hs] at h
    | running =>
      simp only [hr, hs] at h
      split at h
      · rename_i hb
        simp only [endByBudget, Host.Outcome.next.injEq] at h
        exact h ▸ .budget hs hr hb
      · rename_i hb
        have hl : Live s := ⟨hs, hr, hb⟩
        unfold cycle fetchWord at h
        split at h
        · rename_i w hw
          split at hw
          · rename_i ha
            simp only [Res.ok.injEq] at hw
            subst hw
            have hf : Fetches s (s.mword s.getPC) := { hl with aligned := ha, word := rfl }
            have hcond : s.status = .running ∧ s.refused = none ∧ s.steps ≠ s.inputs.maxSteps ∧
                s.getPC.toNat % 4 = 0 := ⟨hs, hr, hb, ha⟩
            unfold runWord at h
            cases hd : decode s.cfg (s.mword s.getPC) with
            | op o =>
              simp only [hd, runInstr] at h
              split at h
              · cases h
              · rename_i hc
                split at h
                · rename_i hg
                  simp only [takeError_eq, Host.Outcome.next.injEq] at h
                  refine h ▸ .early _ hl ?_
                  rw [stepCharge, if_pos hcond, hd]
                  exact if_neg (Nat.not_le.2 hg)
                · rename_i hg
                  cases he : exec o.instr (charge o.instr s) with
                  | fault f => simp [he, closeOutcome] at h
                  | refused q => simp [he, closeOutcome] at h
                  | next u =>
                    simp only [he, closeOutcome, Host.Outcome.next.injEq] at h
                    refine h ▸ .ran o.instr u hf ((decode_op _ _ _ hd).2.2 ▸ hd) (by simpa using hc) (Nat.not_lt.1 hg) ?_ he
                    rw [stepCharge, if_pos hcond, hd]
                    exact if_pos (Nat.not_lt.1 hg)
            | invalidOpcode =>
              simp only [hd, takeError_eq, Host.Outcome.next.injEq] at h
              refine h ▸ .early _ hl ?_
              rw [stepCharge, if_pos hcond, hd]
            | groupUnknown g => simp [hd] at h
            | fieldsRefused => simp [hd] at h
          · cases hw
        · rename_i e hw
          simp only [takeError_eq, Host.Outcome.next.injEq] at h
          refine h ▸ .early _ hl ?_
          split at hw
          · cases hw
          · rename_i ha
            rw [stepCharge, if_neg]
            exact fun hc => ha hc.2.2.2
        · cases h

/-- A meaning keeps the Step Loop's own state, but for the status of an error. -/
theorem exec_loop (i : Instr) (s t : State) (h : exec i s = .next t) :
    t.gas = s.gas ∧ t.steps = s.steps ∧ t.refused = s.refused ∧ t.cfg = s.cfg ∧ t.inputs = s.inputs := by
  rcases exec_shape i s t h with ⟨e, rfl, -⟩ | ⟨s1, c, rfl, -, -, -, hw⟩
  · exact ⟨rfl, rfl, rfl, rfl, rfl⟩
  · have k := hw.loopKept
    exact ⟨k.gas, k.steps, k.refused, k.cfg, k.inputs⟩

@[simp] theorem closeStep_mem (s : State) : (closeStep s).mem = s.mem := by
  simp only [closeStep]; split <;> [split; skip] <;> rfl
@[simp] theorem closeStep_npc (s : State) : (closeStep s).npc = s.npc := by
  simp only [closeStep]; split <;> [split; skip] <;> rfl
@[simp] theorem closeStep_gas (s : State) : (closeStep s).gas = s.gas := by
  simp only [closeStep]; split <;> [split; skip] <;> rfl
@[simp] theorem closeStep_cache (s : State) : (closeStep s).cache = s.cache := by
  simp only [closeStep]; split <;> [split; skip] <;> rfl
@[simp] theorem closeStep_ds (s : State) : (closeStep s).ds = s.ds := by
  simp only [closeStep]; split <;> [split; skip] <;> rfl
@[simp] theorem closeStep_llbit (s : State) : (closeStep s).llbit = s.llbit := by
  simp only [closeStep]; split <;> [split; skip] <;> rfl
@[simp] theorem closeStep_refused (s : State) : (closeStep s).refused = s.refused := by
  simp only [closeStep]; split <;> [split; skip] <;> rfl
@[simp] theorem closeStep_cfg (s : State) : (closeStep s).cfg = s.cfg := by
  simp only [closeStep]; split <;> [split; skip] <;> rfl
@[simp] theorem closeStep_inputs (s : State) : (closeStep s).inputs = s.inputs := by
  simp only [closeStep]; split <;> [split; skip] <;> rfl

@[simp] theorem closeStep_slot (s : State) (k : Nat) : (closeStep s).slot k = s.slot k := by
  simp [State.slot, State.mword]
@[simp] theorem closeStep_getPC (s : State) : (closeStep s).getPC = s.getPC := closeStep_slot s _

@[simp] theorem charge_slot (i : Instr) (s : State) (k : Nat) : (charge i s).slot k = s.slot k := rfl
@[simp] theorem charge_getReg (i : Instr) (s : State) (k : RegNum) : (charge i s).getReg k = s.getReg k := rfl
@[simp] theorem charge_getPC (i : Instr) (s : State) : (charge i s).getPC = s.getPC := rfl

/-- A step charges exactly `stepCharge` (40_step_cycle.md R205, R217). -/
theorem step_gas (s t : State) (h : step s = .next t) : t.gas + stepCharge s = s.gas := by
  cases step_shape s t h with
  | budget hs hr hb => simp [stepCharge, hb]
  | early e _ h0 => simp [errorState, h0]
  | ran i u _ _ _ hg hc hx =>
    have := (exec_loop i _ u hx).1
    rw [closeStep_gas, this, charge_gas, hc]
    omega

/-- The close of a committed step: counted, then checked for the halt (40_step_cycle.md R211, R212). -/
theorem closeStep_running (s : State) (h : s.status = .running) :
    closeStep s = { s with steps := s.steps + 1, status := if haltedNow s then .halted else .running } := by
  have e : haltedNow { s with steps := s.steps + 1 } = haltedNow s := rfl
  unfold closeStep
  rw [if_pos h]
  simp only [e]
  cases haltedNow s <;> simp [h]

/-- The close of a step that did not commit. -/
theorem closeStep_of_not_running (s : State) (h : s.status ≠ .running) : closeStep s = s := by
  unfold closeStep
  rw [if_neg h]

/-- A meaning leaves the run running, or ends it with an error. -/
theorem exec_status (i : Instr) (s t : State) (h : exec i s = .next t) (hs : s.status = .running) :
    t.status = .running ∨ ∃ e, t.status = .error e := by
  rcases exec_shape _ _ _ h with ⟨e, rfl, _⟩ | ⟨s1, c, rfl, _, _, _, hw⟩
  · exact .inr ⟨_, rfl⟩
  · exact .inl (by rw [commit_status, hw.loopKept.status, hs])

/-- A decoded instruction belongs to no unmodelled group (30_encoding.md R166; 45_system.md R450). -/
theorem not_unmodelled_of_decode (c : Config) (w : Word) (i : Instr) (h : decode c w = .op (describe w i)) :
    ¬ Unmodelled i.group := by
  intro hu
  have hp : c.presence i.group = .implemented := (decode_op c w _ h).2.1
  simp only [Unmodelled, List.mem_cons, List.not_mem_nil, or_false] at hu
  rcases hu with h | h | h | h | h | h <;> rw [h] at hp <;> simp only [Config.presence] at hp
  · cases h : c.groupSyscall <;> simp [h, Absence.toPresence] at hp
  · cases h : c.groupBreak <;> simp [h, Absence.toPresence] at hp
  · cases h : c.groupTrap <;> simp [h, Absence.toPresence] at hp
  · cases h : c.groupCop <;> simp [h, Absence.toPresence] at hp
  · cases h : c.groupAse <;> simp [h, Absence.toPresence] at hp
  · cases h : c.groupR2 <;> simp [h, Absence.toPresence] at hp

theorem ctRefused_iff (s : State) (i : Instr) : ctRefused s i = true ↔ CtRefused i s := by
  simp [ctRefused, CtRefused, and_assoc]

/-- A committed step is shown to the observer, if one is supplied (00_scope.md R14; 40_step_cycle.md R210). -/
theorem observation_of_committed (s t : State) (h : t.steps = s.steps + 1) :
    observation s t = if s.inputs.observer then some ⟨s.steps, regSnapshot t, t.mem⟩ else none := by
  simp [observation, h]

/-- A step that does not commit is shown to no observer. -/
theorem observation_of_uncounted (s t : State) (h : t.steps = s.steps) : observation s t = none := by
  simp [observation, h]

/-- `ranStep` is the model's execute, commit, count and halt check. -/
theorem ranStep_eq (i : Instr) (s : State) :
    ranStep i (s.cfg.gasCost i.mnemonic) s = closeOutcome (exec i (charge i s)) := by
  have e : ({ s with gas := s.gas - s.cfg.gasCost i.mnemonic } : State) = charge i s := rfl
  unfold ranStep
  rw [e]
  cases exec i (charge i s) with
  | fault f => rfl
  | refused q => rfl
  | next t =>
    simp only [closeOutcome]
    by_cases h : t.status = .running
    · rw [closeStep_running t h, if_pos h]
    · rw [closeStep_of_not_running t h, if_neg h]

end Sys2Proof.Machine
end

