-- ==== Sys2Proof/Laws/Invariants.lean ====
section
/-! SUPPORT. What no instruction changes under a valid parameter set: the word of register 0 (10_state.md R54), the
window and the trigger word but for a trigger (20_memory.md R118, R129), HI and LO but for their writers (10_state.md R59). -/

namespace Sys2Proof.Machine

open Memory

/-- The words of the window leave every slot alone. -/
theorem mword_window_slot (m : Memory) (c : Config) (ws : List Word) (k : Nat) (h : c.Apart)
    (hl : ws.length = c.oracleWinWords) (hk : k < 35) :
    mword (setMwords m c.oracleWinBase ws) (slotAddr c k) = mword m (slotAddr c k) := by
  refine mword_setMwords_of_ne _ _ _ _ fun i j hi hj e => ?_
  have := h.win_reg
  have := h.reg
  have := h.win
  unfold slotAddr at e
  bv_omega

variable {lw ll : Bool} {sl : List Nat} {s t : State}

/-- No write reaches the slot of register 0. -/
theorem Writes.slot_zero (h : Writes lw ll sl s t) (hc : s.cfg.wf = true) : t.slot 0 = s.slot 0 := by
  have ha := s.cfg.apart hc
  induction h with
  | none => rfl
  | reg u n v _ ih =>
    unfold State.setReg
    split
    · exact ih
    · rename_i hn
      refine (State.slot_setSlot_ne _ _ _ _ (by decide) (by have := n.isLt; omega) ?_).trans ih
      exact fun e => hn (BitVec.eq_of_toNat_eq e.symm)
  | slot u k v h32 h35 _ _ ih =>
    exact (State.slot_setSlot_ne _ _ _ _ (by decide) h35 (by omega)).trans ih
  | plain u wa v hwa hp hu ih =>
    have hcfg := hu.loopKept.cfg
    refine (slot_setMword_plain u wa v 0 (hcfg ▸ ha.reg.1) hwa ?_ (by decide)).trans ih
    rw [hcfg]; exact classOf_not_reg _ _ (by rcases hp with e | e <;> rw [e] <;> decide)
  | oracle u key bytes ws _ _ hl _ hu ih =>
    have hcfg := hu.loopKept.cfg
    have hc' : slotAddr u.cfg 0 = slotAddr s.cfg 0 := by rw [hcfg]
    refine Eq.trans ?_ ih
    change mword (setMwords u.mem s.cfg.oracleWinBase ws) (slotAddr u.cfg 0) = mword u.mem (slotAddr u.cfg 0)
    rw [hc']
    exact mword_window_slot _ _ _ _ ha hl (by decide)
  | llbit u _ _ ih => exact ih

/-- The slots of HI and LO change only where the rule writes them or data accesses reach them. -/
theorem Writes.slot_kept (h : Writes lw ll sl s t) (hc : s.cfg.wf = true) (hr : s.cfg.regfileData = .refuse)
    (k : Nat) (h32 : 32 ≤ k) (h35 : k < 35) (hk : k ∉ sl) : t.slot k = s.slot k := by
  have ha := s.cfg.apart hc
  induction h with
  | none => rfl
  | reg u n v _ ih =>
    exact (State.slot_setReg_ne _ _ _ _ h35 (by have := n.isLt; omega)).trans ih
  | slot u k' v _ h35' hs _ ih =>
    have hs' : k' ∈ sl := hs.resolve_right (by rw [hr]; decide)
    exact (State.slot_setSlot_ne _ _ _ _ h35 h35' (fun e => hk (e ▸ hs'))).trans ih
  | plain u wa v hwa hp hu ih =>
    have hcfg := hu.loopKept.cfg
    refine (slot_setMword_plain u wa v k (hcfg ▸ ha.reg.1) hwa ?_ h35).trans ih
    rw [hcfg]; exact classOf_not_reg _ _ (by rcases hp with e | e <;> rw [e] <;> decide)
  | oracle u key bytes ws _ _ hl _ hu ih =>
    have hcfg := hu.loopKept.cfg
    have hc' : slotAddr u.cfg k = slotAddr s.cfg k := by rw [hcfg]
    refine Eq.trans ?_ ih
    change mword (setMwords u.mem s.cfg.oracleWinBase ws) (slotAddr u.cfg k) = mword u.mem (slotAddr u.cfg k)
    rw [hc']
    exact mword_window_slot _ _ _ _ ha hl h35
  | llbit u _ _ ih => exact ih

/-- A slot write leaves a word outside the Register File View alone. -/
theorem mword_setSlot_of_word (u : State) (k : Nat) (v a : Word) (hb : u.cfg.regBase.toNat % 4 = 0)
    (ha : a.toNat % 4 = 0) (hr : inWords u.cfg.regBase Config.slots a = false) (hk : k < 35) :
    (u.setSlot k v).mword a = u.mword a :=
  have h := word_far_from_slot u.cfg a k hb ha hr hk
  mword_setMword_of_far _ _ _ _ h.1 h.2

/-- Without a trigger, a word of class TRIG or WINR keeps its value. -/
theorem Writes.mword_kept (h : Writes false ll sl s t) (hc : s.cfg.wf = true) (a : Word) (ha : a.toNat % 4 = 0)
    (hcl : classOf s.cfg a = .trig ∨ classOf s.cfg a = .win) : t.mword a = s.mword a := by
  have hb := regBase_aligned _ hc
  have hr : inWords s.cfg.regBase Config.slots a = false :=
    classOf_not_reg _ _ (by rcases hcl with e | e <;> rw [e] <;> decide)
  induction h with
  | none => rfl
  | reg u n v hu ih =>
    have hcfg := hu.loopKept.cfg
    unfold State.setReg
    split
    · exact ih
    · exact (mword_setSlot_of_word u _ v a (hcfg ▸ hb) ha (hcfg ▸ hr) (by have := n.isLt; omega)).trans ih
  | slot u k v _ h35 _ hu ih =>
    have hcfg := hu.loopKept.cfg
    exact (mword_setSlot_of_word u k v a (hcfg ▸ hb) ha (hcfg ▸ hr) h35).trans ih
  | plain u wa v hwa hp _ ih =>
    refine (mword_setMword_of_aligned _ _ _ _ hwa ha ?_).trans ih
    rintro rfl
    rcases hcl with e | e <;> rcases hp with e' | e' <;> rw [e] at e' <;> cases e'
  | oracle u key bytes ws h => cases h
  | llbit u _ _ ih => exact ih

/-- The word addresses of the window have class WINR, or TRIG where the trigger lies in it. -/
theorem classOf_window (c : Config) (h : c.Apart) (k : Nat) (hk : k < c.oracleWinWords) :
    classOf c (c.oracleWinBase + BitVec.ofNat 32 (4 * k)) = .trig ∨
      classOf c (c.oracleWinBase + BitVec.ofNat 32 (4 * k)) = .win := by
  have hr := win_not_slot c h k hk
  have hw := win_word c h k hk
  have hwin := h.win
  have hin : inWords c.oracleWinBase c.oracleWinWords (c.oracleWinBase + BitVec.ofNat 32 (4 * k)) = true := by
    rw [inWords_iff]
    have : (c.oracleWinBase + BitVec.ofNat 32 (4 * k) - c.oracleWinBase).toNat = 4 * k := by bv_omega
    omega
  have hkey : inWords c.oracleKeyBase c.oracleKeyWords (c.oracleWinBase + BitVec.ofNat 32 (4 * k)) = false := by
    rw [← Bool.not_eq_true, inWords_iff]
    have := h.win_key
    have := h.key
    generalize c.oracleWinBase + BitVec.ofNat 32 (4 * k) = q at *
    bv_omega
  by_cases ht : c.oracleWinBase + BitVec.ofNat 32 (4 * k) = c.oracleTrigger
  · left; rw [ht]; exact classOf_trig c h
  · right; simp [classOf, hr, ht, hkey, hin]

/-- A class TRIG word is the trigger word. -/
theorem eq_trigger_of_classOf (c : Config) (wa : Word) (h : classOf c wa = .trig) : wa = c.oracleTrigger := by
  unfold classOf at h
  split at h
  · cases h
  · split at h
    · assumption
    · split at h
      · cases h
      · split at h <;> cases h

/-- Everything an instruction that is no trigger can do when it answers a next state. -/
theorem exec_writes (i : Instr) (s t : State) (h : exec i s = .next t) (hn : ¬ IsTrigger i s) :
    (∃ e, t = errorState e s) ∨
      ∃ s1 c, t = commit i.isCT c s1 ∧ Writes false (isLl i) (slotsOf i) s s1 := by
  rcases exec_shape i s t h with ⟨e, he, _⟩ | ⟨s1, c, ht, _, _, _, hw⟩
  · exact .inl ⟨e, he⟩
  · cases hl : isLw i with
    | false => rw [hl] at hw; exact .inr ⟨s1, c, ht, hw⟩
    | true =>
      have hm : i.mnemonic = .lw := by simpa [isLw] using hl
      have : ∃ rs rt imm, i = .lw rs rt imm := by cases i <;> first | exact ⟨_, _, _, rfl⟩ | cases hm
      obtain ⟨rs, rt, imm, rfl⟩ := this
      have hne : dataAddress s rs imm ≠ s.cfg.oracleTrigger := fun e => hn ⟨rs, rt, imm, rfl, e⟩
      rcases finish_next s t _ _ h with ⟨p, hp, rfl⟩ | ⟨e, _, rfl⟩
      · have hp' : memReadWord true (dataAddress s rs imm) s = .ok p := hp
        unfold memReadWord at hp'
        split at hp'
        · rename_i hb
          rw [wordAddress_of_aligned _ hb] at hp'
          have hs := routeRead_state true _ s p.2 p.1 hp' (.inr fun e => hne (eq_trigger_of_classOf _ _ e))
          refine .inr ⟨_, .seq, rfl, ?_⟩
          rw [hs]; exact .reg _ _ _ .none
        · cases hp'
      · exact .inl ⟨e, rfl⟩

/-- The commit keeps every word outside the Register File View. -/
theorem commit_mword (ct : Bool) (c : Ctl) (s : State) (a : Word) (hb : s.cfg.regBase.toNat % 4 = 0)
    (ha : a.toNat % 4 = 0) (hr : inWords s.cfg.regBase Config.slots a = false) :
    (commit ct c s).mword a = s.mword a :=
  mword_setSlot_of_word s _ _ a hb ha hr (by decide)

end Sys2Proof.Machine
end

