-- ==== Sys2Proof/Laws/Slots.lean ====
section
/-! SUPPORT. Data accesses to the Register File View under `P_REGFILE_DATA` (20_memory.md R112 to R114). -/

namespace Sys2Proof.Machine

open Memory

/-- Byte `o` of register slot `k` is where the parameters put it. -/
structure AtSlot (c : Config) (ea : Word) (k o : Nat) : Prop where
  wordAddr : wordAddress ea = slotAddr c k
  offset : byteOffset ea = o
  cls : classOf c (wordAddress ea) = .reg
  index : slotIndex c (wordAddress ea) = k

theorem atSlot (c : Config) (ea : Word) (k o : Nat) (hc : c.wf = true) (hk : k < 35) (ho : o < 4)
    (he : ea = c.regBase + BitVec.ofNat 32 (4 * k + o)) : AtSlot c ea k o := by
  have hb := regBase_aligned c hc
  have hs : (slotAddr c k).toNat % 4 = 0 := by unfold slotAddr; bv_omega
  have he' : ea = slotAddr c k + BitVec.ofNat 32 o := by
    rw [he, slotAddr, BitVec.ofNat_add, BitVec.add_assoc]
  obtain ⟨h1, h2⟩ := wordAddress_add_lt (slotAddr c k) o hs ho
  rw [← he'] at h1 h2
  have hd : (slotAddr c k - c.regBase).toNat = 4 * k := by unfold slotAddr; bv_omega
  refine ⟨h1, h2, ?_, ?_⟩
  · rw [classOf_reg, h1, inWords_iff, hd]
    exact ⟨by omega, by simp [Config.slots]; omega⟩
  · rw [h1, slotIndex, hd]; omega

theorem regNum_ofNat_toNat (k : Nat) (h : k < 32) : (BitVec.ofNat 5 k : RegNum).toNat = k := by
  rw [BitVec.toNat_ofNat, Nat.mod_eq_of_lt (by omega)]

theorem regNum_eq_iff (j : RegNum) (k : Nat) (h : k < 32) : j = BitVec.ofNat 5 k ↔ j.toNat = k := by
  constructor
  · rintro rfl; exact regNum_ofNat_toNat k h
  · intro e; apply BitVec.eq_of_toNat_eq; rw [regNum_ofNat_toNat k h, e]

theorem regNum_eq_iff_zero (k : Nat) (h : k < 32) : (BitVec.ofNat 5 k : RegNum) = 0 ↔ k = 0 := by
  constructor
  · intro e; rw [← regNum_ofNat_toNat k h, e]; rfl
  · rintro rfl; rfl

/-- A data load of a register slot reads through the view's rules. -/
theorem slotRead_eq (s : State) (ea : Word) (k o : Nat) (h : AtSlot s.cfg ea k o) (hk : k < 35) :
    slotRead (wordAddress ea) s = slotValue s k := by
  rw [slotRead, h.index, slotValue]
  by_cases h0 : k = 0
  · subst h0; simp
  · rw [if_neg h0]
    by_cases h32 : k < 32
    · simp only [h32, if_true]
      rw [State.getReg_of_ne _ _ (fun e => h0 (by rw [← regNum_ofNat_toNat k h32, e]; rfl)),
        regNum_ofNat_toNat k h32]
    · simp only [h32, if_false]

/-- Everything a data store to a register slot does to the state. -/
structure SlotWritten (s : State) (k : Nat) (w : Word) (t : State) : Prop where
  keep : t = { s with mem := t.mem }
  regs : ∀ j : RegNum, t.getReg j = if j.toNat = k ∧ j ≠ 0 then w else s.getReg j
  hi : t.getHI = if k = Config.slotHI then w else s.getHI
  lo : t.getLO = if k = Config.slotLO then w else s.getLO
  bytes : ∀ x, ¬ (k ≠ 0 ∧ InSlot s.cfg k x) → readByte t.mem x = readByte s.mem x

theorem slotWrite_written (s : State) (ea w : Word) (k o : Nat) (h : AtSlot s.cfg ea k o) (hk : k < 35) :
    SlotWritten s k w (slotWrite (wordAddress ea) w s) := by
  unfold slotWrite
  rw [h.index]
  by_cases h32 : k < 32
  · simp only [h32, if_true]
    have hn : (BitVec.ofNat 5 k : RegNum) ≠ 0 ↔ k ≠ 0 := by
      rw [Ne, regNum_eq_iff_zero k h32]
    refine ⟨?_, fun j => ?_, ?_, ?_, fun x hx => ?_⟩
    · unfold State.setReg; split <;> rfl
    · rw [State.getReg_setReg]
      have e : (j = BitVec.ofNat 5 k ∧ BitVec.ofNat 5 k ≠ 0) ↔ (j.toNat = k ∧ j ≠ 0) :=
        ⟨fun h => ⟨(regNum_eq_iff j k h32).1 h.1, h.1 ▸ h.2⟩,
          fun h => ⟨(regNum_eq_iff j k h32).2 h.1, (regNum_eq_iff j k h32).2 h.1 ▸ h.2⟩⟩
      simp only [e]
    · rw [State.getHI_setReg, if_neg (by simp [Config.slotHI]; omega)]
    · rw [State.getLO_setReg, if_neg (by simp [Config.slotLO]; omega)]
    · refine State.readByte_setReg _ _ _ _ fun e => hx ⟨hn.1 e.1, ?_⟩
      have := e.2
      rwa [regNum_ofNat_toNat k h32] at this
  · simp only [h32, if_false]
    refine ⟨rfl, fun j => ?_, ?_, ?_, fun x hx => State.readByte_setSlot _ _ _ _ fun e => hx ⟨by omega, e⟩⟩
    · rw [State.getReg_setSlot _ _ _ _ (by omega) hk, if_neg (fun e => by have := j.isLt; omega)]
    · by_cases e : k = Config.slotHI
      · rw [if_pos e, e]; exact State.slot_setSlot_self _ _ _
      · rw [if_neg e]; exact State.slot_setSlot_ne _ _ _ _ (by decide) hk (Ne.symm e)
    · by_cases e : k = Config.slotLO
      · rw [if_pos e, e]; exact State.slot_setSlot_self _ _ _
      · rw [if_neg e]; exact State.slot_setSlot_ne _ _ _ _ (by decide) hk (Ne.symm e)
/-- The commit of a data store to a register slot. -/
theorem slotEffect_commit (s t : State) (k : Nat) (w : Word) (h : SlotWritten s k w t) :
    SlotEffect s k w (commit false .seq t) where
  gas := by rw [h.keep]; rfl
  steps := by rw [h.keep]; rfl
  status := by rw [h.keep]; rfl
  refused := by rw [h.keep]; rfl
  cfg := by rw [h.keep]; rfl
  inputs := by rw [h.keep]; rfl
  cache := by rw [h.keep]; rfl
  llbit := by rw [h.keep]; rfl
  pc := by rw [commit_getPC, h.keep]; rfl
  npc := by rw [commit_npc, h.keep]; rfl
  ds := by simp
  regs j := by rw [commit_getReg, h.regs]
  hi := by rw [commit_getHI, h.hi]
  lo := by rw [commit_getLO, h.lo]
  bytes x hx hw := by
    rw [commit_readByte _ _ _ _ (by rw [h.keep]; exact hx), h.bytes x hw]

/-- A load of a register slot under `alias`. -/
theorem routeRead_slot (lw : Bool) (s : State) (ea : Word) (k o : Nat) (h : AtSlot s.cfg ea k o) (hk : k < 35)
    (ha : s.cfg.regfileData = .aliased) : routeRead lw (wordAddress ea) s = .ok (slotValue s k, s) := by
  simp only [routeRead, h.cls, ha, slotRead_eq s ea k o h hk]

/-- A store to a register slot under `alias`. -/
theorem routeWrite_slot (s : State) (ea : Word) (f : Word → Word) (k o : Nat) (h : AtSlot s.cfg ea k o)
    (hk : k < 35) (ha : s.cfg.regfileData = .aliased) :
    ∃ t, routeWrite (wordAddress ea) f s = .ok t ∧ SlotWritten s k (f (slotValue s k)) t := by
  refine ⟨_, ?_, slotWrite_written s ea _ k o h hk⟩
  simp only [routeWrite, h.cls, ha, slotRead_eq s ea k o h hk]

/-- Any access to a register slot under `refuse`. -/
theorem routeRead_refused (lw : Bool) (s : State) (wa : Word) (h : classOf s.cfg wa = .reg)
    (ha : s.cfg.regfileData = .refuse) : routeRead lw wa s = .refuse .regfileData := by
  simp only [routeRead, h, ha]

theorem routeWrite_refused (s : State) (wa : Word) (f : Word → Word) (h : classOf s.cfg wa = .reg)
    (ha : s.cfg.regfileData = .refuse) : routeWrite wa f s = .refuse .regfileData := by
  simp only [routeWrite, h, ha]

/-- A refused access refuses the instruction. -/
theorem finish_refuse {α : Type} (s : State) (r : Res α) (k : α → State) (q : Refusal) (h : r = .refuse q) :
    finish s r k = .refused q := by rw [h]; rfl

end Sys2Proof.Machine
end

