-- ==== Sys2Proof/Laws/Open.lean ====
section
/-! SUPPORT. The accesses other than an LW at any word open to them, plain or a register slot under `alias`: the bytes they
read and write, and where they are refused (20_memory.md R109, R112 to R114, R118). -/

namespace Sys2Proof.Machine

open Memory

/-- The word a load other than an LW reads at word address `wa`: the slot of register 0 reads 0. -/
def loadedWord (s : State) (wa : Word) : Word := if wa = s.cfg.regBase then 0 else s.mword wa

/-- A word of the Register File View is the word at its slot's address. -/
theorem slotAddr_slotIndex (c : Config) (wa : Word) (h : classOf c wa = .reg) : slotAddr c (slotIndex c wa) = wa := by
  rw [classOf_reg, inWords_iff] at h
  have := h.1
  unfold slotAddr slotIndex
  bv_omega

theorem slotIndex_eq_zero (c : Config) (wa : Word) (h : classOf c wa = .reg) : slotIndex c wa = 0 ↔ wa = c.regBase := by
  have e := slotAddr_slotIndex c wa h
  constructor
  · intro h0; rw [← e, h0, slotAddr]; simp
  · rintro rfl; simp [slotIndex]

/-- The slot of register 0 is a register slot. -/
theorem ne_regBase (c : Config) (wa : Word) (h : classOf c wa ≠ .reg) : wa ≠ c.regBase := by
  rintro rfl
  refine h ((classOf_reg _ _).2 ((inWords_iff _ _ _).2 ?_))
  simp [Config.slots]

theorem slotRead_open (s : State) (wa : Word) (h : classOf s.cfg wa = .reg) : slotRead wa s = loadedWord s wa := by
  have e := slotAddr_slotIndex s.cfg wa h
  have hz := slotIndex_eq_zero s.cfg wa h
  unfold slotRead loadedWord
  simp only [← hz]
  by_cases h0 : slotIndex s.cfg wa = 0
  · simp [h0]
  · rw [if_neg h0]
    have hs : s.slot (slotIndex s.cfg wa) = s.mword wa := by rw [State.slot, e]
    by_cases h32 : slotIndex s.cfg wa < 32
    · rw [if_pos h32, State.getReg_of_ne _ _ (mt (regNum_eq_iff_zero _ h32).1 h0), regNum_ofNat_toNat _ h32, hs]
    · rw [if_neg h32, hs]

theorem slotWrite_open (s : State) (wa v : Word) (h : classOf s.cfg wa = .reg) :
    slotWrite wa v s = if wa = s.cfg.regBase then s else s.setMword wa v := by
  have e := slotAddr_slotIndex s.cfg wa h
  have hz := slotIndex_eq_zero s.cfg wa h
  unfold slotWrite
  simp only [← hz]
  by_cases h0 : slotIndex s.cfg wa = 0
  · simp [h0]
  · rw [if_neg h0]
    by_cases h32 : slotIndex s.cfg wa < 32
    · rw [if_pos h32, State.setReg, if_neg (mt (regNum_eq_iff_zero _ h32).1 h0), regNum_ofNat_toNat _ h32, State.setSlot, e]
    · rw [if_neg h32, State.setSlot, e]

/-- A load that is no LW, at a word open to it. -/
theorem routeRead_open (s : State) (a : Word) (h : LoadsAt s.cfg a) :
    routeRead false (wordAddress a) s = .ok (loadedWord s (wordAddress a), s) := by
  rcases h with h | ⟨h, ha⟩
  · rw [routeRead_plain _ _ _ h.1 h.2, loadedWord, if_neg (ne_regBase _ _ h.1)]
  · simp only [routeRead, h, ha, slotRead_open s _ h]

/-- A store at a word open to it. -/
theorem routeWrite_open (s : State) (a : Word) (f : Word → Word) (h : StoresAt s.cfg a) :
    routeWrite (wordAddress a) f s = .ok
      (if wordAddress a = s.cfg.regBase then s
       else s.setMword (wordAddress a) (f (s.mword (wordAddress a)))) := by
  rcases h with h | ⟨h, ha⟩
  · rw [routeWrite_plain _ _ _ h, if_neg (ne_regBase _ _ h.loads.1)]
  · simp only [routeWrite, h, ha, slotRead_open s _ h, slotWrite_open s _ _ h, loadedWord]
    split <;> rfl

theorem routeRead_stops (s : State) (a : Word) (q : Refusal) (h : LoadRefused s.cfg a q) :
    routeRead false (wordAddress a) s = .refuse q := by
  rcases h with ⟨h, ha, rfl⟩ | ⟨h, rfl⟩
  · exact routeRead_refused _ _ _ h ha
  · simp [routeRead, h]

theorem routeWrite_stops (s : State) (a : Word) (f : Word → Word) (q : Refusal) (h : StoreRefused s.cfg a q) :
    routeWrite (wordAddress a) f s = .refuse q := by
  rcases h with ⟨h, ha, rfl⟩ | ⟨h | h, rfl⟩
  · exact routeWrite_refused _ _ _ h ha
  · simp [routeWrite, h]
  · simp [routeWrite, h]

/-- The bytes of the loaded word. -/
theorem byteAt_loadedWord (s : State) (a : Word) :
    byteAt (loadedWord s (wordAddress a)) (byteOffset a) = loadedByte s a := by
  unfold loadedWord loadedByte
  split
  · simp [byteAt]
  · exact byteAt_mword_wordAddress s.mem a

theorem wordAddress_succ (a : Word) (h : a.toNat % 2 = 0) : wordAddress (a + 1) = wordAddress a := by
  have := odd_pred (a + 1) (by bv_omega)
  rw [← this.1]
  congr 1
  bv_omega

theorem memReadByte_open (s : State) (a : Word) (h : LoadsAt s.cfg a) :
    memReadByte a s = .ok ((loadedByte s a).zeroExtend 32) := by
  rw [memReadByte, routeRead_open _ _ h]
  simp only [Res.andThen, extractByte_eq, byteAt_loadedWord]

theorem memReadEvenHalf_open (s : State) (a : Word) (h : LoadsAt s.cfg a) (ha : a.toNat % 2 = 0) :
    memReadEvenHalf a s = .ok ((loadedByte s a ++ loadedByte s (a + 1)).zeroExtend 32) := by
  have hz := getLsbD_zero_false a ha
  have hb : byteOffset (a + 1) = byteOffset a + 1 := by
    have := a.isLt
    simp only [byteOffset, BitVec.toNat_add, show (1 : Word).toNat = 1 from rfl]
    omega
  have h1 := byteAt_loadedWord s (a + 1)
  rw [wordAddress_succ a ha, hb] at h1
  rw [memReadEvenHalf, routeRead_open _ _ h]
  simp only [Res.andThen, extractHalf_eq _ _ hz, byteAt_loadedWord, h1]

/-- Everything a byte store at an open word does to the state. -/
theorem memWriteByte_open (s : State) (a v : Word) (h : StoresAt s.cfg a) :
    ∃ s1, memWriteByte a v s = .ok s1 ∧ s1 = { s with mem := s1.mem } ∧
      ∀ x, readByte s1.mem x =
        if x = a.toNat ∧ wordAddress a ≠ s.cfg.regBase then byteAt v 3 else readByte s.mem x := by
  refine ⟨_, routeWrite_open _ _ _ h, ?_⟩
  by_cases hr : wordAddress a = s.cfg.regBase
  · rw [if_pos hr]
    exact ⟨rfl, fun x => by simp [hr]⟩
  · rw [if_neg hr]
    refine ⟨rfl, fun x => ?_⟩
    simp only [hr, ne_eq, not_false_eq_true, and_true]
    exact readByte_storeByte s.mem a v x

/-- Everything a halfword store at an even address does to the state, at an open word. -/
theorem memWriteEvenHalf_open (s : State) (a v : Word) (h : StoresAt s.cfg a) (ha : a.toNat % 2 = 0) :
    ∃ s1, memWriteEvenHalf a v s = .ok s1 ∧ s1 = { s with mem := s1.mem } ∧
      ∀ x, readByte s1.mem x =
        if wordAddress a = s.cfg.regBase then readByte s.mem x
        else if x = a.toNat then byteAt v 2 else if x = (a + 1).toNat then byteAt v 3 else readByte s.mem x := by
  refine ⟨_, routeWrite_open _ _ _ h, ?_⟩
  by_cases hr : wordAddress a = s.cfg.regBase
  · rw [if_pos hr]
    exact ⟨rfl, fun x => by rw [if_pos hr]⟩
  · rw [if_neg hr]
    refine ⟨rfl, fun x => ?_⟩
    rw [if_neg hr]
    exact readByte_storeHalf s.mem a v x (getLsbD_zero_false a ha)

/-- A byte lies in the slot of register 0 when its word is that slot. -/
theorem inSlot_zero (c : Config) (a : Word) (hc : c.wf = true) : InSlot c 0 a.toNat ↔ wordAddress a = c.regBase := by
  have hb := regBase_aligned c hc
  have e0 : slotAddr c 0 = c.regBase := by simp [slotAddr]
  unfold InSlot
  rw [e0]
  constructor
  · rintro ⟨k, hk, e⟩
    rw [BitVec.eq_of_toNat_eq e]
    exact (wordAddress_add_lt _ k hb hk).1
  · intro h
    exact ⟨byteOffset a, byteOffset_lt a, by rw [← h, wordAddress_add]⟩

/-- The commit of a store, from the bytes its memory holds. -/
theorem dataStored_commit (s s1 : State) (a : Word) (n : Nat) (val : Nat → Byte) (hs : s1 = { s with mem := s1.mem })
    (h1 : ∀ k, k < n → ¬ InSlot s.cfg 0 (a + BitVec.ofNat 32 k).toNat →
      readByte s1.mem (a + BitVec.ofNat 32 k).toNat = val k)
    (h2 : ∀ x, ¬ (InBytes a n x ∧ ¬ InSlot s.cfg 0 x) → readByte s1.mem x = readByte s.mem x) :
    DataStored s a n val (commit false .seq s1) := by
  have hslot (k : Nat) (hk : ∀ x, InSlot s.cfg k x → ¬ InBytes a n x) : s1.slot k = s.slot k := by
    have e : s1.cfg = s.cfg := by rw [hs]
    unfold State.slot State.mword
    rw [e]
    exact mword_congr _ _ _ fun j hj => h2 _ fun hx => hk _ ⟨j, hj, rfl⟩ hx.1
  exact {
    gas := by rw [hs]; rfl
    steps := by rw [hs]; rfl
    status := by rw [hs]; rfl
    refused := by rw [hs]; rfl
    cfg := by rw [hs]; rfl
    inputs := by rw [hs]; rfl
    cache := by rw [hs]; rfl
    llbit := by rw [hs]; rfl
    pc := by rw [commit_getPC, hs]; rfl
    npc := by rw [commit_npc, hs]; rfl
    ds := by simp
    stored := fun k hk h0 hp => by rw [commit_readByte _ _ _ _ (by rw [hs]; exact hp), h1 k hk h0]
    bytes := fun x hx hw => by rw [commit_readByte _ _ _ _ (by rw [hs]; exact hx), h2 x hw]
    regs := fun j hj => by
      rw [commit_getReg]
      unfold State.getReg
      split
      · rfl
      · exact hslot _ hj
    hi := fun h => by rw [commit_getHI]; exact hslot _ h
    lo := fun h => by rw [commit_getLO]; exact hslot _ h }

/-- A halfword store at an even address to an open word. -/
theorem memWriteEvenHalf_stored (s : State) (a v : Word) (hc : s.cfg.wf = true) (h : StoresAt s.cfg a)
    (ha : a.toNat % 2 = 0) :
    ∃ s1, memWriteEvenHalf a v s = .ok s1 ∧
      DataStored s a 2 (fun k => byteAt v (k + 2)) (commit false .seq s1) := by
  obtain ⟨s1, e, hs, hb⟩ := memWriteEvenHalf_open s a v h ha
  have hw := wordAddress_succ a ha
  have z0 := inSlot_zero s.cfg a hc
  have z1 := inSlot_zero s.cfg (a + 1) hc
  rw [hw] at z1
  refine ⟨s1, e, dataStored_commit s s1 a 2 _ hs (fun k hk h0 => ?_) fun x hx => ?_⟩
  · obtain rfl | rfl : k = 0 ∨ k = 1 := by omega
    · rw [BitVec.add_zero] at h0 ⊢
      rw [hb, if_neg (mt z0.2 h0), if_pos rfl]
    · change ¬ InSlot _ _ (a + 1).toNat at h0
      change readByte _ (a + 1).toNat = _
      rw [hb, if_neg (mt z1.2 h0), if_neg (by bv_omega), if_pos rfl]
  · rw [hb]
    split
    · rfl
    · rename_i hr
      rw [if_neg, if_neg]
      · rintro rfl; exact hx ⟨⟨1, by omega, rfl⟩, mt z1.1 hr⟩
      · rintro rfl; exact hx ⟨⟨0, by omega, by rw [BitVec.add_zero]⟩, mt z0.1 hr⟩

/-- Two byte stores one after the other to open words, the form an odd halfword takes under `P_HALF_ODD = bytes`. -/
theorem memWriteTwoBytes_stored (s : State) (a v : Word) (hc : s.cfg.wf = true) (h : StoresAt s.cfg a)
    (h' : StoresAt s.cfg (a + 1)) :
    ∃ s2, ((memWriteByte a (v >>> 8) s).andThen fun s1 => memWriteByte (a + 1) v s1) = .ok s2 ∧
      DataStored s a 2 (fun k => byteAt v (k + 2)) (commit false .seq s2) := by
  obtain ⟨s1, e1, hs1, hb1⟩ := memWriteByte_open s a (v >>> 8) h
  have hcfg : s1.cfg = s.cfg := by rw [hs1]
  obtain ⟨s2, e2, hs2, hb2⟩ := memWriteByte_open s1 (a + 1) v (hcfg ▸ h')
  rw [hcfg] at hb2
  have z0 := inSlot_zero s.cfg a hc
  have z1 := inSlot_zero s.cfg (a + 1) hc
  refine ⟨s2, by rw [e1]; exact e2, dataStored_commit s s2 a 2 _ (by rw [hs2, hs1]) (fun k hk h0 => ?_) fun x hx => ?_⟩
  · obtain rfl | rfl : k = 0 ∨ k = 1 := by omega
    · rw [BitVec.add_zero] at h0 ⊢
      rw [hb2, if_neg (fun e => absurd e.1 (by bv_omega)), hb1, if_pos ⟨rfl, mt z0.2 h0⟩]
      exact byteAt_shift v
    · change ¬ InSlot _ _ (a + 1).toNat at h0
      change readByte _ (a + 1).toNat = _
      rw [hb2, if_pos ⟨rfl, mt z1.2 h0⟩]
  · rw [hb2, if_neg, hb1, if_neg]
    · rintro ⟨rfl, hr⟩; exact hx ⟨⟨0, by omega, by rw [BitVec.add_zero]⟩, mt z0.1 hr⟩
    · rintro ⟨rfl, hr⟩; exact hx ⟨⟨1, by omega, rfl⟩, mt z1.1 hr⟩

end Sys2Proof.Machine
end

