-- ==== Sys2Proof/Laws/Operands.lean ====
section
/-! SUPPORT. The operand forms and the results of operands alone, as numbers: immediates, shifts, counts, products and
quotients (30_encoding.md R155; 41_alu.md; 42_muldiv.md). -/

namespace Sys2Proof.Machine

theorem simm_toInt (imm : Imm16) : (simm imm).toInt = imm.toInt := by
  unfold simm; exact BitVec.toInt_signExtend_of_le (by decide)

theorem simm_eq (imm : Imm16) : simm imm = BitVec.ofInt 32 imm.toInt := by
  rw [← simm_toInt, BitVec.ofInt_toInt]

theorem simm_toNat (imm : Imm16) : ((simm imm).toNat : Int) = imm.toInt % 2 ^ 32 := by
  rw [simm_eq, BitVec.toNat_ofInt]; omega

theorem zimm_eq (imm : Imm16) : zimm imm = BitVec.ofNat 32 imm.toNat := by
  unfold zimm; apply BitVec.eq_of_toNat_eq; simp

theorem uimm_eq (imm : Imm16) : uimm imm = BitVec.ofNat 32 (imm.toNat * 2 ^ 16) := by
  unfold uimm; apply BitVec.eq_of_toNat_eq
  simp [BitVec.toNat_shiftLeft, Nat.shiftLeft_eq]

theorem vshamt_eq (r : Word) : vshamt r = r.toNat % 32 := by
  unfold vshamt; simp

theorem sub_eq_ofInt (a b : Word) : a - b = BitVec.ofInt 32 (a.toNat - b.toNat) := by
  apply BitVec.eq_of_toNat_eq
  rw [BitVec.toNat_sub, BitVec.toNat_ofInt]
  have := a.isLt; have := b.isLt
  omega

theorem shiftLeft_eq (x : Word) (n : Nat) : x <<< n = BitVec.ofNat 32 (x.toNat * 2 ^ n) := by
  apply BitVec.eq_of_toNat_eq; simp [BitVec.toNat_shiftLeft, Nat.shiftLeft_eq]

theorem shiftRight_eq (x : Word) (n : Nat) : x >>> n = BitVec.ofNat 32 (x.toNat / 2 ^ n) := by
  apply BitVec.eq_of_toNat_eq
  rw [BitVec.toNat_ushiftRight, Nat.shiftRight_eq_div_pow, BitVec.toNat_ofNat, Nat.mod_eq_of_lt]
  exact lt_of_le_of_lt (Nat.div_le_self _ _) x.isLt

theorem sshiftRight_eq (x : Word) (n : Nat) : x.sshiftRight n = BitVec.ofInt 32 (x.toInt / 2 ^ n) := by
  rw [BitVec.sshiftRight, Int.shiftRight_eq_div_pow]; simp

/-- The run of bits equal to `b` from bit `n-1` down: its length, its bits, and the bit that ends it. -/
theorem leadingRun_spec (b : Bool) (w : Word) (n : Nat) :
    leadingRun b w n ≤ n ∧ (∀ k, k < leadingRun b w n → w.getLsbD (n - 1 - k) = b) ∧
    (leadingRun b w n < n → w.getLsbD (n - 1 - leadingRun b w n) = !b) := by
  induction n with
  | zero => simp [leadingRun]
  | succ n ih =>
    rw [leadingRun]
    split
    · rename_i h
      refine ⟨by omega, fun k hk => ?_, fun hl => ?_⟩
      · cases k with
        | zero => simpa using h
        | succ k => have := ih.2.1 k (by omega); rwa [show n + 1 - 1 - (k + 1) = n - 1 - k by omega]
      · have := ih.2.2 (by omega)
        rwa [show n + 1 - 1 - (1 + leadingRun b w n) = n - 1 - leadingRun b w n by omega]
    · rename_i h
      refine ⟨by omega, fun k hk => by omega, fun _ => ?_⟩
      simp only [Nat.add_sub_cancel, Nat.sub_zero]
      cases b <;> simpa using h

theorem condNe_eq (a b : Word) : condNe a b = (a != b) := by
  unfold condNe
  by_cases h : a = b <;> simp [h]

theorem halves_append (u : DWord) : hiHalf u ++ loHalf u = u := by
  apply BitVec.eq_of_getLsbD_eq
  intro k hk
  unfold hiHalf loHalf
  simp only [BitVec.getLsbD_append, BitVec.getLsbD_extractLsb']
  by_cases h : k < 32
  · simp [h]
  · simp [h, show k - 32 < 32 by omega, show 32 + (k - 32) = k by omega]

theorem halves_toNat (u : DWord) : (hiHalf u).toNat * 2 ^ 32 + (loHalf u).toNat = u.toNat := by
  unfold hiHalf loHalf
  simp only [BitVec.extractLsb'_toNat, Nat.shiftRight_eq_div_pow, Nat.pow_zero, Nat.div_one]
  have := u.isLt
  omega

theorem append_toNat (hi lo : Word) : (hi ++ lo).toNat = hi.toNat * 2 ^ 32 + lo.toNat := by
  rw [BitVec.toNat_append, ← Nat.shiftLeft_add_eq_or_of_lt lo.isLt, Nat.shiftLeft_eq]

theorem append_ofInt (hi lo : Word) : (hi ++ lo : DWord) = BitVec.ofInt 64 (hi.toNat * 2 ^ 32 + lo.toNat) := by
  apply BitVec.eq_of_toNat_eq
  rw [append_toNat, BitVec.toNat_ofInt]
  have := hi.isLt
  have := lo.isLt
  omega

theorem ofInt64_sub (x y : Int) : (BitVec.ofInt 64 (x - y) : DWord) = BitVec.ofInt 64 x - BitVec.ofInt 64 y := by
  apply BitVec.eq_of_toNat_eq
  rw [BitVec.toNat_sub, BitVec.toNat_ofInt, BitVec.toNat_ofInt, BitVec.toNat_ofInt]
  omega

theorem unsignedProduct_ofInt (a b : Word) : unsignedProduct a b = BitVec.ofInt 64 (a.toNat * b.toNat) := by
  rw [unsignedProduct, ← BitVec.ofInt_natCast]; push_cast; rfl

theorem signedProduct_bounds (a b : Word) : -2 ^ 62 ≤ a.toInt * b.toInt ∧ a.toInt * b.toInt ≤ 2 ^ 62 := by
  have h1 := BitVec.le_toInt a; have h2 := BitVec.toInt_lt (x := a)
  have h3 := BitVec.le_toInt b; have h4 := BitVec.toInt_lt (x := b)
  norm_num at h1 h2 h3 h4 ⊢
  constructor <;> nlinarith

/-- The signed product is exact (42_muldiv.md R301). -/
theorem signedProduct_toInt (a b : Word) : (signedProduct a b).toInt = a.toInt * b.toInt := by
  have := signedProduct_bounds a b
  unfold signedProduct
  rw [BitVec.toInt_ofInt, Int.bmod_def]
  norm_num at this ⊢
  split <;> omega

/-- The unsigned product is exact (42_muldiv.md R302). -/
theorem unsignedProduct_toNat (a b : Word) : (unsignedProduct a b).toNat = a.toNat * b.toNat := by
  unfold unsignedProduct
  rw [BitVec.toNat_ofNat, Nat.mod_eq_of_lt]
  have := a.isLt; have := b.isLt
  calc a.toNat * b.toNat ≤ (2 ^ 32 - 1) * (2 ^ 32 - 1) := Nat.mul_le_mul (by omega) (by omega)
    _ < 2 ^ 64 := by norm_num

theorem loHalf_signedProduct (a b : Word) : loHalf (signedProduct a b) = BitVec.ofInt 32 (a.toInt * b.toInt) := by
  apply BitVec.eq_of_toNat_eq
  unfold loHalf signedProduct
  simp only [BitVec.extractLsb'_toNat, Nat.shiftRight_zero, BitVec.toNat_ofInt]
  omega

/-- The quotient of DIV, its overflow case excepted, fits a word (42_muldiv.md R303). -/
theorem signedQuotient_toInt (a b : Word) (hb : b.toInt ≠ 0) (ho : ¬ (a.toInt = -2 ^ 31 ∧ b.toInt = -1)) :
    (BitVec.ofInt 32 (a.toInt.tdiv b.toInt) : Word).toInt = a.toInt.tdiv b.toInt := by
  have h1 := BitVec.le_toInt a; have h2 := BitVec.toInt_lt (x := a)
  norm_num at h1 h2
  have hq : (a.toInt.tdiv b.toInt).natAbs = a.toInt.natAbs / b.toInt.natAbs := Int.natAbs_tdiv _ _
  have hle : a.toInt.natAbs / b.toInt.natAbs ≤ a.toInt.natAbs := Nat.div_le_self _ _
  have hne : a.toInt.tdiv b.toInt ≠ 2147483648 := by
    intro hq'
    rw [hq'] at hq
    have hA : a.toInt.natAbs ≤ 2147483648 := by omega
    have hB : b.toInt.natAbs = 1 := by
      by_contra hne
      have h2' : 2 ≤ b.toInt.natAbs := by omega
      have h3 := Nat.div_le_div hA h2' (by decide)
      rw [← hq] at h3
      exact absurd h3 (by decide)
    have hA' : a.toInt.natAbs = 2147483648 := by
      rw [hB, Nat.div_one] at hq
      exact hq.symm
    have ha : a.toInt = -2147483648 := by omega
    rcases Int.natAbs_eq b.toInt with h | h <;> rw [hB] at h
    · rw [h, ha] at hq'; exact absurd hq' (by decide)
    · exact ho ⟨by rw [ha]; rfl, h⟩
  have key : -2147483648 ≤ a.toInt.tdiv b.toInt ∧ a.toInt.tdiv b.toInt < 2147483648 := by
    generalize a.toInt.natAbs / b.toInt.natAbs = d at hq hle
    omega
  rw [BitVec.toInt_ofInt, Int.bmod_def]
  norm_num at key ⊢
  split <;> omega

/-- The remainder of DIV: smaller than the divisor, with the sign of the dividend unless it is 0. -/
theorem tmod_spec (a b : Int) (hb : b ≠ 0) :
    a = a.tdiv b * b + a.tmod b ∧ |a.tmod b| < |b| ∧ (a.tmod b ≠ 0 → (a.tmod b).sign = a.sign) := by
  refine ⟨(Int.tdiv_mul_add_tmod _ _).symm, ?_, fun hne => ?_⟩
  · rw [Int.abs_eq_natAbs, Int.abs_eq_natAbs, Int.natAbs_tmod]
    exact_mod_cast Nat.mod_lt _ (Int.natAbs_pos.2 hb)
  · rcases lt_trichotomy a 0 with h | rfl | h
    · have h1 : 0 ≤ (-a).tmod b := Int.tmod_nonneg _ (by omega)
      rw [Int.neg_tmod] at h1
      rw [Int.sign_eq_neg_one_of_neg h, Int.sign_eq_neg_one_of_neg (by omega)]
    · simp at hne
    · have h1 : 0 ≤ a.tmod b := Int.tmod_nonneg _ (by omega)
      rw [Int.sign_eq_one_of_pos h, Int.sign_eq_one_of_pos (by omega)]

theorem ofInt_toInt_of_abs (r : Int) (b : Word) (h : |r| < |b.toInt|) : (BitVec.ofInt 32 r : Word).toInt = r := by
  have h1 := BitVec.le_toInt b; have h2 := BitVec.toInt_lt (x := b)
  rw [abs_lt] at h
  have : |b.toInt| ≤ 2147483648 := by rw [abs_le]; norm_num at h1 h2 ⊢; omega
  rw [BitVec.toInt_ofInt, Int.bmod_def]
  norm_num
  split <;> omega

end Sys2Proof.Machine
end

