-- ==== Sys2Proof/Laws/PerInstr.lean ====
section
/-! SUPPORT. One lemma per constructor of Instr: its encoding decodes to it and meets the must-be-zero fields
(30_encoding.md R161, R167). -/

namespace Sys2Proof.Laws.RoundTrip

set_option Elab.async false

/-- The encoding of `i` decodes to `i`, and its fixed fields hold what 30_encoding.md R167 asks. -/
def Statement (i : Instr) : Prop := decodeWord (encode i) = some i ∧ fieldsOK (encode i) i.mnemonic = true

theorem of_select (i : Instr) (hs : selectMnemonic (encode i) = some i.mnemonic)
    (hf : Instr.ofFields (encode i) i.mnemonic = i) (hk : fieldsOK (encode i) i.mnemonic = true) :
    Statement i :=
  ⟨by rw [decodeWord_of_select _ _ hs, hf], hk⟩

theorem sll (rt : RegNum) (rd : RegNum) (sa : BitVec 5) : Statement (.sll rt rd sa) :=
  of_select _ ((select_special _ (opField_rType ..)).trans (by rw [functField_rType]; rfl))
    (by simp [Instr.ofFields, Instr.mnemonic, encode]) (by simp [fieldsOK, Instr.mnemonic, encode])

theorem movci (rs : RegNum) (rt : RegNum) (rd : RegNum) (sa : BitVec 5) : Statement (.movci rs rt rd sa) :=
  of_select _ ((select_special _ (opField_rType ..)).trans (by rw [functField_rType]; rfl))
    (by simp [Instr.ofFields, Instr.mnemonic, encode]) rfl

theorem srl (rt : RegNum) (rd : RegNum) (sa : BitVec 5) : Statement (.srl rt rd sa) :=
  of_select _ ((select_special _ (opField_rType ..)).trans (by rw [functField_rType]; rfl))
    (by simp [Instr.ofFields, Instr.mnemonic, encode]) (by simp [fieldsOK, Instr.mnemonic, encode])

theorem sra (rt : RegNum) (rd : RegNum) (sa : BitVec 5) : Statement (.sra rt rd sa) :=
  of_select _ ((select_special _ (opField_rType ..)).trans (by rw [functField_rType]; rfl))
    (by simp [Instr.ofFields, Instr.mnemonic, encode]) (by simp [fieldsOK, Instr.mnemonic, encode])

theorem sllv (rs : RegNum) (rt : RegNum) (rd : RegNum) : Statement (.sllv rs rt rd) :=
  of_select _ ((select_special _ (opField_rType ..)).trans (by rw [functField_rType]; rfl))
    (by simp [Instr.ofFields, Instr.mnemonic, encode]) (by simp [fieldsOK, Instr.mnemonic, encode])

theorem srlv (rs : RegNum) (rt : RegNum) (rd : RegNum) : Statement (.srlv rs rt rd) :=
  of_select _ ((select_special _ (opField_rType ..)).trans (by rw [functField_rType]; rfl))
    (by simp [Instr.ofFields, Instr.mnemonic, encode]) (by simp [fieldsOK, Instr.mnemonic, encode])

theorem srav (rs : RegNum) (rt : RegNum) (rd : RegNum) : Statement (.srav rs rt rd) :=
  of_select _ ((select_special _ (opField_rType ..)).trans (by rw [functField_rType]; rfl))
    (by simp [Instr.ofFields, Instr.mnemonic, encode]) (by simp [fieldsOK, Instr.mnemonic, encode])

theorem jr (rs : RegNum) : Statement (.jr rs) :=
  of_select _ ((select_special _ (opField_rType ..)).trans (by rw [functField_rType]; rfl))
    (by simp [Instr.ofFields, Instr.mnemonic, encode]) (by simp [fieldsOK, Instr.mnemonic, encode])

theorem jalr (rs : RegNum) (rd : RegNum) : Statement (.jalr rs rd) :=
  of_select _ ((select_special _ (opField_rType ..)).trans (by rw [functField_rType]; rfl))
    (by simp [Instr.ofFields, Instr.mnemonic, encode]) (by simp [fieldsOK, Instr.mnemonic, encode])

theorem movz (rs : RegNum) (rt : RegNum) (rd : RegNum) : Statement (.movz rs rt rd) :=
  of_select _ ((select_special _ (opField_rType ..)).trans (by rw [functField_rType]; rfl))
    (by simp [Instr.ofFields, Instr.mnemonic, encode]) (by simp [fieldsOK, Instr.mnemonic, encode])

theorem movn (rs : RegNum) (rt : RegNum) (rd : RegNum) : Statement (.movn rs rt rd) :=
  of_select _ ((select_special _ (opField_rType ..)).trans (by rw [functField_rType]; rfl))
    (by simp [Instr.ofFields, Instr.mnemonic, encode]) (by simp [fieldsOK, Instr.mnemonic, encode])

theorem syscall (code : BitVec 20) : Statement (.syscall code) :=
  of_select _ ((select_special _ (opField_codeType ..)).trans (by rw [functField_codeType]; rfl))
    (by simp [Instr.ofFields, Instr.mnemonic, encode]) rfl

theorem break_ (code : BitVec 20) : Statement (.break_ code) :=
  of_select _ ((select_special _ (opField_codeType ..)).trans (by rw [functField_codeType]; rfl))
    (by simp [Instr.ofFields, Instr.mnemonic, encode]) rfl

theorem sync (stype : BitVec 5) : Statement (.sync stype) :=
  of_select _ ((select_special _ (opField_rType ..)).trans (by rw [functField_rType]; rfl))
    (by simp [Instr.ofFields, Instr.mnemonic, encode]) (by simp [fieldsOK, Instr.mnemonic, encode])

theorem mfhi (rd : RegNum) : Statement (.mfhi rd) :=
  of_select _ ((select_special _ (opField_rType ..)).trans (by rw [functField_rType]; rfl))
    (by simp [Instr.ofFields, Instr.mnemonic, encode]) (by simp [fieldsOK, Instr.mnemonic, encode])

theorem mthi (rs : RegNum) : Statement (.mthi rs) :=
  of_select _ ((select_special _ (opField_rType ..)).trans (by rw [functField_rType]; rfl))
    (by simp [Instr.ofFields, Instr.mnemonic, encode]) (by simp [fieldsOK, Instr.mnemonic, encode])

theorem mflo (rd : RegNum) : Statement (.mflo rd) :=
  of_select _ ((select_special _ (opField_rType ..)).trans (by rw [functField_rType]; rfl))
    (by simp [Instr.ofFields, Instr.mnemonic, encode]) (by simp [fieldsOK, Instr.mnemonic, encode])

theorem mtlo (rs : RegNum) : Statement (.mtlo rs) :=
  of_select _ ((select_special _ (opField_rType ..)).trans (by rw [functField_rType]; rfl))
    (by simp [Instr.ofFields, Instr.mnemonic, encode]) (by simp [fieldsOK, Instr.mnemonic, encode])

theorem mult (rs : RegNum) (rt : RegNum) : Statement (.mult rs rt) :=
  of_select _ ((select_special _ (opField_rType ..)).trans (by rw [functField_rType]; rfl))
    (by simp [Instr.ofFields, Instr.mnemonic, encode]) (by simp [fieldsOK, Instr.mnemonic, encode])

theorem multu (rs : RegNum) (rt : RegNum) : Statement (.multu rs rt) :=
  of_select _ ((select_special _ (opField_rType ..)).trans (by rw [functField_rType]; rfl))
    (by simp [Instr.ofFields, Instr.mnemonic, encode]) (by simp [fieldsOK, Instr.mnemonic, encode])

theorem div (rs : RegNum) (rt : RegNum) : Statement (.div rs rt) :=
  of_select _ ((select_special _ (opField_rType ..)).trans (by rw [functField_rType]; rfl))
    (by simp [Instr.ofFields, Instr.mnemonic, encode]) (by simp [fieldsOK, Instr.mnemonic, encode])

theorem divu (rs : RegNum) (rt : RegNum) : Statement (.divu rs rt) :=
  of_select _ ((select_special _ (opField_rType ..)).trans (by rw [functField_rType]; rfl))
    (by simp [Instr.ofFields, Instr.mnemonic, encode]) (by simp [fieldsOK, Instr.mnemonic, encode])

theorem add (rs : RegNum) (rt : RegNum) (rd : RegNum) : Statement (.add rs rt rd) :=
  of_select _ ((select_special _ (opField_rType ..)).trans (by rw [functField_rType]; rfl))
    (by simp [Instr.ofFields, Instr.mnemonic, encode]) (by simp [fieldsOK, Instr.mnemonic, encode])

theorem addu (rs : RegNum) (rt : RegNum) (rd : RegNum) : Statement (.addu rs rt rd) :=
  of_select _ ((select_special _ (opField_rType ..)).trans (by rw [functField_rType]; rfl))
    (by simp [Instr.ofFields, Instr.mnemonic, encode]) (by simp [fieldsOK, Instr.mnemonic, encode])

theorem sub (rs : RegNum) (rt : RegNum) (rd : RegNum) : Statement (.sub rs rt rd) :=
  of_select _ ((select_special _ (opField_rType ..)).trans (by rw [functField_rType]; rfl))
    (by simp [Instr.ofFields, Instr.mnemonic, encode]) (by simp [fieldsOK, Instr.mnemonic, encode])

theorem subu (rs : RegNum) (rt : RegNum) (rd : RegNum) : Statement (.subu rs rt rd) :=
  of_select _ ((select_special _ (opField_rType ..)).trans (by rw [functField_rType]; rfl))
    (by simp [Instr.ofFields, Instr.mnemonic, encode]) (by simp [fieldsOK, Instr.mnemonic, encode])

theorem and (rs : RegNum) (rt : RegNum) (rd : RegNum) : Statement (.and rs rt rd) :=
  of_select _ ((select_special _ (opField_rType ..)).trans (by rw [functField_rType]; rfl))
    (by simp [Instr.ofFields, Instr.mnemonic, encode]) (by simp [fieldsOK, Instr.mnemonic, encode])

theorem or (rs : RegNum) (rt : RegNum) (rd : RegNum) : Statement (.or rs rt rd) :=
  of_select _ ((select_special _ (opField_rType ..)).trans (by rw [functField_rType]; rfl))
    (by simp [Instr.ofFields, Instr.mnemonic, encode]) (by simp [fieldsOK, Instr.mnemonic, encode])

theorem xor (rs : RegNum) (rt : RegNum) (rd : RegNum) : Statement (.xor rs rt rd) :=
  of_select _ ((select_special _ (opField_rType ..)).trans (by rw [functField_rType]; rfl))
    (by simp [Instr.ofFields, Instr.mnemonic, encode]) (by simp [fieldsOK, Instr.mnemonic, encode])

theorem nor (rs : RegNum) (rt : RegNum) (rd : RegNum) : Statement (.nor rs rt rd) :=
  of_select _ ((select_special _ (opField_rType ..)).trans (by rw [functField_rType]; rfl))
    (by simp [Instr.ofFields, Instr.mnemonic, encode]) (by simp [fieldsOK, Instr.mnemonic, encode])

theorem slt (rs : RegNum) (rt : RegNum) (rd : RegNum) : Statement (.slt rs rt rd) :=
  of_select _ ((select_special _ (opField_rType ..)).trans (by rw [functField_rType]; rfl))
    (by simp [Instr.ofFields, Instr.mnemonic, encode]) (by simp [fieldsOK, Instr.mnemonic, encode])

theorem sltu (rs : RegNum) (rt : RegNum) (rd : RegNum) : Statement (.sltu rs rt rd) :=
  of_select _ ((select_special _ (opField_rType ..)).trans (by rw [functField_rType]; rfl))
    (by simp [Instr.ofFields, Instr.mnemonic, encode]) (by simp [fieldsOK, Instr.mnemonic, encode])

theorem tge (rs : RegNum) (rt : RegNum) (rd : RegNum) (sa : BitVec 5) : Statement (.tge rs rt rd sa) :=
  of_select _ ((select_special _ (opField_rType ..)).trans (by rw [functField_rType]; rfl))
    (by simp [Instr.ofFields, Instr.mnemonic, encode]) rfl

theorem tgeu (rs : RegNum) (rt : RegNum) (rd : RegNum) (sa : BitVec 5) : Statement (.tgeu rs rt rd sa) :=
  of_select _ ((select_special _ (opField_rType ..)).trans (by rw [functField_rType]; rfl))
    (by simp [Instr.ofFields, Instr.mnemonic, encode]) rfl

theorem tlt (rs : RegNum) (rt : RegNum) (rd : RegNum) (sa : BitVec 5) : Statement (.tlt rs rt rd sa) :=
  of_select _ ((select_special _ (opField_rType ..)).trans (by rw [functField_rType]; rfl))
    (by simp [Instr.ofFields, Instr.mnemonic, encode]) rfl

theorem tltu (rs : RegNum) (rt : RegNum) (rd : RegNum) (sa : BitVec 5) : Statement (.tltu rs rt rd sa) :=
  of_select _ ((select_special _ (opField_rType ..)).trans (by rw [functField_rType]; rfl))
    (by simp [Instr.ofFields, Instr.mnemonic, encode]) rfl

theorem teq (rs : RegNum) (rt : RegNum) (rd : RegNum) (sa : BitVec 5) : Statement (.teq rs rt rd sa) :=
  of_select _ ((select_special _ (opField_rType ..)).trans (by rw [functField_rType]; rfl))
    (by simp [Instr.ofFields, Instr.mnemonic, encode]) rfl

theorem tne (rs : RegNum) (rt : RegNum) (rd : RegNum) (sa : BitVec 5) : Statement (.tne rs rt rd sa) :=
  of_select _ ((select_special _ (opField_rType ..)).trans (by rw [functField_rType]; rfl))
    (by simp [Instr.ofFields, Instr.mnemonic, encode]) rfl

theorem bltz (rs : RegNum) (imm : Imm16) : Statement (.bltz rs imm) :=
  of_select _ ((select_regimm _ (opField_iType ..)).trans (by rw [rtField_iType]; rfl))
    (by simp [Instr.ofFields, Instr.mnemonic, encode]) rfl

theorem bgez (rs : RegNum) (imm : Imm16) : Statement (.bgez rs imm) :=
  of_select _ ((select_regimm _ (opField_iType ..)).trans (by rw [rtField_iType]; rfl))
    (by simp [Instr.ofFields, Instr.mnemonic, encode]) rfl

theorem bltzl (rs : RegNum) (imm : Imm16) : Statement (.bltzl rs imm) :=
  of_select _ ((select_regimm _ (opField_iType ..)).trans (by rw [rtField_iType]; rfl))
    (by simp [Instr.ofFields, Instr.mnemonic, encode]) rfl

theorem bgezl (rs : RegNum) (imm : Imm16) : Statement (.bgezl rs imm) :=
  of_select _ ((select_regimm _ (opField_iType ..)).trans (by rw [rtField_iType]; rfl))
    (by simp [Instr.ofFields, Instr.mnemonic, encode]) rfl

theorem tgei (rs : RegNum) (imm : Imm16) : Statement (.tgei rs imm) :=
  of_select _ ((select_regimm _ (opField_iType ..)).trans (by rw [rtField_iType]; rfl))
    (by simp [Instr.ofFields, Instr.mnemonic, encode]) rfl

theorem tgeiu (rs : RegNum) (imm : Imm16) : Statement (.tgeiu rs imm) :=
  of_select _ ((select_regimm _ (opField_iType ..)).trans (by rw [rtField_iType]; rfl))
    (by simp [Instr.ofFields, Instr.mnemonic, encode]) rfl

theorem tlti (rs : RegNum) (imm : Imm16) : Statement (.tlti rs imm) :=
  of_select _ ((select_regimm _ (opField_iType ..)).trans (by rw [rtField_iType]; rfl))
    (by simp [Instr.ofFields, Instr.mnemonic, encode]) rfl

theorem tltiu (rs : RegNum) (imm : Imm16) : Statement (.tltiu rs imm) :=
  of_select _ ((select_regimm _ (opField_iType ..)).trans (by rw [rtField_iType]; rfl))
    (by simp [Instr.ofFields, Instr.mnemonic, encode]) rfl

theorem teqi (rs : RegNum) (imm : Imm16) : Statement (.teqi rs imm) :=
  of_select _ ((select_regimm _ (opField_iType ..)).trans (by rw [rtField_iType]; rfl))
    (by simp [Instr.ofFields, Instr.mnemonic, encode]) rfl

theorem tnei (rs : RegNum) (imm : Imm16) : Statement (.tnei rs imm) :=
  of_select _ ((select_regimm _ (opField_iType ..)).trans (by rw [rtField_iType]; rfl))
    (by simp [Instr.ofFields, Instr.mnemonic, encode]) rfl

theorem bltzal (rs : RegNum) (imm : Imm16) : Statement (.bltzal rs imm) :=
  of_select _ ((select_regimm _ (opField_iType ..)).trans (by rw [rtField_iType]; rfl))
    (by simp [Instr.ofFields, Instr.mnemonic, encode]) rfl

theorem bgezal (rs : RegNum) (imm : Imm16) : Statement (.bgezal rs imm) :=
  of_select _ ((select_regimm _ (opField_iType ..)).trans (by rw [rtField_iType]; rfl))
    (by simp [Instr.ofFields, Instr.mnemonic, encode]) rfl

theorem bltzall (rs : RegNum) (imm : Imm16) : Statement (.bltzall rs imm) :=
  of_select _ ((select_regimm _ (opField_iType ..)).trans (by rw [rtField_iType]; rfl))
    (by simp [Instr.ofFields, Instr.mnemonic, encode]) rfl

theorem bgezall (rs : RegNum) (imm : Imm16) : Statement (.bgezall rs imm) :=
  of_select _ ((select_regimm _ (opField_iType ..)).trans (by rw [rtField_iType]; rfl))
    (by simp [Instr.ofFields, Instr.mnemonic, encode]) rfl

theorem synci (rs : RegNum) (imm : Imm16) : Statement (.synci rs imm) :=
  of_select _ ((select_regimm _ (opField_iType ..)).trans (by rw [rtField_iType]; rfl))
    (by simp [Instr.ofFields, Instr.mnemonic, encode]) rfl

theorem madd (rs : RegNum) (rt : RegNum) : Statement (.madd rs rt) :=
  of_select _ ((select_special2 _ (opField_rType ..)).trans (by rw [functField_rType]; rfl))
    (by simp [Instr.ofFields, Instr.mnemonic, encode]) (by simp [fieldsOK, Instr.mnemonic, encode])

theorem maddu (rs : RegNum) (rt : RegNum) : Statement (.maddu rs rt) :=
  of_select _ ((select_special2 _ (opField_rType ..)).trans (by rw [functField_rType]; rfl))
    (by simp [Instr.ofFields, Instr.mnemonic, encode]) (by simp [fieldsOK, Instr.mnemonic, encode])

theorem mul (rs : RegNum) (rt : RegNum) (rd : RegNum) : Statement (.mul rs rt rd) :=
  of_select _ ((select_special2 _ (opField_rType ..)).trans (by rw [functField_rType]; rfl))
    (by simp [Instr.ofFields, Instr.mnemonic, encode]) (by simp [fieldsOK, Instr.mnemonic, encode])

theorem msub (rs : RegNum) (rt : RegNum) : Statement (.msub rs rt) :=
  of_select _ ((select_special2 _ (opField_rType ..)).trans (by rw [functField_rType]; rfl))
    (by simp [Instr.ofFields, Instr.mnemonic, encode]) (by simp [fieldsOK, Instr.mnemonic, encode])

theorem msubu (rs : RegNum) (rt : RegNum) : Statement (.msubu rs rt) :=
  of_select _ ((select_special2 _ (opField_rType ..)).trans (by rw [functField_rType]; rfl))
    (by simp [Instr.ofFields, Instr.mnemonic, encode]) (by simp [fieldsOK, Instr.mnemonic, encode])

theorem clz (rs : RegNum) (rd : RegNum) : Statement (.clz rs rd) :=
  of_select _ ((select_special2 _ (opField_rType ..)).trans (by rw [functField_rType]; rfl))
    (by simp [Instr.ofFields, Instr.mnemonic, encode]) (by simp [fieldsOK, Instr.mnemonic, encode])

theorem clo (rs : RegNum) (rd : RegNum) : Statement (.clo rs rd) :=
  of_select _ ((select_special2 _ (opField_rType ..)).trans (by rw [functField_rType]; rfl))
    (by simp [Instr.ofFields, Instr.mnemonic, encode]) (by simp [fieldsOK, Instr.mnemonic, encode])

theorem sdbbp (code : BitVec 20) : Statement (.sdbbp code) :=
  of_select _ ((select_special2 _ (opField_codeType ..)).trans (by rw [functField_codeType]; rfl))
    (by simp [Instr.ofFields, Instr.mnemonic, encode]) rfl

theorem j (index : Index26) : Statement (.j index) :=
  of_select _ ((select_primary _ (ne_of_eq_of_ne (opField_jType ..) (by decide)) (ne_of_eq_of_ne (opField_jType ..) (by decide))
      (ne_of_eq_of_ne (opField_jType ..) (by decide))).trans (by rw [opField_jType]; rfl))
    (by simp [Instr.ofFields, Instr.mnemonic, encode]) rfl

theorem jal (index : Index26) : Statement (.jal index) :=
  of_select _ ((select_primary _ (ne_of_eq_of_ne (opField_jType ..) (by decide)) (ne_of_eq_of_ne (opField_jType ..) (by decide))
      (ne_of_eq_of_ne (opField_jType ..) (by decide))).trans (by rw [opField_jType]; rfl))
    (by simp [Instr.ofFields, Instr.mnemonic, encode]) rfl

theorem beq (rs : RegNum) (rt : RegNum) (imm : Imm16) : Statement (.beq rs rt imm) :=
  of_select _ ((select_primary _ (ne_of_eq_of_ne (opField_iType ..) (by decide)) (ne_of_eq_of_ne (opField_iType ..) (by decide))
      (ne_of_eq_of_ne (opField_iType ..) (by decide))).trans (by rw [opField_iType]; rfl))
    (by simp [Instr.ofFields, Instr.mnemonic, encode]) rfl

theorem bne (rs : RegNum) (rt : RegNum) (imm : Imm16) : Statement (.bne rs rt imm) :=
  of_select _ ((select_primary _ (ne_of_eq_of_ne (opField_iType ..) (by decide)) (ne_of_eq_of_ne (opField_iType ..) (by decide))
      (ne_of_eq_of_ne (opField_iType ..) (by decide))).trans (by rw [opField_iType]; rfl))
    (by simp [Instr.ofFields, Instr.mnemonic, encode]) rfl

theorem blez (rs : RegNum) (imm : Imm16) : Statement (.blez rs imm) :=
  of_select _ ((select_primary _ (ne_of_eq_of_ne (opField_iType ..) (by decide)) (ne_of_eq_of_ne (opField_iType ..) (by decide))
      (ne_of_eq_of_ne (opField_iType ..) (by decide))).trans (by rw [opField_iType]; rfl))
    (by simp [Instr.ofFields, Instr.mnemonic, encode]) (by simp [fieldsOK, Instr.mnemonic, encode])

theorem bgtz (rs : RegNum) (imm : Imm16) : Statement (.bgtz rs imm) :=
  of_select _ ((select_primary _ (ne_of_eq_of_ne (opField_iType ..) (by decide)) (ne_of_eq_of_ne (opField_iType ..) (by decide))
      (ne_of_eq_of_ne (opField_iType ..) (by decide))).trans (by rw [opField_iType]; rfl))
    (by simp [Instr.ofFields, Instr.mnemonic, encode]) (by simp [fieldsOK, Instr.mnemonic, encode])

theorem addi (rs : RegNum) (rt : RegNum) (imm : Imm16) : Statement (.addi rs rt imm) :=
  of_select _ ((select_primary _ (ne_of_eq_of_ne (opField_iType ..) (by decide)) (ne_of_eq_of_ne (opField_iType ..) (by decide))
      (ne_of_eq_of_ne (opField_iType ..) (by decide))).trans (by rw [opField_iType]; rfl))
    (by simp [Instr.ofFields, Instr.mnemonic, encode]) rfl

theorem addiu (rs : RegNum) (rt : RegNum) (imm : Imm16) : Statement (.addiu rs rt imm) :=
  of_select _ ((select_primary _ (ne_of_eq_of_ne (opField_iType ..) (by decide)) (ne_of_eq_of_ne (opField_iType ..) (by decide))
      (ne_of_eq_of_ne (opField_iType ..) (by decide))).trans (by rw [opField_iType]; rfl))
    (by simp [Instr.ofFields, Instr.mnemonic, encode]) rfl

theorem slti (rs : RegNum) (rt : RegNum) (imm : Imm16) : Statement (.slti rs rt imm) :=
  of_select _ ((select_primary _ (ne_of_eq_of_ne (opField_iType ..) (by decide)) (ne_of_eq_of_ne (opField_iType ..) (by decide))
      (ne_of_eq_of_ne (opField_iType ..) (by decide))).trans (by rw [opField_iType]; rfl))
    (by simp [Instr.ofFields, Instr.mnemonic, encode]) rfl

theorem sltiu (rs : RegNum) (rt : RegNum) (imm : Imm16) : Statement (.sltiu rs rt imm) :=
  of_select _ ((select_primary _ (ne_of_eq_of_ne (opField_iType ..) (by decide)) (ne_of_eq_of_ne (opField_iType ..) (by decide))
      (ne_of_eq_of_ne (opField_iType ..) (by decide))).trans (by rw [opField_iType]; rfl))
    (by simp [Instr.ofFields, Instr.mnemonic, encode]) rfl

theorem andi (rs : RegNum) (rt : RegNum) (imm : Imm16) : Statement (.andi rs rt imm) :=
  of_select _ ((select_primary _ (ne_of_eq_of_ne (opField_iType ..) (by decide)) (ne_of_eq_of_ne (opField_iType ..) (by decide))
      (ne_of_eq_of_ne (opField_iType ..) (by decide))).trans (by rw [opField_iType]; rfl))
    (by simp [Instr.ofFields, Instr.mnemonic, encode]) rfl

theorem ori (rs : RegNum) (rt : RegNum) (imm : Imm16) : Statement (.ori rs rt imm) :=
  of_select _ ((select_primary _ (ne_of_eq_of_ne (opField_iType ..) (by decide)) (ne_of_eq_of_ne (opField_iType ..) (by decide))
      (ne_of_eq_of_ne (opField_iType ..) (by decide))).trans (by rw [opField_iType]; rfl))
    (by simp [Instr.ofFields, Instr.mnemonic, encode]) rfl

theorem xori (rs : RegNum) (rt : RegNum) (imm : Imm16) : Statement (.xori rs rt imm) :=
  of_select _ ((select_primary _ (ne_of_eq_of_ne (opField_iType ..) (by decide)) (ne_of_eq_of_ne (opField_iType ..) (by decide))
      (ne_of_eq_of_ne (opField_iType ..) (by decide))).trans (by rw [opField_iType]; rfl))
    (by simp [Instr.ofFields, Instr.mnemonic, encode]) rfl

theorem lui (rt : RegNum) (imm : Imm16) : Statement (.lui rt imm) :=
  of_select _ ((select_primary _ (ne_of_eq_of_ne (opField_iType ..) (by decide)) (ne_of_eq_of_ne (opField_iType ..) (by decide))
      (ne_of_eq_of_ne (opField_iType ..) (by decide))).trans (by rw [opField_iType]; rfl))
    (by simp [Instr.ofFields, Instr.mnemonic, encode]) (by simp [fieldsOK, Instr.mnemonic, encode])

theorem cop0 (rs : RegNum) (rt : RegNum) (imm : Imm16) : Statement (.cop0 rs rt imm) :=
  of_select _ ((select_primary _ (ne_of_eq_of_ne (opField_iType ..) (by decide)) (ne_of_eq_of_ne (opField_iType ..) (by decide))
      (ne_of_eq_of_ne (opField_iType ..) (by decide))).trans (by rw [opField_iType]; rfl))
    (by simp [Instr.ofFields, Instr.mnemonic, encode]) rfl

theorem cop1 (rs : RegNum) (rt : RegNum) (imm : Imm16) : Statement (.cop1 rs rt imm) :=
  of_select _ ((select_primary _ (ne_of_eq_of_ne (opField_iType ..) (by decide)) (ne_of_eq_of_ne (opField_iType ..) (by decide))
      (ne_of_eq_of_ne (opField_iType ..) (by decide))).trans (by rw [opField_iType]; rfl))
    (by simp [Instr.ofFields, Instr.mnemonic, encode]) rfl

theorem cop2 (rs : RegNum) (rt : RegNum) (imm : Imm16) : Statement (.cop2 rs rt imm) :=
  of_select _ ((select_primary _ (ne_of_eq_of_ne (opField_iType ..) (by decide)) (ne_of_eq_of_ne (opField_iType ..) (by decide))
      (ne_of_eq_of_ne (opField_iType ..) (by decide))).trans (by rw [opField_iType]; rfl))
    (by simp [Instr.ofFields, Instr.mnemonic, encode]) rfl

theorem cop1x (rs : RegNum) (rt : RegNum) (imm : Imm16) : Statement (.cop1x rs rt imm) :=
  of_select _ ((select_primary _ (ne_of_eq_of_ne (opField_iType ..) (by decide)) (ne_of_eq_of_ne (opField_iType ..) (by decide))
      (ne_of_eq_of_ne (opField_iType ..) (by decide))).trans (by rw [opField_iType]; rfl))
    (by simp [Instr.ofFields, Instr.mnemonic, encode]) rfl

theorem beql (rs : RegNum) (rt : RegNum) (imm : Imm16) : Statement (.beql rs rt imm) :=
  of_select _ ((select_primary _ (ne_of_eq_of_ne (opField_iType ..) (by decide)) (ne_of_eq_of_ne (opField_iType ..) (by decide))
      (ne_of_eq_of_ne (opField_iType ..) (by decide))).trans (by rw [opField_iType]; rfl))
    (by simp [Instr.ofFields, Instr.mnemonic, encode]) rfl

theorem bnel (rs : RegNum) (rt : RegNum) (imm : Imm16) : Statement (.bnel rs rt imm) :=
  of_select _ ((select_primary _ (ne_of_eq_of_ne (opField_iType ..) (by decide)) (ne_of_eq_of_ne (opField_iType ..) (by decide))
      (ne_of_eq_of_ne (opField_iType ..) (by decide))).trans (by rw [opField_iType]; rfl))
    (by simp [Instr.ofFields, Instr.mnemonic, encode]) rfl

theorem blezl (rs : RegNum) (imm : Imm16) : Statement (.blezl rs imm) :=
  of_select _ ((select_primary _ (ne_of_eq_of_ne (opField_iType ..) (by decide)) (ne_of_eq_of_ne (opField_iType ..) (by decide))
      (ne_of_eq_of_ne (opField_iType ..) (by decide))).trans (by rw [opField_iType]; rfl))
    (by simp [Instr.ofFields, Instr.mnemonic, encode]) (by simp [fieldsOK, Instr.mnemonic, encode])

theorem bgtzl (rs : RegNum) (imm : Imm16) : Statement (.bgtzl rs imm) :=
  of_select _ ((select_primary _ (ne_of_eq_of_ne (opField_iType ..) (by decide)) (ne_of_eq_of_ne (opField_iType ..) (by decide))
      (ne_of_eq_of_ne (opField_iType ..) (by decide))).trans (by rw [opField_iType]; rfl))
    (by simp [Instr.ofFields, Instr.mnemonic, encode]) (by simp [fieldsOK, Instr.mnemonic, encode])

theorem jalx (index : Index26) : Statement (.jalx index) :=
  of_select _ ((select_primary _ (ne_of_eq_of_ne (opField_jType ..) (by decide)) (ne_of_eq_of_ne (opField_jType ..) (by decide))
      (ne_of_eq_of_ne (opField_jType ..) (by decide))).trans (by rw [opField_jType]; rfl))
    (by simp [Instr.ofFields, Instr.mnemonic, encode]) rfl

theorem special3 (rs : RegNum) (rt : RegNum) (imm : Imm16) : Statement (.special3 rs rt imm) :=
  of_select _ ((select_primary _ (ne_of_eq_of_ne (opField_iType ..) (by decide)) (ne_of_eq_of_ne (opField_iType ..) (by decide))
      (ne_of_eq_of_ne (opField_iType ..) (by decide))).trans (by rw [opField_iType]; rfl))
    (by simp [Instr.ofFields, Instr.mnemonic, encode]) rfl

theorem lb (rs : RegNum) (rt : RegNum) (imm : Imm16) : Statement (.lb rs rt imm) :=
  of_select _ ((select_primary _ (ne_of_eq_of_ne (opField_iType ..) (by decide)) (ne_of_eq_of_ne (opField_iType ..) (by decide))
      (ne_of_eq_of_ne (opField_iType ..) (by decide))).trans (by rw [opField_iType]; rfl))
    (by simp [Instr.ofFields, Instr.mnemonic, encode]) rfl

theorem lh (rs : RegNum) (rt : RegNum) (imm : Imm16) : Statement (.lh rs rt imm) :=
  of_select _ ((select_primary _ (ne_of_eq_of_ne (opField_iType ..) (by decide)) (ne_of_eq_of_ne (opField_iType ..) (by decide))
      (ne_of_eq_of_ne (opField_iType ..) (by decide))).trans (by rw [opField_iType]; rfl))
    (by simp [Instr.ofFields, Instr.mnemonic, encode]) rfl

theorem lwl (rs : RegNum) (rt : RegNum) (imm : Imm16) : Statement (.lwl rs rt imm) :=
  of_select _ ((select_primary _ (ne_of_eq_of_ne (opField_iType ..) (by decide)) (ne_of_eq_of_ne (opField_iType ..) (by decide))
      (ne_of_eq_of_ne (opField_iType ..) (by decide))).trans (by rw [opField_iType]; rfl))
    (by simp [Instr.ofFields, Instr.mnemonic, encode]) rfl

theorem lw (rs : RegNum) (rt : RegNum) (imm : Imm16) : Statement (.lw rs rt imm) :=
  of_select _ ((select_primary _ (ne_of_eq_of_ne (opField_iType ..) (by decide)) (ne_of_eq_of_ne (opField_iType ..) (by decide))
      (ne_of_eq_of_ne (opField_iType ..) (by decide))).trans (by rw [opField_iType]; rfl))
    (by simp [Instr.ofFields, Instr.mnemonic, encode]) rfl

theorem lbu (rs : RegNum) (rt : RegNum) (imm : Imm16) : Statement (.lbu rs rt imm) :=
  of_select _ ((select_primary _ (ne_of_eq_of_ne (opField_iType ..) (by decide)) (ne_of_eq_of_ne (opField_iType ..) (by decide))
      (ne_of_eq_of_ne (opField_iType ..) (by decide))).trans (by rw [opField_iType]; rfl))
    (by simp [Instr.ofFields, Instr.mnemonic, encode]) rfl

theorem lhu (rs : RegNum) (rt : RegNum) (imm : Imm16) : Statement (.lhu rs rt imm) :=
  of_select _ ((select_primary _ (ne_of_eq_of_ne (opField_iType ..) (by decide)) (ne_of_eq_of_ne (opField_iType ..) (by decide))
      (ne_of_eq_of_ne (opField_iType ..) (by decide))).trans (by rw [opField_iType]; rfl))
    (by simp [Instr.ofFields, Instr.mnemonic, encode]) rfl

theorem lwr (rs : RegNum) (rt : RegNum) (imm : Imm16) : Statement (.lwr rs rt imm) :=
  of_select _ ((select_primary _ (ne_of_eq_of_ne (opField_iType ..) (by decide)) (ne_of_eq_of_ne (opField_iType ..) (by decide))
      (ne_of_eq_of_ne (opField_iType ..) (by decide))).trans (by rw [opField_iType]; rfl))
    (by simp [Instr.ofFields, Instr.mnemonic, encode]) rfl

theorem sb (rs : RegNum) (rt : RegNum) (imm : Imm16) : Statement (.sb rs rt imm) :=
  of_select _ ((select_primary _ (ne_of_eq_of_ne (opField_iType ..) (by decide)) (ne_of_eq_of_ne (opField_iType ..) (by decide))
      (ne_of_eq_of_ne (opField_iType ..) (by decide))).trans (by rw [opField_iType]; rfl))
    (by simp [Instr.ofFields, Instr.mnemonic, encode]) rfl

theorem sh (rs : RegNum) (rt : RegNum) (imm : Imm16) : Statement (.sh rs rt imm) :=
  of_select _ ((select_primary _ (ne_of_eq_of_ne (opField_iType ..) (by decide)) (ne_of_eq_of_ne (opField_iType ..) (by decide))
      (ne_of_eq_of_ne (opField_iType ..) (by decide))).trans (by rw [opField_iType]; rfl))
    (by simp [Instr.ofFields, Instr.mnemonic, encode]) rfl

theorem swl (rs : RegNum) (rt : RegNum) (imm : Imm16) : Statement (.swl rs rt imm) :=
  of_select _ ((select_primary _ (ne_of_eq_of_ne (opField_iType ..) (by decide)) (ne_of_eq_of_ne (opField_iType ..) (by decide))
      (ne_of_eq_of_ne (opField_iType ..) (by decide))).trans (by rw [opField_iType]; rfl))
    (by simp [Instr.ofFields, Instr.mnemonic, encode]) rfl

theorem sw (rs : RegNum) (rt : RegNum) (imm : Imm16) : Statement (.sw rs rt imm) :=
  of_select _ ((select_primary _ (ne_of_eq_of_ne (opField_iType ..) (by decide)) (ne_of_eq_of_ne (opField_iType ..) (by decide))
      (ne_of_eq_of_ne (opField_iType ..) (by decide))).trans (by rw [opField_iType]; rfl))
    (by simp [Instr.ofFields, Instr.mnemonic, encode]) rfl

theorem swr (rs : RegNum) (rt : RegNum) (imm : Imm16) : Statement (.swr rs rt imm) :=
  of_select _ ((select_primary _ (ne_of_eq_of_ne (opField_iType ..) (by decide)) (ne_of_eq_of_ne (opField_iType ..) (by decide))
      (ne_of_eq_of_ne (opField_iType ..) (by decide))).trans (by rw [opField_iType]; rfl))
    (by simp [Instr.ofFields, Instr.mnemonic, encode]) rfl

theorem cache (rs : RegNum) (rt : RegNum) (imm : Imm16) : Statement (.cache rs rt imm) :=
  of_select _ ((select_primary _ (ne_of_eq_of_ne (opField_iType ..) (by decide)) (ne_of_eq_of_ne (opField_iType ..) (by decide))
      (ne_of_eq_of_ne (opField_iType ..) (by decide))).trans (by rw [opField_iType]; rfl))
    (by simp [Instr.ofFields, Instr.mnemonic, encode]) rfl

theorem ll (rs : RegNum) (rt : RegNum) (imm : Imm16) : Statement (.ll rs rt imm) :=
  of_select _ ((select_primary _ (ne_of_eq_of_ne (opField_iType ..) (by decide)) (ne_of_eq_of_ne (opField_iType ..) (by decide))
      (ne_of_eq_of_ne (opField_iType ..) (by decide))).trans (by rw [opField_iType]; rfl))
    (by simp [Instr.ofFields, Instr.mnemonic, encode]) rfl

theorem lwc1 (rs : RegNum) (rt : RegNum) (imm : Imm16) : Statement (.lwc1 rs rt imm) :=
  of_select _ ((select_primary _ (ne_of_eq_of_ne (opField_iType ..) (by decide)) (ne_of_eq_of_ne (opField_iType ..) (by decide))
      (ne_of_eq_of_ne (opField_iType ..) (by decide))).trans (by rw [opField_iType]; rfl))
    (by simp [Instr.ofFields, Instr.mnemonic, encode]) rfl

theorem lwc2 (rs : RegNum) (rt : RegNum) (imm : Imm16) : Statement (.lwc2 rs rt imm) :=
  of_select _ ((select_primary _ (ne_of_eq_of_ne (opField_iType ..) (by decide)) (ne_of_eq_of_ne (opField_iType ..) (by decide))
      (ne_of_eq_of_ne (opField_iType ..) (by decide))).trans (by rw [opField_iType]; rfl))
    (by simp [Instr.ofFields, Instr.mnemonic, encode]) rfl

theorem pref (rs : RegNum) (rt : RegNum) (imm : Imm16) : Statement (.pref rs rt imm) :=
  of_select _ ((select_primary _ (ne_of_eq_of_ne (opField_iType ..) (by decide)) (ne_of_eq_of_ne (opField_iType ..) (by decide))
      (ne_of_eq_of_ne (opField_iType ..) (by decide))).trans (by rw [opField_iType]; rfl))
    (by simp [Instr.ofFields, Instr.mnemonic, encode]) rfl

theorem ldc1 (rs : RegNum) (rt : RegNum) (imm : Imm16) : Statement (.ldc1 rs rt imm) :=
  of_select _ ((select_primary _ (ne_of_eq_of_ne (opField_iType ..) (by decide)) (ne_of_eq_of_ne (opField_iType ..) (by decide))
      (ne_of_eq_of_ne (opField_iType ..) (by decide))).trans (by rw [opField_iType]; rfl))
    (by simp [Instr.ofFields, Instr.mnemonic, encode]) rfl

theorem ldc2 (rs : RegNum) (rt : RegNum) (imm : Imm16) : Statement (.ldc2 rs rt imm) :=
  of_select _ ((select_primary _ (ne_of_eq_of_ne (opField_iType ..) (by decide)) (ne_of_eq_of_ne (opField_iType ..) (by decide))
      (ne_of_eq_of_ne (opField_iType ..) (by decide))).trans (by rw [opField_iType]; rfl))
    (by simp [Instr.ofFields, Instr.mnemonic, encode]) rfl

theorem sc (rs : RegNum) (rt : RegNum) (imm : Imm16) : Statement (.sc rs rt imm) :=
  of_select _ ((select_primary _ (ne_of_eq_of_ne (opField_iType ..) (by decide)) (ne_of_eq_of_ne (opField_iType ..) (by decide))
      (ne_of_eq_of_ne (opField_iType ..) (by decide))).trans (by rw [opField_iType]; rfl))
    (by simp [Instr.ofFields, Instr.mnemonic, encode]) rfl

theorem swc1 (rs : RegNum) (rt : RegNum) (imm : Imm16) : Statement (.swc1 rs rt imm) :=
  of_select _ ((select_primary _ (ne_of_eq_of_ne (opField_iType ..) (by decide)) (ne_of_eq_of_ne (opField_iType ..) (by decide))
      (ne_of_eq_of_ne (opField_iType ..) (by decide))).trans (by rw [opField_iType]; rfl))
    (by simp [Instr.ofFields, Instr.mnemonic, encode]) rfl

theorem swc2 (rs : RegNum) (rt : RegNum) (imm : Imm16) : Statement (.swc2 rs rt imm) :=
  of_select _ ((select_primary _ (ne_of_eq_of_ne (opField_iType ..) (by decide)) (ne_of_eq_of_ne (opField_iType ..) (by decide))
      (ne_of_eq_of_ne (opField_iType ..) (by decide))).trans (by rw [opField_iType]; rfl))
    (by simp [Instr.ofFields, Instr.mnemonic, encode]) rfl

theorem sdc1 (rs : RegNum) (rt : RegNum) (imm : Imm16) : Statement (.sdc1 rs rt imm) :=
  of_select _ ((select_primary _ (ne_of_eq_of_ne (opField_iType ..) (by decide)) (ne_of_eq_of_ne (opField_iType ..) (by decide))
      (ne_of_eq_of_ne (opField_iType ..) (by decide))).trans (by rw [opField_iType]; rfl))
    (by simp [Instr.ofFields, Instr.mnemonic, encode]) rfl

theorem sdc2 (rs : RegNum) (rt : RegNum) (imm : Imm16) : Statement (.sdc2 rs rt imm) :=
  of_select _ ((select_primary _ (ne_of_eq_of_ne (opField_iType ..) (by decide)) (ne_of_eq_of_ne (opField_iType ..) (by decide))
      (ne_of_eq_of_ne (opField_iType ..) (by decide))).trans (by rw [opField_iType]; rfl))
    (by simp [Instr.ofFields, Instr.mnemonic, encode]) rfl

end Sys2Proof.Laws.RoundTrip
end

