-- ==== Sys2Proof/Laws/Rows.lean ====
section
/-! SUPPORT. The rows of opcode_table.json: from the fixed bits of a word to the entry it selects (30_encoding.md R157 to
R161), and the must-be-zero masks as fields (30_encoding.md R167). -/

namespace Sys2Proof.Machine

/-- A field that lies wholly under the mask holds the mask value's bits. -/
theorem extract_of_mask {w mask val : Word} (lo len : Nat) (h : w &&& mask = val)
    (hm : mask.extractLsb' lo len = BitVec.allOnes len) : w.extractLsb' lo len = val.extractLsb' lo len := by
  rw [← h, BitVec.extractLsb'_and, hm, BitVec.and_allOnes]

theorem select_of_mask_special {w val : Word} (h : w &&& 0xFC00003F = val) (hv : opField val = 0x00) :
    selectMnemonic w = assoc (functField val).toNat specialMap := by
  rw [select_special w ((extract_of_mask 26 6 h (by decide)).trans hv)]
  exact congrArg (fun x : BitVec 6 => assoc x.toNat specialMap) (extract_of_mask 0 6 h (by decide))

theorem select_of_mask_special2 {w val : Word} (h : w &&& 0xFC00003F = val) (hv : opField val = 0x1C) :
    selectMnemonic w = assoc (functField val).toNat special2Map := by
  rw [select_special2 w ((extract_of_mask 26 6 h (by decide)).trans hv)]
  exact congrArg (fun x : BitVec 6 => assoc x.toNat special2Map) (extract_of_mask 0 6 h (by decide))

theorem select_of_mask_regimm {w val : Word} (h : w &&& 0xFC1F0000 = val) (hv : opField val = 0x01) :
    selectMnemonic w = assoc (rtField val).toNat regimmMap := by
  rw [select_regimm w ((extract_of_mask 26 6 h (by decide)).trans hv)]
  exact congrArg (fun x : BitVec 5 => assoc x.toNat regimmMap) (extract_of_mask 16 5 h (by decide))

theorem select_of_mask_primary {w val : Word} (h : w &&& 0xFC000000 = val) (h0 : opField val ≠ 0x00)
    (h1 : opField val ≠ 0x01) (h2 : opField val ≠ 0x1C) :
    selectMnemonic w = assoc (opField val).toNat primaryMap := by
  have e : opField w = opField val := extract_of_mask 26 6 h (by decide)
  rw [select_primary w (e ▸ h0) (e ▸ h1) (e ▸ h2), e]

/-- A row, from the entry its fixed bits select. -/
theorem rowIs_of_select {mask val : Word} {fixed : Word → Prop} {g : Group} {f : Word → Instr} (m : Mnemonic)
    (hs : ∀ w, w &&& mask = val → selectMnemonic w = some m) (hf : ∀ w, f w = Instr.ofFields w m)
    (hg : m.group = g) (hk : ∀ w, fieldsOK w m = true ↔ fixed w) : RowIs mask val fixed g f := by
  intro w hw
  have hm : (f w).mnemonic = m := by rw [hf, ofFields_mnemonic]
  exact ⟨by rw [decodeWord_of_select w m (hs w hw), hf], by rw [Instr.group, hm, hg], by rw [hm]; exact hk w⟩

theorem rowIs_special {val : Word} {fixed : Word → Prop} {g : Group} {f : Word → Instr} (m : Mnemonic)
    (hv : opField val = 0x00) (hs : assoc (functField val).toNat specialMap = some m)
    (hf : ∀ w, f w = Instr.ofFields w m) (hg : m.group = g) (hk : ∀ w, fieldsOK w m = true ↔ fixed w) :
    RowIs 0xFC00003F val fixed g f :=
  rowIs_of_select m (fun _ h => (select_of_mask_special h hv).trans hs) hf hg hk

theorem rowIs_special2 {val : Word} {fixed : Word → Prop} {g : Group} {f : Word → Instr} (m : Mnemonic)
    (hv : opField val = 0x1C) (hs : assoc (functField val).toNat special2Map = some m)
    (hf : ∀ w, f w = Instr.ofFields w m) (hg : m.group = g) (hk : ∀ w, fieldsOK w m = true ↔ fixed w) :
    RowIs 0xFC00003F val fixed g f :=
  rowIs_of_select m (fun _ h => (select_of_mask_special2 h hv).trans hs) hf hg hk

theorem rowIs_regimm {val : Word} {fixed : Word → Prop} {g : Group} {f : Word → Instr} (m : Mnemonic)
    (hv : opField val = 0x01) (hs : assoc (rtField val).toNat regimmMap = some m)
    (hf : ∀ w, f w = Instr.ofFields w m) (hg : m.group = g) (hk : ∀ w, fieldsOK w m = true ↔ fixed w) :
    RowIs 0xFC1F0000 val fixed g f :=
  rowIs_of_select m (fun _ h => (select_of_mask_regimm h hv).trans hs) hf hg hk

theorem rowIs_primary {val : Word} {fixed : Word → Prop} {g : Group} {f : Word → Instr} (m : Mnemonic)
    (hv : opField val ≠ 0x00 ∧ opField val ≠ 0x01 ∧ opField val ≠ 0x1C)
    (hs : assoc (opField val).toNat primaryMap = some m)
    (hf : ∀ w, f w = Instr.ofFields w m) (hg : m.group = g) (hk : ∀ w, fieldsOK w m = true ↔ fixed w) :
    RowIs 0xFC000000 val fixed g f :=
  rowIs_of_select m (fun _ h => (select_of_mask_primary h hv.1 hv.2.1 hv.2.2).trans hs) hf hg hk

/-- No bit under the mask is set. -/
theorem zeroAt_iff (bits w : Word) : ZeroAt bits w ↔ ∀ k, k < 32 → bits.getLsbD k = true → w.getLsbD k = false := by
  constructor
  · intro h k _ hb
    have := congrArg (fun x : Word => x.getLsbD k) h
    simpa [hb] using this
  · intro h
    apply BitVec.eq_of_getLsbD_eq
    intro k hk
    cases hb : bits.getLsbD k with
    | false => simp [hb]
    | true => simp [hb, h k hk hb]

theorem field_zero_iff (w : Word) (lo len : Nat) :
    w.extractLsb' lo len = 0 ↔ ∀ k, lo ≤ k → k < lo + len → w.getLsbD k = false := by
  constructor
  · intro h k h1 h2
    have := congrArg (fun x : BitVec len => x.getLsbD (k - lo)) h
    simpa [show k - lo < len by omega, show lo + (k - lo) = k by omega] using this
  · intro h
    apply BitVec.eq_of_getLsbD_eq
    intro k hk
    simp [hk, h (lo + k) (by omega) (by omega)]

/-- A mask that covers exactly one field asks that the field be 0. -/
theorem zeroAt_field (bits w : Word) (lo len : Nat)
    (hb : ∀ k, k < 32 → (bits.getLsbD k = true ↔ lo ≤ k ∧ k < lo + len)) (hl : lo + len ≤ 32) :
    ZeroAt bits w ↔ w.extractLsb' lo len = 0 := by
  rw [zeroAt_iff, field_zero_iff]
  constructor
  · intro h k h1 h2; exact h k (by omega) ((hb k (by omega)).2 ⟨h1, h2⟩)
  · intro h k hk hbk; have := (hb k hk).1 hbk; exact h k this.1 this.2

theorem zeroAt_or (a b w : Word) : ZeroAt (a ||| b) w ↔ ZeroAt a w ∧ ZeroAt b w := by
  simp only [zeroAt_iff, BitVec.getLsbD_or, Bool.or_eq_true]
  constructor
  · intro h; exact ⟨fun k hk h' => h k hk (.inl h'), fun k hk h' => h k hk (.inr h')⟩
  · rintro ⟨h1, h2⟩ k hk (h' | h')
    · exact h1 k hk h'
    · exact h2 k hk h'

theorem zeroAt_rs (w : Word) : ZeroAt 0x03E00000 w ↔ rsField w = 0 := zeroAt_field _ w 21 5 (by decide) (by decide)
theorem zeroAt_rt (w : Word) : ZeroAt 0x001F0000 w ↔ rtField w = 0 := zeroAt_field _ w 16 5 (by decide) (by decide)
theorem zeroAt_rd (w : Word) : ZeroAt 0x0000F800 w ↔ rdField w = 0 := zeroAt_field _ w 11 5 (by decide) (by decide)
theorem zeroAt_sa (w : Word) : ZeroAt 0x000007C0 w ↔ saField w = 0 := zeroAt_field _ w 6 5 (by decide) (by decide)

theorem zeroAt_rd_sa (w : Word) : ZeroAt 0x0000FFC0 w ↔ rdField w = 0 ∧ saField w = 0 := by
  rw [← zeroAt_rd, ← zeroAt_sa, ← zeroAt_or]; rfl
theorem zeroAt_rt_sa (w : Word) : ZeroAt 0x001F07C0 w ↔ rtField w = 0 ∧ saField w = 0 := by
  rw [← zeroAt_rt, ← zeroAt_sa, ← zeroAt_or]; rfl
theorem zeroAt_rs_rt_sa (w : Word) : ZeroAt 0x03FF07C0 w ↔ (rsField w = 0 ∧ rtField w = 0) ∧ saField w = 0 := by
  rw [← zeroAt_rs, ← zeroAt_rt, ← zeroAt_sa, ← zeroAt_or, ← zeroAt_or]; rfl
theorem zeroAt_rt_rd_sa (w : Word) : ZeroAt 0x001FFFC0 w ↔ (rtField w = 0 ∧ rdField w = 0) ∧ saField w = 0 := by
  rw [← zeroAt_rt, ← zeroAt_rd, ← zeroAt_sa, ← zeroAt_or, ← zeroAt_or]; rfl
theorem zeroAt_rs_rt_rd (w : Word) : ZeroAt 0x03FFF800 w ↔ (rsField w = 0 ∧ rtField w = 0) ∧ rdField w = 0 := by
  rw [← zeroAt_rs, ← zeroAt_rt, ← zeroAt_rd, ← zeroAt_or, ← zeroAt_or]; rfl

/-! The must-be-zero check of each shape of entry, as its mask. -/

theorem fields_none {m : Mnemonic} (h : ∀ w, fieldsOK w m = true) (w : Word) : fieldsOK w m = true ↔ NoFixed w :=
  ⟨fun _ => trivial, fun _ => h w⟩
theorem fields_rs {m : Mnemonic} (h : ∀ w, fieldsOK w m = (rsField w == 0)) (w : Word) :
    fieldsOK w m = true ↔ ZeroAt 0x03E00000 w := by rw [h, zeroAt_rs, beq_iff_eq]
theorem fields_rt {m : Mnemonic} (h : ∀ w, fieldsOK w m = (rtField w == 0)) (w : Word) :
    fieldsOK w m = true ↔ ZeroAt 0x001F0000 w := by rw [h, zeroAt_rt, beq_iff_eq]
theorem fields_sa {m : Mnemonic} (h : ∀ w, fieldsOK w m = (saField w == 0)) (w : Word) :
    fieldsOK w m = true ↔ ZeroAt 0x7C0 w := by rw [h, zeroAt_sa, beq_iff_eq]
theorem fields_rd_sa {m : Mnemonic} (h : ∀ w, fieldsOK w m = (rdField w == 0 && saField w == 0)) (w : Word) :
    fieldsOK w m = true ↔ ZeroAt 0xFFC0 w := by rw [h, zeroAt_rd_sa, Bool.and_eq_true, beq_iff_eq, beq_iff_eq]
theorem fields_rt_sa {m : Mnemonic} (h : ∀ w, fieldsOK w m = (rtField w == 0 && saField w == 0)) (w : Word) :
    fieldsOK w m = true ↔ ZeroAt 0x001F07C0 w := by
  rw [h, zeroAt_rt_sa, Bool.and_eq_true, beq_iff_eq, beq_iff_eq]
theorem fields_rs_rt_sa {m : Mnemonic} (h : ∀ w, fieldsOK w m = (rsField w == 0 && rtField w == 0 && saField w == 0))
    (w : Word) : fieldsOK w m = true ↔ ZeroAt 0x03FF07C0 w := by
  rw [h, zeroAt_rs_rt_sa, Bool.and_eq_true, Bool.and_eq_true, beq_iff_eq, beq_iff_eq, beq_iff_eq]
theorem fields_rt_rd_sa {m : Mnemonic} (h : ∀ w, fieldsOK w m = (rtField w == 0 && rdField w == 0 && saField w == 0))
    (w : Word) : fieldsOK w m = true ↔ ZeroAt 0x001FFFC0 w := by
  rw [h, zeroAt_rt_rd_sa, Bool.and_eq_true, Bool.and_eq_true, beq_iff_eq, beq_iff_eq, beq_iff_eq]
theorem fields_rs_rt_rd {m : Mnemonic} (h : ∀ w, fieldsOK w m = (rsField w == 0 && rtField w == 0 && rdField w == 0))
    (w : Word) : fieldsOK w m = true ↔ ZeroAt 0x03FFF800 w := by
  rw [h, zeroAt_rs_rt_rd, Bool.and_eq_true, Bool.and_eq_true, beq_iff_eq, beq_iff_eq, beq_iff_eq]

end Sys2Proof.Machine
end

