-- ==== Sys2Proof/Tests/Slice0.lean ====
section
/-! SUPPORT. The model's own tests: decoded words written out from the encodings of 30_encoding.md, one-step
vectors of 95_test_vectors.md, ill-formed parameter sets that the checks refuse, and a witness for the
hypotheses of each statement. -/

namespace Sys2Proof.Tests

open Sys2Proof.Machine

/-! Helpers -/

/-- The address of HI in the tests' instance. -/
def hiAt : Word := 0xC0000084

/-- The address of LO in the tests' instance. -/
def loAt : Word := 0xC0000088

/-- The instance of 95_test_vectors.md: the optional groups are there, everything else at its default. -/
def vec : Config :=
  { Config.instanceAtReset with
    strictFields := .refuse
    regfileData := .refuse
    halfOdd := .refuse
    ctInDs := .refuse
    groupSyscall := .unknown
    groupBreak := .unknown
    groupTrap := .unknown
    groupCop := .unknown
    groupAse := .unknown
    groupR2 := .unknown
    oracleLayout := [([0xAB, 0xCD], [2, 0xABCD0000])] }

/-- The provider `ORC_EX` of 95_test_vectors.md, with a step budget and an observer. -/
def vecInputs : RunInputs :=
  ⟨100, [([0, 0, 0, 0x2A], [0xAB, 0xCD]), ([0, 0, 0, 0x2C], [1, 2, 3, 4, 5])], true⟩

/-- The state at `pc` with the word `w` there, some words of memory and some registers set. -/
def atPc (pc w : Word) (regs : List (RegNum × Word)) (words : List (Word × Word)) : State :=
  let s := (State.start vec vecInputs [] pc 1000).setMword pc w
  let s := words.foldl (fun t p => t.setMword p.1 p.2) s
  regs.foldl (fun t p => t.setReg p.1 p.2) s

/-- `atPc` the address the vectors use. -/
def at1 (w : Word) (regs : List (RegNum × Word)) (words : List (Word × Word)) : State := atPc 0x1000 w regs words

/-- The same state under other parameters. -/
def under (c : Config) (s : State) : State := { s with cfg := c }

/-- The same state after an LL. -/
def linked (s : State) : State := { s with llbit := true }

/-- The step commits with this pair, the registers listed, every other general register kept, and the words
listed; it costs 1. -/
def gives (s : State) (pc npc : Word) (regs : List (RegNum × Word)) (words : List (Word × Word)) : Bool :=
  match step s with
  | .next t =>
    decide (t.status = .running) && t.getPC == pc && t.npc == npc && t.gas == 999 && t.steps == 1 &&
      (List.range 32).all (fun k =>
        t.getReg (BitVec.ofNat 5 k) == (assoc (BitVec.ofNat 5 k) regs).getD (s.getReg (BitVec.ofNat 5 k))) &&
      words.all (fun p => t.mword p.1 == p.2)
  | .fault _ => false
  | .refused _ => false

/-- The step ends in an error and changes nothing but the charge `c`. -/
def fails (s : State) (c : Nat) (e : EngineError) : Bool :=
  match step s with
  | .next t => decide (t = { s with gas := s.gas - c, status := .error e })
  | .fault _ => false
  | .refused _ => false

/-- The step is refused for this reason. -/
def refuses (s : State) (r : Refusal) : Bool :=
  match step s with
  | .next _ => false
  | .fault _ => false
  | .refused q => decide (q = r)

/-- An outcome is a next state. -/
def isNext : StepOutcome → Bool
  | .next _ => true
  | .fault _ => false
  | .refused _ => false

/-- The next state of an outcome. -/
def outState : StepOutcome → State
  | .next t => t
  | .fault _ => State.reset
  | .refused _ => State.reset

theorem next_of {o : StepOutcome} (h : isNext o = true) : o = .next (outState o) := by
  cases o <;> simp [isNext, outState] at h ⊢

/-! Decoding: each word is the row's match value of opcode_table.json with rs = 5, rt = 6, rd = 7, sa = 9,
imm = 0x8123 or index = 0x2ABCDEF in the fields the row has (a code field takes bits 25..6 of these). -/

theorem test_decode_special_a :
    decodeWord 0x00063A40 = some (.sll 6 7 9) ∧
    decodeWord 0x00A63A41 = some (.movci 5 6 7 9) ∧
    decodeWord 0x00063A42 = some (.srl 6 7 9) ∧
    decodeWord 0x00063A43 = some (.sra 6 7 9) ∧
    decodeWord 0x00A63804 = some (.sllv 5 6 7) ∧
    decodeWord 0x00A63806 = some (.srlv 5 6 7) ∧
    decodeWord 0x00A63807 = some (.srav 5 6 7) ∧
    decodeWord 0x00A00008 = some (.jr 5) ∧
    decodeWord 0x00A03809 = some (.jalr 5 7) ∧
    decodeWord 0x00A6380A = some (.movz 5 6 7) ∧
    decodeWord 0x00A6380B = some (.movn 5 6 7) ∧
    decodeWord 0x00A63A4C = some (.syscall 0x298E9) ∧
    decodeWord 0x00A63A4D = some (.break_ 0x298E9) ∧
    decodeWord 0x0000024F = some (.sync 9) := by decide

theorem test_decode_special_b :
    decodeWord 0x00003810 = some (.mfhi 7) ∧
    decodeWord 0x00A00011 = some (.mthi 5) ∧
    decodeWord 0x00003812 = some (.mflo 7) ∧
    decodeWord 0x00A00013 = some (.mtlo 5) ∧
    decodeWord 0x00A60018 = some (.mult 5 6) ∧
    decodeWord 0x00A60019 = some (.multu 5 6) ∧
    decodeWord 0x00A6001A = some (.div 5 6) ∧
    decodeWord 0x00A6001B = some (.divu 5 6) ∧
    decodeWord 0x00A63820 = some (.add 5 6 7) ∧
    decodeWord 0x00A63821 = some (.addu 5 6 7) ∧
    decodeWord 0x00A63822 = some (.sub 5 6 7) ∧
    decodeWord 0x00A63823 = some (.subu 5 6 7) ∧
    decodeWord 0x00A63824 = some (.and 5 6 7) ∧
    decodeWord 0x00A63825 = some (.or 5 6 7) := by decide

theorem test_decode_special_c :
    decodeWord 0x00A63826 = some (.xor 5 6 7) ∧
    decodeWord 0x00A63827 = some (.nor 5 6 7) ∧
    decodeWord 0x00A6382A = some (.slt 5 6 7) ∧
    decodeWord 0x00A6382B = some (.sltu 5 6 7) ∧
    decodeWord 0x00A63A70 = some (.tge 5 6 7 9) ∧
    decodeWord 0x00A63A71 = some (.tgeu 5 6 7 9) ∧
    decodeWord 0x00A63A72 = some (.tlt 5 6 7 9) ∧
    decodeWord 0x00A63A73 = some (.tltu 5 6 7 9) ∧
    decodeWord 0x00A63A74 = some (.teq 5 6 7 9) ∧
    decodeWord 0x00A63A76 = some (.tne 5 6 7 9) := by decide

theorem test_decode_regimm_a :
    decodeWord 0x04A08123 = some (.bltz 5 0x8123) ∧
    decodeWord 0x04A18123 = some (.bgez 5 0x8123) ∧
    decodeWord 0x04A28123 = some (.bltzl 5 0x8123) ∧
    decodeWord 0x04A38123 = some (.bgezl 5 0x8123) ∧
    decodeWord 0x04A88123 = some (.tgei 5 0x8123) ∧
    decodeWord 0x04A98123 = some (.tgeiu 5 0x8123) ∧
    decodeWord 0x04AA8123 = some (.tlti 5 0x8123) ∧
    decodeWord 0x04AB8123 = some (.tltiu 5 0x8123) ∧
    decodeWord 0x04AC8123 = some (.teqi 5 0x8123) ∧
    decodeWord 0x04AE8123 = some (.tnei 5 0x8123) ∧
    decodeWord 0x04B08123 = some (.bltzal 5 0x8123) ∧
    decodeWord 0x04B18123 = some (.bgezal 5 0x8123) ∧
    decodeWord 0x04B28123 = some (.bltzall 5 0x8123) ∧
    decodeWord 0x04B38123 = some (.bgezall 5 0x8123) := by decide

theorem test_decode_regimm_b :
    decodeWord 0x04BF8123 = some (.synci 5 0x8123) := by decide

theorem test_decode_special2 :
    decodeWord 0x70A60000 = some (.madd 5 6) ∧
    decodeWord 0x70A60001 = some (.maddu 5 6) ∧
    decodeWord 0x70A63802 = some (.mul 5 6 7) ∧
    decodeWord 0x70A60004 = some (.msub 5 6) ∧
    decodeWord 0x70A60005 = some (.msubu 5 6) ∧
    decodeWord 0x70A73820 = some (.clz 5 7) ∧
    decodeWord 0x70A73821 = some (.clo 5 7) ∧
    decodeWord 0x70A63A7F = some (.sdbbp 0x298E9) := by decide

theorem test_decode_primary_a :
    decodeWord 0x0AABCDEF = some (.j 0x2ABCDEF) ∧
    decodeWord 0x0EABCDEF = some (.jal 0x2ABCDEF) ∧
    decodeWord 0x10A68123 = some (.beq 5 6 0x8123) ∧
    decodeWord 0x14A68123 = some (.bne 5 6 0x8123) ∧
    decodeWord 0x18A08123 = some (.blez 5 0x8123) ∧
    decodeWord 0x1CA08123 = some (.bgtz 5 0x8123) ∧
    decodeWord 0x20A68123 = some (.addi 5 6 0x8123) ∧
    decodeWord 0x24A68123 = some (.addiu 5 6 0x8123) ∧
    decodeWord 0x28A68123 = some (.slti 5 6 0x8123) ∧
    decodeWord 0x2CA68123 = some (.sltiu 5 6 0x8123) ∧
    decodeWord 0x30A68123 = some (.andi 5 6 0x8123) ∧
    decodeWord 0x34A68123 = some (.ori 5 6 0x8123) ∧
    decodeWord 0x38A68123 = some (.xori 5 6 0x8123) ∧
    decodeWord 0x3C068123 = some (.lui 6 0x8123) := by decide

theorem test_decode_primary_b :
    decodeWord 0x40A68123 = some (.cop0 5 6 0x8123) ∧
    decodeWord 0x44A68123 = some (.cop1 5 6 0x8123) ∧
    decodeWord 0x48A68123 = some (.cop2 5 6 0x8123) ∧
    decodeWord 0x4CA68123 = some (.cop1x 5 6 0x8123) ∧
    decodeWord 0x50A68123 = some (.beql 5 6 0x8123) ∧
    decodeWord 0x54A68123 = some (.bnel 5 6 0x8123) ∧
    decodeWord 0x58A08123 = some (.blezl 5 0x8123) ∧
    decodeWord 0x5CA08123 = some (.bgtzl 5 0x8123) ∧
    decodeWord 0x76ABCDEF = some (.jalx 0x2ABCDEF) ∧
    decodeWord 0x7CA68123 = some (.special3 5 6 0x8123) ∧
    decodeWord 0x80A68123 = some (.lb 5 6 0x8123) ∧
    decodeWord 0x84A68123 = some (.lh 5 6 0x8123) ∧
    decodeWord 0x88A68123 = some (.lwl 5 6 0x8123) ∧
    decodeWord 0x8CA68123 = some (.lw 5 6 0x8123) := by decide

theorem test_decode_primary_c :
    decodeWord 0x90A68123 = some (.lbu 5 6 0x8123) ∧
    decodeWord 0x94A68123 = some (.lhu 5 6 0x8123) ∧
    decodeWord 0x98A68123 = some (.lwr 5 6 0x8123) ∧
    decodeWord 0xA0A68123 = some (.sb 5 6 0x8123) ∧
    decodeWord 0xA4A68123 = some (.sh 5 6 0x8123) ∧
    decodeWord 0xA8A68123 = some (.swl 5 6 0x8123) ∧
    decodeWord 0xACA68123 = some (.sw 5 6 0x8123) ∧
    decodeWord 0xB8A68123 = some (.swr 5 6 0x8123) ∧
    decodeWord 0xBCA68123 = some (.cache 5 6 0x8123) ∧
    decodeWord 0xC0A68123 = some (.ll 5 6 0x8123) ∧
    decodeWord 0xC4A68123 = some (.lwc1 5 6 0x8123) ∧
    decodeWord 0xC8A68123 = some (.lwc2 5 6 0x8123) ∧
    decodeWord 0xCCA68123 = some (.pref 5 6 0x8123) ∧
    decodeWord 0xD4A68123 = some (.ldc1 5 6 0x8123) := by decide

theorem test_decode_primary_d :
    decodeWord 0xD8A68123 = some (.ldc2 5 6 0x8123) ∧
    decodeWord 0xE0A68123 = some (.sc 5 6 0x8123) ∧
    decodeWord 0xE4A68123 = some (.swc1 5 6 0x8123) ∧
    decodeWord 0xE8A68123 = some (.swc2 5 6 0x8123) ∧
    decodeWord 0xF4A68123 = some (.sdc1 5 6 0x8123) ∧
    decodeWord 0xF8A68123 = some (.sdc2 5 6 0x8123) := by decide

/-! Reserved words and verdicts (the vectors V30 of 95_test_vectors.md) -/

theorem test_reserved_words :
    ([0xFC000000, 0x00000005, 0x04040000, 0x70000003, 0x60000000] : List Word).all
      (fun w => decode vec w == .invalidOpcode) = true := by decide

theorem test_group_verdicts :
    decode vec 0x00000001 = .groupUnknown .cop ∧ decode vec 0x00220034 = .groupUnknown .trap ∧
    decode vec 0x7C000000 = .groupUnknown .r2 ∧ decode vec 0x74000000 = .groupUnknown .ase ∧
    decode Config.instanceAtReset 0x00000001 = .invalidOpcode ∧
    decode { vec with groupLikely := .unknown } 0x04730004 = .groupUnknown .likely ∧
    decode vec 0x04730004 = .op (describe 0x04730004 (.bgezall 3 4)) := by decide

theorem test_field_verdicts :
    decode vec 0x00200002 = .fieldsRefused ∧ decode vec 0x00011010 = .fieldsRefused ∧
    decode vec 0x03E00808 = .fieldsRefused ∧ decode vec 0x70831020 = .fieldsRefused ∧
    decode { vec with strictFields := .ignore } 0x00200002 = .op (describe 0x00200002 (.srl 0 0 0)) ∧
    decode { vec with strictFields := .invalid } 0x00200002 = .invalidOpcode := by decide

/-- 30_encoding.md R163: the operation of `add $2, $4, $5` carries the fields its row does not use, and the word. -/
theorem test_operation_fields :
    decode vec 0x00851020 = .op ⟨.add 4 5 2, 4, 5, 2, 0, 0x20, 0x1020, 0x0851020, 0x00851020⟩ := by decide

theorem test_decode_table_word :
    decodeTableWord 32 0x8FE27FFC = some (.lw 31 2 0x7FFC) ∧ decodeTableWord 32 0xFC000000 = none := by decide

theorem test_decode_bytes_short : decodeBytes [0x00, 0x85, 0x10] = .error .tooShort := by decide

/-! Ill-formed parameter sets, one for each check of WellFormed.lean -/

theorem test_instance_wf : Config.instanceAtReset.wf = true ∧ vec.wf = true := by decide

theorem test_wf_aligned : ({ vec with oracleTrigger := 0x30000012 } : Config).wfAligned = false := by decide

theorem test_wf_no_wrap :
    ({ vec with regBase := 0xFFFFFF78 } : Config).wfNoWrap = false ∧
    ({ vec with regBase := 0xFFFFFF74 } : Config).wfNoWrap = true := by decide

theorem test_wf_key_words : ({ vec with oracleKeyWords := 0 } : Config).wfKeyWords = false := by decide

theorem test_wf_disjoint :
    ({ vec with oracleWinBase := 0x30000000 } : Config).wfDisjoint = false ∧
    ({ vec with oracleWinBase := 0xC0000088 } : Config).wfDisjoint = false ∧
    ({ vec with oracleWinBase := 0xC000008C } : Config).wfDisjoint = true := by decide

theorem test_wf_trigger :
    ({ vec with oracleTrigger := 0x30000000 } : Config).wfTrigger = false ∧
    ({ vec with oracleTrigger := 0x30000024 } : Config).wfTrigger = true := by decide

theorem test_wf_halt : ({ vec with resultA := 0xC0000000 } : Config).wfHalt = false := by decide

theorem test_wf_refuses : ({ vec with haltSentinel := 0x30000010 } : Config).wf = false := by decide

theorem test_instr_wf :
    Instr.wf vec (.lwl 1 2 3) = true ∧ Instr.wf { vec with groupUnaligned := .unknown } (.lwl 1 2 3) = false ∧
    Instr.wf vec (.syscall 0) = false := by decide

/-! Memory -/

theorem test_memory_big_endian :
    Memory.setMword [] 0x10000 0x8899AABB =
      [(0x10000, 0x88), (0x10001, 0x99), (0x10002, 0xAA), (0x10003, 0xBB)] := by decide

theorem test_memory_canonical :
    Memory.writeByte [(1, 5), (3, 7)] 3 0 = [(1, 5)] ∧ Memory.writeByte [(1, 5), (3, 7)] 2 9 = [(1, 5), (2, 9), (3, 7)] ∧
    Memory.wf [(1, 5), (1, 6)] = false ∧ Memory.wf [(1, 0)] = false ∧ Memory.wf State.reset.mem = true := by decide

/-! One step of each instruction, from 95_test_vectors.md -/

/-- V41.1 `add $2, $4, $5` -/
theorem test_add_v41_1 :
    gives (at1 0x00851020 [(4, 5), (5, 0xFFFFFFFF)] []) 0x1004 0x1008 [(2, 4)] [] = true := by decide

/-- V41.4 `add $0, $4, $5` -/
theorem test_add_v41_4 :
    fails (at1 0x00850020 [(4, 0x7FFFFFFF), (5, 1)] []) 1 (.arithmeticOverflow 0x1000) = true := by decide

/-- V41.6 `addu $2, $4, $5` -/
theorem test_addu_v41_6 :
    gives (at1 0x00851021 [(4, 0xFFFFFFFF), (5, 2)] []) 0x1004 0x1008 [(2, 1)] [] = true := by decide

/-- V41.7 `sub $2, $4, $5` -/
theorem test_sub_v41_7 :
    gives (at1 0x00851022 [(4, 3), (5, 5)] []) 0x1004 0x1008 [(2, 0xFFFFFFFE)] [] = true := by decide

/-- V41.9 `sub $2, $4, $5` -/
theorem test_sub_v41_9 :
    fails (at1 0x00851022 [(4, 0), (5, 0x80000000)] []) 1 (.arithmeticOverflow 0x1000) = true := by decide

/-- V41.10 `subu $2, $4, $5` -/
theorem test_subu_v41_10 :
    gives (at1 0x00851023 [(4, 0), (5, 1)] []) 0x1004 0x1008 [(2, 0xFFFFFFFF)] [] = true := by decide

/-- V41.11 `addi $2, $4, -1` -/
theorem test_addi_v41_11 :
    fails (at1 0x2082FFFF [(4, 0x80000000)] []) 1 (.arithmeticOverflow 0x1000) = true := by decide

/-- V41.12 `addi $2, $4, 0x7FFF` -/
theorem test_addi_v41_12 :
    gives (at1 0x20827FFF [(4, 1)] []) 0x1004 0x1008 [(2, 0x8000)] [] = true := by decide

/-- V41.14 `addiu $2, $4, -32768` -/
theorem test_addiu_v41_14 :
    gives (at1 0x24828000 [(4, 0x80000000)] []) 0x1004 0x1008 [(2, 0x7FFF8000)] [] = true := by decide

/-- V41.15 `slt $2, $4, $5` -/
theorem test_slt_v41_15 :
    gives (at1 0x0085102A [(4, 0xFFFFFFFF), (5, 1)] []) 0x1004 0x1008 [(2, 1)] [] = true := by decide

/-- V41.16 `sltu $2, $4, $5` -/
theorem test_sltu_v41_16 :
    gives (at1 0x0085102B [(4, 0xFFFFFFFF), (5, 1)] []) 0x1004 0x1008 [(2, 0)] [] = true := by decide

/-- V41.18 `slti $2, $4, -1` -/
theorem test_slti_v41_18 :
    gives (at1 0x2882FFFF [(4, 0x80000000)] []) 0x1004 0x1008 [(2, 1)] [] = true := by decide

/-- V41.19 `sltiu $2, $4, -1` -/
theorem test_sltiu_v41_19 :
    gives (at1 0x2C82FFFF [(4, 0xFFFFFFFE)] []) 0x1004 0x1008 [(2, 1)] [] = true := by decide

/-- V41.21 `and $2, $4, $5` -/
theorem test_and_v41_21 :
    gives (at1 0x00851024 [(4, 0xF0F0F0F0), (5, 0xFF00FF00)] [])
      0x1004 0x1008 [(2, 0xF000F000)] [] = true := by decide

/-- V41.22 `or $2, $4, $5` -/
theorem test_or_v41_22 :
    gives (at1 0x00851025 [(4, 0xF0F0F0F0), (5, 0xFF00FF00)] [])
      0x1004 0x1008 [(2, 0xFFF0FFF0)] [] = true := by decide

/-- V41.23 `xor $2, $4, $5` -/
theorem test_xor_v41_23 :
    gives (at1 0x00851026 [(4, 0xF0F0F0F0), (5, 0xFF00FF00)] []) 0x1004 0x1008 [(2, 0xFF00FF0)] [] = true := by decide

/-- V41.24 `nor $2, $4, $5` -/
theorem test_nor_v41_24 :
    gives (at1 0x00851027 [(4, 0xF0F0F0F0), (5, 0xFF00FF00)] []) 0x1004 0x1008 [(2, 0xF000F)] [] = true := by decide

/-- V41.26 `andi $2, $4, 0xFFFF` -/
theorem test_andi_v41_26 :
    gives (at1 0x3082FFFF [(4, 0xFFFFFFFF)] []) 0x1004 0x1008 [(2, 0xFFFF)] [] = true := by decide

/-- V41.27 `ori $2, $4, 0x8001` -/
theorem test_ori_v41_27 :
    gives (at1 0x34828001 [(4, 0x12340000)] []) 0x1004 0x1008 [(2, 0x12348001)] [] = true := by decide

/-- V41.28 `xori $2, $4, 0xFFFF` -/
theorem test_xori_v41_28 :
    gives (at1 0x3882FFFF [(4, 0xFFFFFFFF)] []) 0x1004 0x1008 [(2, 0xFFFF0000)] [] = true := by decide

/-- V41.29 `lui $2, 0x8001` -/
theorem test_lui_v41_29 :
    gives (at1 0x3C028001 [] []) 0x1004 0x1008 [(2, 0x80010000)] [] = true := by decide

/-- V41.30 `sll $2, $5, 31` -/
theorem test_sll_v41_30 :
    gives (at1 0x000517C0 [(5, 3)] []) 0x1004 0x1008 [(2, 0x80000000)] [] = true := by decide

/-- V41.31 `srl $2, $5, 31` -/
theorem test_srl_v41_31 :
    gives (at1 0x000517C2 [(5, 0x80000000)] []) 0x1004 0x1008 [(2, 1)] [] = true := by decide

/-- V41.33 `sra $2, $5, 4` -/
theorem test_sra_v41_33 :
    gives (at1 0x00051103 [(5, 0x7FFFFFF0)] []) 0x1004 0x1008 [(2, 0x7FFFFFF)] [] = true := by decide

/-- V41.35 `sllv $2, $5, $4` -/
theorem test_sllv_v41_35 :
    gives (at1 0x00851004 [(4, 0x21), (5, 1)] []) 0x1004 0x1008 [(2, 2)] [] = true := by decide

/-- V41.36 `srlv $2, $5, $4` -/
theorem test_srlv_v41_36 :
    gives (at1 0x00851006 [(4, 0xFFFFFFFC), (5, 0xFFFFFFFF)] []) 0x1004 0x1008 [(2, 0xF)] [] = true := by decide

/-- V41.37 `srav $2, $5, $4` -/
theorem test_srav_v41_37 :
    gives (at1 0x00851007 [(4, 4), (5, 0x80000010)] []) 0x1004 0x1008 [(2, 0xF8000001)] [] = true := by decide

/-- V41.38 `movz $2, $4, $5` -/
theorem test_movz_v41_38 :
    gives (at1 0x0085100A [(2, 7), (4, 9), (5, 0)] []) 0x1004 0x1008 [(2, 9)] [] = true := by decide

/-- V41.39 `movz $2, $4, $5` -/
theorem test_movz_v41_39 :
    gives (at1 0x0085100A [(2, 7), (4, 9), (5, 1)] []) 0x1004 0x1008 [] [] = true := by decide

/-- V41.40 `movn $2, $4, $5` -/
theorem test_movn_v41_40 :
    gives (at1 0x0085100B [(2, 7), (4, 9), (5, 1)] []) 0x1004 0x1008 [(2, 9)] [] = true := by decide

/-- V41.42 `clz $2, $4` -/
theorem test_clz_v41_42 :
    gives (at1 0x70821020 [(4, 1)] []) 0x1004 0x1008 [(2, 0x1F)] [] = true := by decide

/-- V41.45 `clo $2, $4` -/
theorem test_clo_v41_45 :
    gives (at1 0x70821021 [(4, 0xFFFF0000)] []) 0x1004 0x1008 [(2, 0x10)] [] = true := by decide

/-- V42.3 `mult $4, $5` -/
theorem test_mult_v42_3 :
    gives (at1 0x00850018 [(4, 0xFFFFFFFF), (5, 2)] [])
      0x1004 0x1008 [] [(hiAt, 0xFFFFFFFF), (loAt, 0xFFFFFFFE)] = true := by decide

/-- V42.4 `multu $4, $5` -/
theorem test_multu_v42_4 :
    gives (at1 0x00850019 [(4, 0xFFFFFFFF), (5, 0xFFFFFFFF)] [])
      0x1004 0x1008 [] [(hiAt, 0xFFFFFFFE), (loAt, 1)] = true := by decide

/-- V42.6 `div $4, $5` -/
theorem test_div_v42_6 :
    gives (at1 0x0085001A [(4, 7), (5, 0xFFFFFFFE)] [])
      0x1004 0x1008 [] [(hiAt, 1), (loAt, 0xFFFFFFFD)] = true := by decide

/-- V42.7 `div $4, $5` -/
theorem test_div_v42_7 :
    gives (at1 0x0085001A [(4, 0xFFFFFFF9), (5, 2)] [])
      0x1004 0x1008 [] [(hiAt, 0xFFFFFFFF), (loAt, 0xFFFFFFFD)] = true := by decide

/-- V42.13 `divu $4, $5` -/
theorem test_divu_v42_13 :
    gives (at1 0x0085001B [(4, 0x80000000), (5, 0xFFFFFFFF)] [])
      0x1004 0x1008 [] [(hiAt, 0x80000000), (loAt, 0)] = true := by decide

/-- V42.15 `mfhi $2` -/
theorem test_mfhi_v42_15 :
    gives (at1 0x00001010 [] [(hiAt, 0xAAAA5555), (loAt, 1)])
      0x1004 0x1008 [(2, 0xAAAA5555)] [(hiAt, 0xAAAA5555), (loAt, 1)] = true := by decide

/-- V42.16 `mflo $2` -/
theorem test_mflo_v42_16 :
    gives (at1 0x00001012 [] [(hiAt, 1), (loAt, 0x5555AAAA)])
      0x1004 0x1008 [(2, 0x5555AAAA)] [(hiAt, 1), (loAt, 0x5555AAAA)] = true := by decide

/-- V42.17 `mthi $4` -/
theorem test_mthi_v42_17 :
    gives (at1 0x00800011 [(4, 0xBADF00D)] [(hiAt, 1), (loAt, 2)])
      0x1004 0x1008 [] [(hiAt, 0xBADF00D), (loAt, 2)] = true := by decide

/-- V42.18 `mtlo $4` -/
theorem test_mtlo_v42_18 :
    gives (at1 0x00800013 [(4, 0xBADF00D)] [(hiAt, 1), (loAt, 2)])
      0x1004 0x1008 [] [(hiAt, 1), (loAt, 0xBADF00D)] = true := by decide

/-- V42.20 `madd $4, $5` -/
theorem test_madd_v42_20 :
    gives (at1 0x70850000 [(4, 2), (5, 3)] [(hiAt, 0), (loAt, 0xFFFFFFFF)])
      0x1004 0x1008 [] [(hiAt, 1), (loAt, 5)] = true := by decide

/-- V42.21 `madd $4, $5` -/
theorem test_madd_v42_21 :
    gives (at1 0x70850000 [(4, 0xFFFFFFFF), (5, 1)] [(hiAt, 0), (loAt, 0)])
      0x1004 0x1008 [] [(hiAt, 0xFFFFFFFF), (loAt, 0xFFFFFFFF)] = true := by decide

/-- V42.22 `maddu $4, $5` -/
theorem test_maddu_v42_22 :
    gives (at1 0x70850001 [(4, 0xFFFFFFFF), (5, 0xFFFFFFFF)] [(hiAt, 0xFFFFFFFF), (loAt, 0xFFFFFFFF)])
      0x1004 0x1008 [] [(hiAt, 0xFFFFFFFE), (loAt, 0)] = true := by decide

/-- V42.23 `msub $4, $5` -/
theorem test_msub_v42_23 :
    gives (at1 0x70850004 [(4, 1), (5, 1)] [(hiAt, 0), (loAt, 0)])
      0x1004 0x1008 [] [(hiAt, 0xFFFFFFFF), (loAt, 0xFFFFFFFF)] = true := by decide

/-- V42.24 `msubu $4, $5` -/
theorem test_msubu_v42_24 :
    gives (at1 0x70850005 [(4, 2), (5, 3)] [(hiAt, 1), (loAt, 0)])
      0x1004 0x1008 [] [(hiAt, 0), (loAt, 0xFFFFFFFA)] = true := by decide

/-- V43.1 `beq $4, $5, +4` -/
theorem test_beq_v43_1 :
    gives (at1 0x10850004 [(4, 3), (5, 3)] []) 0x1004 0x1014 [] [] = true := by decide

/-- V43.2 `beq $4, $5, +4` -/
theorem test_beq_v43_2 :
    gives (at1 0x10850004 [(4, 3), (5, 4)] []) 0x1004 0x1008 [] [] = true := by decide

/-- V43.4 `bne $4, $5, +4` -/
theorem test_bne_v43_4 :
    gives (at1 0x14850004 [(4, 3), (5, 4)] []) 0x1004 0x1014 [] [] = true := by decide

/-- V43.6 `blez $4, +4` -/
theorem test_blez_v43_6 :
    gives (at1 0x18800004 [(4, 1)] []) 0x1004 0x1008 [] [] = true := by decide

/-- V43.8 `bgtz $4, +4` -/
theorem test_bgtz_v43_8 :
    gives (at1 0x1C800004 [(4, 0x80000000)] []) 0x1004 0x1008 [] [] = true := by decide

/-- V43.9 `bltz $4, +4` -/
theorem test_bltz_v43_9 :
    gives (at1 0x04800004 [(4, 0x80000000)] []) 0x1004 0x1014 [] [] = true := by decide

/-- V43.10 `bgez $4, +4` -/
theorem test_bgez_v43_10 :
    gives (at1 0x04810004 [(4, 0)] []) 0x1004 0x1014 [] [] = true := by decide

/-- V43.11 `bltzal $4, +4` -/
theorem test_bltzal_v43_11 :
    gives (at1 0x04900004 [(4, 1)] []) 0x1004 0x1008 [(31, 0x1008)] [] = true := by decide

/-- V43.12 `bgezal $31, +4` -/
theorem test_bgezal_v43_12 :
    gives (at1 0x07F10004 [(31, 5)] []) 0x1004 0x1014 [(31, 0x1008)] [] = true := by decide

/-- V43.15 `j 0x00000010` -/
theorem test_j_v43_15 :
    gives (atPc 0xFFFFFFC 0x08000004 [] []) 0x10000000 0x10000010 [] [] = true := by decide

/-- V43.16 `jal 0x00002000` -/
theorem test_jal_v43_16 :
    gives (at1 0x0C000800 [] []) 0x1004 0x2000 [(31, 0x1008)] [] = true := by decide

/-- V43.18 `jr $4` -/
theorem test_jr_v43_18 :
    gives (at1 0x00800008 [(4, 0x2002)] []) 0x1004 0x2002 [] [] = true := by decide

/-- V43.20 `jalr $4, $4` -/
theorem test_jalr_v43_20 :
    gives (at1 0x00802009 [(4, 0x3000)] []) 0x1004 0x3000 [(4, 0x1008)] [] = true := by decide

/-- V43.22 `beql $4, $5, +4` -/
theorem test_beql_v43_22 :
    gives (at1 0x50850004 [(4, 1), (5, 2)] []) 0x1008 0x100C [] [] = true := by decide

/-- V43.23 `bnel $4, $5, +4` -/
theorem test_bnel_v43_23 :
    gives (at1 0x54850004 [(4, 1), (5, 1)] []) 0x1008 0x100C [] [] = true := by decide

/-- V43.24 `blezl $4, +4` -/
theorem test_blezl_v43_24 :
    gives (at1 0x58800004 [(4, 0xFFFFFFFF)] []) 0x1004 0x1014 [] [] = true := by decide

/-- V43.25 `bgtzl $4, +4` -/
theorem test_bgtzl_v43_25 :
    gives (at1 0x5C800004 [(4, 0)] []) 0x1008 0x100C [] [] = true := by decide

/-- V43.26 `bltzl $4, +4` -/
theorem test_bltzl_v43_26 :
    gives (at1 0x04820004 [(4, 0)] []) 0x1008 0x100C [] [] = true := by decide

/-- V43.27 `bgezl $4, +4` -/
theorem test_bgezl_v43_27 :
    gives (at1 0x04830004 [(4, 0)] []) 0x1004 0x1014 [] [] = true := by decide

/-- V43.28 `bltzall $4, +4` -/
theorem test_bltzall_v43_28 :
    gives (at1 0x04920004 [(4, 0)] []) 0x1008 0x100C [(31, 0x1008)] [] = true := by decide

/-- V43.29 `bgezall $4, +4` -/
theorem test_bgezall_v43_29 :
    gives (at1 0x04930004 [(4, 0)] []) 0x1004 0x1014 [(31, 0x1008)] [] = true := by decide

/-- V44.2 `lb $2, 3($4)` -/
theorem test_lb_v44_2 :
    gives (at1 0x80820003 [(4, 0x10000)] [(0x10000, 0x8899AABB)])
      0x1004 0x1008 [(2, 0xFFFFFFBB)] [(0x10000, 0x8899AABB)] = true := by decide

/-- V44.3 `lbu $2, 0($4)` -/
theorem test_lbu_v44_3 :
    gives (at1 0x90820000 [(4, 0x10000)] [(0x10000, 0x8899AABB)])
      0x1004 0x1008 [(2, 0x88)] [(0x10000, 0x8899AABB)] = true := by decide

/-- V44.4 `lh $2, 0($4)` -/
theorem test_lh_v44_4 :
    gives (at1 0x84820000 [(4, 0x10000)] [(0x10000, 0x8899AABB)])
      0x1004 0x1008 [(2, 0xFFFF8899)] [(0x10000, 0x8899AABB)] = true := by decide

/-- V44.5 `lhu $2, 0($4)` -/
theorem test_lhu_v44_5 :
    gives (at1 0x94820000 [(4, 0x10000)] [(0x10000, 0x8899AABB)])
      0x1004 0x1008 [(2, 0x8899)] [(0x10000, 0x8899AABB)] = true := by decide

/-- V44.7 `lw $2, -4($4)` -/
theorem test_lw_v44_7 :
    gives (at1 0x8C82FFFC [(4, 0x10004)] [(0x10000, 0x8899AABB)])
      0x1004 0x1008 [(2, 0x8899AABB)] [(0x10000, 0x8899AABB)] = true := by decide

/-- V44.14 `sb $2, 1($4)` -/
theorem test_sb_v44_14 :
    gives (at1 0xA0820001 [(2, 0x123456A5), (4, 0x10000)] [(0x10000, 0x8899AABB)])
      0x1004 0x1008 [] [(0x10000, 0x88A5AABB)] = true := by decide

/-- V44.18 `sh $2, 3($4)` -/
theorem test_sh_v44_18 :
    gives (under { vec with halfOdd := .bytes } <| at1 0xA4820003 [(2, 0x1234CAFE), (4, 0x10000)] [(0x10000, 0x8899AABB), (0x10004, 0xCCDDEEFF)])
      0x1004 0x1008 [] [(0x10000, 0x8899AACA), (0x10004, 0xFEDDEEFF)] = true := by decide

/-- V44.17 `sh $2, 0($4)` -/
theorem test_sh_v44_17 :
    gives (at1 0xA4820000 [(2, 0x1234CAFE), (4, 0x10000)] [(0x10000, 0x8899AABB)])
      0x1004 0x1008 [] [(0x10000, 0xCAFEAABB)] = true := by decide

/-- V44.19 `sw $2, 4($4)` -/
theorem test_sw_v44_19 :
    gives (at1 0xAC820004 [(2, 0x1020304), (4, 0x10000)] [(0x10000, 0x8899AABB)])
      0x1004 0x1008 [] [(0x10000, 0x8899AABB), (0x10004, 0x1020304)] = true := by decide

/-- V44.12 `lh $2, 3($4)` -/
theorem test_lh_v44_12 :
    gives (under { vec with halfOdd := .bytes } <| at1 0x84820003 [(4, 0x10000)] [(0x10000, 0x8899AABB), (0x10004, 0xCCDDEEFF)])
      0x1004 0x1008 [(2, 0xFFFFBBCC)] [(0x10000, 0x8899AABB), (0x10004, 0xCCDDEEFF)] = true := by decide

/-- V44.20 `lwl $2, 1($4)` -/
theorem test_lwl_v44_20 :
    gives (at1 0x88820001 [(2, 0x11223344), (4, 0x10000)] [(0x10000, 0x8899AABB)])
      0x1004 0x1008 [(2, 0x99AABB44)] [(0x10000, 0x8899AABB)] = true := by decide

/-- V44.21 `lwr $2, 1($4)` -/
theorem test_lwr_v44_21 :
    gives (at1 0x98820001 [(2, 0x11223344), (4, 0x10000)] [(0x10000, 0x8899AABB)])
      0x1004 0x1008 [(2, 0x11228899)] [(0x10000, 0x8899AABB)] = true := by decide

/-- V44.24 `swl $2, 2($4)` -/
theorem test_swl_v44_24 :
    gives (at1 0xA8820002 [(2, 0x11223344), (4, 0x10000)] [(0x10000, 0x8899AABB)])
      0x1004 0x1008 [] [(0x10000, 0x88991122)] = true := by decide

/-- V44.25 `swr $2, 2($4)` -/
theorem test_swr_v44_25 :
    gives (at1 0xB8820002 [(2, 0x11223344), (4, 0x10000)] [(0x10000, 0x8899AABB)])
      0x1004 0x1008 [] [(0x10000, 0x223344BB)] = true := by decide

/-- V44.26 `ll $2, 0($4)` -/
theorem test_ll_v44_26 :
    gives (at1 0xC0820000 [(4, 0x10000)] [(0x10000, 0x8899AABB)])
      0x1004 0x1008 [(2, 0x8899AABB)] [(0x10000, 0x8899AABB)] = true := by decide

/-- V44.27 `sc $2, 0($4)` -/
theorem test_sc_v44_27 :
    gives (linked <| at1 0xE0820000 [(2, 0x77), (4, 0x10000)] [(0x10000, 0x8899AABB)])
      0x1004 0x1008 [(2, 1)] [(0x10000, 0x77)] = true := by decide

/-- V44.32 `sw $2, 20($4)` -/
theorem test_sw_v44_32 :
    gives (under { vec with regfileData := .aliased } <| at1 0xAC820014 [(2, 0x99), (4, 0xC0000000)] [])
      0x1004 0x1008 [(5, 0x99)] [] = true := by decide

/-- V44.34 `lw $2, 0($4)` -/
theorem test_lw_v44_34 :
    gives (at1 0x8C820000 [(4, 0x30000010)] [(0x30000000, 0x2A)])
      0x1004 0x1008 [(2, 0)] [(0x30000000, 0x2A), (0x30000020, 2), (0x30000024, 0xABCD0000)] = true := by decide

/-- V44.38 `lb $2, 0($4)` -/
theorem test_lb_v44_38 :
    refuses (at1 0x80820000 [(4, 0x30000010)] [(0x30000000, 0x2A)]) .oracleAccess = true := by decide

/-- V45.1 `syscall` -/
theorem test_syscall_v45_1 :
    refuses (at1 0x0000000C [] []) (.groupUnknown .syscall) = true := by decide

/-- V45.2 `syscall` -/
theorem test_syscall_v45_2 :
    fails (under { vec with groupSyscall := .invalid } <| at1 0x0000000C [] [])
      0 (.invalidOpcode 0xC) = true := by decide

/-- V45.5 `sync` -/
theorem test_sync_v45_5 :
    gives (at1 0x0000000F [] []) 0x1004 0x1008 [] [] = true := by decide

/-- V45.8 `eret` -/
theorem test_eret_v45_8 :
    fails (under { vec with groupCop := .invalid } <| at1 0x42000018 [] [])
      0 (.invalidOpcode 0x42000018) = true := by decide

/-! Steps and free values -/

/-- V40.4: decode comes before the gas charge. -/
theorem test_reserved_before_gas :
    fails { at1 0xFC000000 [] [] with gas := 0 } 0 (.invalidOpcode 0xFC000000) = true := by decide

/-- E8.1 and 40_step_cycle.md R205: a cost above the gas, and one equal to it. -/
theorem test_gas_boundary :
    fails { at1 0x24080001 [] [] with gas := 0 } 0 .outOfGas = true ∧
    (outState (step { at1 0x24080001 [] [] with gas := 1 })).gas = 0 := by decide

/-- V43.30: a control transfer in a delay slot. -/
theorem test_ct_in_delay_slot : refuses { at1 0x10000004 [] [] with ds := true } .ctInDs = true := by decide

/-- V40.5: a fetch at a misaligned pc. -/
theorem test_misaligned_fetch : fails (atPc 0x1002 0 [] []) 0 (.unalignedAccess 0x1002) = true := by decide

/-- V42.19, whatever HI and LO take: the low word of the product. -/
theorem test_mul_v42_19 :
    ∃ t, exec (.mul 4 5 2) (at1 0 [(4, 0x10000), (5, 0x10001)] []) = .next t ∧ t.getReg 2 = 0x10000 := by
  refine ⟨_, rfl, ?_⟩
  rw [commit_getReg, State.getReg_setHiLo, State.getReg_setReg]
  decide

/-- V42.14, whatever HI and LO take: a division by zero goes on. -/
theorem test_divu_by_zero :
    ∃ t, exec (.divu 4 5) (at1 0 [(4, 9)] []) = .next t ∧ t.getReg 4 = 9 ∧ t.getPC = 0x1004 := by
  refine ⟨_, rfl, ?_, ?_⟩
  · rw [commit_getReg, State.getReg_setHiLo]
    decide
  · rw [commit_getPC]
    decide

/-- The two halt outcomes: the sentinel word against the pending value (40_step_cycle.md R212). -/
theorem test_halt_check :
    (outState (step (at1 0 [] [(0xBFFFFFF0, 1)]))).status = .halted ∧
    (outState (step (at1 0 [] []))).status = .running := by decide

/-! Witnesses: a state and operands that meet the hypotheses of each statement, at its boundary values -/

theorem witness_MixedWidthViews :
    StoresPlain vec 0x10000 ∧ (0x10000 : Word).toNat % 4 = 0 ∧ StoresPlain vec 0x30000003 ∧
    StoresPlain vec 0xBFFFFFFF := ⟨.inr (by decide), by decide, .inl (by decide), .inr (by decide)⟩

theorem witness_RegisterFileView : (1 : RegNum) ≠ 0 ∧ (31 : RegNum) ≠ 0 := by decide

theorem witness_EncodeDecode :
    Instr.wf vec (.sll 31 31 31) = true ∧ Instr.wf vec (.bgezall 31 0xFFFF) = true ∧ Instr.wf vec (.jal 0x3FFFFFF) = true := by
  decide

theorem witness_FieldChecks :
    (decodeWord 0x00851020 = some (.add 4 5 2) ∧ vec.presence (Instr.add 4 5 2).group = .implemented ∧
      encode (.add 4 5 2) = 0x00851020) ∧
    (decodeWord 0x00200002 = some (.srl 0 0 0) ∧ vec.presence (Instr.srl 0 0 0).group = .implemented ∧
      encode (.srl 0 0 0) ≠ 0x00200002) ∧
    ({ vec with strictFields := .ignore } : Config).strictFields = .ignore ∧
    ({ vec with strictFields := .invalid } : Config).strictFields = .invalid ∧ vec.strictFields = .refuse := by decide

/-- Reserved words at the ends of the ranges, and their neighbours. -/
theorem witness_ReservedEncodings :
    ([0x60000000, 0x6C000000, 0xFC000000, 0x00000014, 0x0000001F, 0x00000037, 0x0000003F, 0x04040000, 0x04070000,
      0x04140000, 0x041E0000, 0x70000003, 0x70000006, 0x7000001F, 0x70000022, 0x7000003E] : List Word).all
      (fun w => decodeWord w == none) = true ∧
    ([0x5C000000, 0xF8000000, 0x00000013, 0x00000020, 0x00000036, 0x04030000, 0x04080000, 0x04130000, 0x041F0000,
      0x70000005, 0x70000020, 0x70000021, 0x7000003F] : List Word).all
      (fun w => decodeWord w != none) = true := by decide

theorem witness_GroupVerdicts :
    (decodeWord 0xC0820000 = some (.ll 4 2 0) ∧ vec.presence .llsc = .implemented ∧ fieldsOK 0xC0820000 .ll = true) ∧
    ({ vec with groupLlsc := .invalid } : Config).presence .llsc = .invalid ∧
    ({ vec with groupLlsc := .unknown } : Config).presence .llsc = .unknown ∧
    (decodeWord 0 = some (.sll 0 0 0) ∧ (Instr.sll 0 0 0).group = .core) ∧
    (decodeWord 0x0000000C = some (.syscall 0) ∧ (Instr.syscall 0).group = .syscall) := by decide

/-- The rows: a word of each encoding that a RowIs names. -/
theorem witness_RowIs :
    (0x70850002 : Word) &&& 0xFC00003F = 0x70000002 ∧ (0x8C820004 : Word) &&& 0xFC000000 = 0x8C000000 ∧
    (0x04910003 : Word) &&& 0xFC1F0000 = 0x04110000 ∧
    (0x03FFFFCC : Word) &&& 0xFC00003F = 0x0000000C ∧ (0x07FF0001 : Word) &&& 0xFC1F0000 = 0x041F0000 ∧
    (0x77FFFFFF : Word) &&& 0xFC000000 = 0x74000000 := by decide

theorem fetches_at1 : Fetches (at1 0x24080001 [] []) 0x24080001 :=
  ⟨⟨rfl, rfl, by decide⟩, by decide, by decide⟩

theorem witness_StepRunsDecoded :
    Fetches (at1 0x24080001 [] []) 0x24080001 ∧ decode vec 0x24080001 = .op (describe 0x24080001 (.addiu 0 8 1)) ∧
    ¬ CtRefused (.addiu 0 8 1) (at1 0x24080001 [] []) ∧
    vec.gasCost (Instr.addiu 0 8 1).mnemonic ≤ (at1 0x24080001 [] []).gas :=
  ⟨fetches_at1, by decide, fun h => absurd h.1 (by decide), by decide⟩

theorem witness_BudgetCheck :
    ({ vecInputs with maxSteps := 0 } : RunInputs).maxSteps = 0 ∧
    (let s : State := { at1 0 [] [] with steps := 100 }
     s.status = .running ∧ s.refused = none ∧ s.steps = s.inputs.maxSteps) ∧
    ∃ t, (at1 0 [] []).steps ≤ (at1 0 [] []).inputs.maxSteps ∧ step (at1 0 [] []) = .next t :=
  ⟨by decide, by decide, _, by decide, next_of (by decide)⟩

theorem witness_DecodeFailures :
    (Fetches (at1 0xFC000000 [] []) 0xFC000000 ∧ decode vec 0xFC000000 = .invalidOpcode) ∧
    (Fetches (at1 0x0000000C [] []) 0x0000000C ∧ decode vec 0x0000000C = .groupUnknown .syscall) ∧
    (Fetches (at1 0x00200002 [] []) 0x00200002 ∧ decode vec 0x00200002 = .fieldsRefused) :=
  ⟨⟨⟨⟨rfl, rfl, by decide⟩, by decide, by decide⟩, by decide⟩,
   ⟨⟨⟨rfl, rfl, by decide⟩, by decide, by decide⟩, by decide⟩,
   ⟨⟨⟨rfl, rfl, by decide⟩, by decide, by decide⟩, by decide⟩⟩

/-- A state in a delay slot, with some gas. -/
def inSlot (w : Word) (c : CtInDs) (gas : Nat) : State :=
  under { vec with ctInDs := c } { at1 w [] [] with ds := true, gas := gas }

theorem witness_CtInDelaySlot :
    (∀ c ∈ [CtInDs.refuse, .pair], ∀ g ∈ [0, 1], (inSlot 0x10000004 c g).ds = true ∧
      (inSlot 0x10000004 c g).getPC.toNat % 4 = 0 ∧
      (inSlot 0x10000004 c g).mword (inSlot 0x10000004 c g).getPC = 0x10000004) ∧
    Live (inSlot 0x10000004 .refuse 1) ∧ Live (inSlot 0x10000004 .pair 0) ∧ Live (inSlot 0 .refuse 1) ∧
    decode vec 0x10000004 = .op (describe 0x10000004 (.beq 0 0 4)) ∧ (Instr.beq 0 0 4).isCT = true ∧
    decode vec 0 = .op (describe 0 (.sll 0 0 0)) ∧ (Instr.sll 0 0 0).isCT = false ∧
    (inSlot 0x10000004 .pair 0).gas < vec.gasCost .beq ∧ vec.gasCost .beq ≤ (inSlot 0x10000004 .pair 1).gas :=
  ⟨by decide, ⟨rfl, rfl, by decide⟩, ⟨rfl, rfl, by decide⟩, ⟨rfl, rfl, by decide⟩, by decide⟩

theorem witness_GasCharge :
    (∀ g : Nat, Fetches { at1 0x24080001 [] [] with gas := g } 0x24080001) ∧
    decode vec 0x24080001 = .op (describe 0x24080001 (.addiu 0 8 1)) ∧
    (∀ g : Nat, ¬ CtRefused (.addiu 0 8 1) { at1 0x24080001 [] [] with gas := g }) ∧
    0 < vec.gasCost .addiu ∧ vec.gasCost .addiu ≤ 1 ∧
    ∃ t, step { at1 0x24080001 [] [] with gas := 1 } = .next t :=
  ⟨fun _ => ⟨⟨rfl, rfl, fetches_at1.budget⟩, fetches_at1.aligned, fetches_at1.word⟩, by decide,
   fun _ h => absurd h.1 (by decide), by decide, by decide, _, next_of (by decide)⟩

theorem witness_ExecuteErrors :
    (∃ t e, Fetches (at1 0x00851020 [(4, 0x7FFFFFFF), (5, 1)] []) 0x00851020 ∧
      decode vec 0x00851020 = .op (describe 0x00851020 (.add 4 5 2)) ∧ vec.gasCost .add ≤ 1000 ∧
      step (at1 0x00851020 [(4, 0x7FFFFFFF), (5, 1)] []) = .next t ∧ t.status = .error e) ∧
    (∃ t e, step (at1 0x8C820001 [(4, 0x10000)] []) = .next t ∧ t.status = .error e) ∧
    ∃ t e, step (at1 0x8C820000 [(4, 0x30000010)] [(0x30000000, 0x2B)]) = .next t ∧ t.status = .error e :=
  ⟨⟨_, .arithmeticOverflow 0x1000, ⟨⟨rfl, rfl, by decide⟩, by decide, by decide⟩, by decide, by decide,
    next_of (by decide), by decide⟩,
   ⟨_, .unalignedAccess 0x10001, next_of (by decide), by decide⟩,
   _, .oracleMiss [0, 0, 0, 0x2B], next_of (by decide), by decide⟩

theorem witness_CountAndHalt :
    (∃ t, step (at1 0 [] []) = .next t ∧ t.status = .running) ∧
    (∃ t, step (at1 0 [] [(0xBFFFFFF0, 1)]) = .next t ∧ t.status = .halted) ∧
    (∃ t, step { at1 0 [] [] with steps := 100 } = .next t ∧ t.status = .budget) ∧
    (∃ t e, step (at1 0xFC000000 [] []) = .next t ∧ t.status = .error e) ∧
    vec.halting = .sentinel ∧ ({ vec with halting := .other 7 } : Config).halting = .other 7 :=
  ⟨⟨_, next_of (by decide), by decide⟩, ⟨_, next_of (by decide), by decide⟩, ⟨_, next_of (by decide), by decide⟩,
   ⟨_, .invalidOpcode 0xFC000000, next_of (by decide), by decide⟩, by decide, by decide⟩

/-- 00_scope.md R14: a committed step is shown to the observer, with the index before the increment, and to none if none
is supplied. -/
theorem test_observer :
    (let s := at1 0x24080001 [] []
     ((observation s (outState (step s))).map fun o => (o.stepIndex, o.regs.pc, o.regs.x[8]?)) =
       some (0, 0x1004, some 1)) ∧
    (let s := at1 0x24080001 [] []
     let quiet : State := { s with inputs := { s.inputs with observer := false } }
     observation quiet (outState (step quiet)) = none) ∧
    (let s := at1 0xFC000000 [] []
     observation s (outState (step s)) = none) := by decide

/-- 60_exceptions.md R506: the outcome port carries the remaining gas and the kind of the error, not its argument. -/
theorem test_outcome_kind :
    outcome (outState (step (at1 0xFC000000 [] []))) = some (1000, some .invalidOpcode) ∧
    outcome (outState (step (at1 0xFC000001 [] []))) = some (1000, some .invalidOpcode) := by decide

theorem witness_RunIsOver :
    (markRefused .fields State.reset).refused = some .fields ∧
    ({ State.reset with status := .halted } : State).refused = none ∧
    ({ State.reset with status := .error .outOfGas } : State).status ≠ .running ∧
    State.reset.status = .running := by decide

theorem witness_GasConservation : ∃ t, stepsFrom 2 (at1 0x24080001 [] []) = .next t :=
  ⟨_, next_of (by decide)⟩

/-- E8.2 of 95_test_vectors.md: cost 5, gas 4. -/
theorem witness_OutOfGasAtFirstStep :
    let c : Config := { vec with gasBase := 5 }
    let m0 := Memory.setMword [] 0x1000 0x24080001
    1 ≤ vecInputs.maxSteps ∧ (0x1000 : Word).toNat % 4 = 0 ∧
    let w := Memory.mword (State.start c vecInputs m0 0x1000 4).mem 0x1000
    decode c w = .op (describe w (.addiu 0 8 1)) ∧
    4 < c.gasCost (Instr.addiu 0 8 1).mnemonic := by decide

theorem witness_DelaySlot :
    (∃ t u, (Instr.beq 0 0 4).isCT = true ∧ (at1 0 [] []).ds = false ∧
      (at1 0 [] []).npc = (at1 0 [] []).getPC + 4 ∧ (at1 0 [] []).status = .running ∧
      exec (.beq 0 0 4) (at1 0 [] []) = .next t ∧ t.ds = true ∧
      (Instr.addiu 6 6 1).isCT = false ∧ exec (.addiu 6 6 1) t = .next u ∧ u.status = .running) ∧
    ∃ t, (Instr.beql 4 0 4).isCT = true ∧ exec (.beql 4 0 4) (at1 0 [(4, 1)] []) = .next t ∧ t.ds = false :=
  ⟨⟨_, _, by decide, by decide, by decide, by decide, next_of (by decide), by decide, by decide, next_of (by decide),
    by decide⟩, _, by decide, next_of (by decide), by decide⟩

theorem witness_MisalignedTargets :
    (∃ t, (Instr.j 4).mnemonic ≠ .jr ∧ (Instr.j 4).mnemonic ≠ .jalr ∧ exec (.j 4) (at1 0 [] []) = .next t ∧
      (at1 0 [] []).getPC.toNat % 4 = 0 ∧ (at1 0 [] []).npc.toNat % 4 = 0) ∧
    Live (atPc 0x1003 0 [] []) ∧ (atPc 0x1003 0 [] []).getPC.toNat % 4 ≠ 0 :=
  ⟨⟨_, by decide, by decide, next_of (by decide), by decide, by decide⟩, ⟨rfl, rfl, by decide⟩, by decide⟩

theorem inv_at1 : Inv (at1 0x24080001 [] []) := ⟨by decide, fun _ => by decide, fun _ _ h => nomatch h⟩

theorem witness_StepKeepsInvariant :
    ∃ t, Inv (at1 0x24080001 [] []) ∧ step (at1 0x24080001 [] []) = .next t := ⟨_, inv_at1, next_of (by decide)⟩

theorem witness_RegisterZeroWordKept :
    ∃ t, (at1 0x24000005 [] []).cfg.wf = true ∧ step (at1 0x24000005 [] []) = .next t :=
  ⟨_, by decide, next_of (by decide)⟩

theorem witness_OracleWindowKept :
    ∃ t, (at1 0 [] []).cfg.wf = true ∧ exec (.sw 0 0 0x100) (at1 0 [] []) = .next t ∧
      ¬ IsTrigger (.sw 0 0 0x100) (at1 0 [] []) ∧ 1 < (at1 0 [] []).cfg.oracleWinWords :=
  ⟨_, by decide, next_of (by decide), fun ⟨_, _, _, h, _⟩ => (nomatch h), by decide⟩

theorem witness_LlbitWriters :
    ∃ t, exec (.sll 0 0 0) (linked (at1 0 [] [])) = .next t ∧ (linked (at1 0 [] [])).llbit = true ∧
      ¬ IsLl (.sll 0 0 0) := ⟨_, next_of (by decide), rfl, fun ⟨_, _, _, h⟩ => nomatch h⟩

theorem witness_HiLoWriters :
    ∃ t, (at1 0 [] []).cfg.wf = true ∧ (at1 0 [] []).cfg.regfileData = .refuse ∧
      exec (.sw 0 0 0x100) (at1 0 [] []) = .next t := ⟨_, by decide, rfl, next_of (by decide)⟩

/-- The ends of the signed range, on both sides. -/
theorem witness_AddSubOverflow :
    (let s := at1 0 [(4, 0x7FFFFFFF), (5, 0)] []
     (s.getReg 4).toInt + (s.getReg 5).toInt = 2 ^ 31 - 1) ∧
    (let s := at1 0 [(4, 0x7FFFFFFF), (5, 1)] []
     (s.getReg 4).toInt + (s.getReg 5).toInt = 2 ^ 31) ∧
    (let s := at1 0 [(4, 0x80000000), (5, 1)] []
     (s.getReg 4).toInt - (s.getReg 5).toInt = -2 ^ 31 - 1) ∧
    (let s := at1 0 [(4, 0x80000001)] []
     (s.getReg 4).toInt + (0xFFFF : Imm16).toInt = -2 ^ 31) := by decide

theorem witness_DivideSigned :
    ((at1 0 [] []).getReg 5).toInt = 0 ∧
    (let s := at1 0 [(4, 0x80000000), (5, 0xFFFFFFFF)] []
     (s.getReg 4).toInt = -2 ^ 31 ∧ (s.getReg 5).toInt = -1) ∧
    (let s := at1 0 [(4, 0x80000001), (5, 0xFFFFFFFF)] []
     (s.getReg 5).toInt ≠ 0 ∧ ¬ ((s.getReg 4).toInt = -2 ^ 31 ∧ (s.getReg 5).toInt = -1)) := by decide

theorem witness_DivideUnsigned :
    ((at1 0 [] []).getReg 5).toNat = 0 ∧ ((at1 0 [(5, 1)] []).getReg 5).toNat ≠ 0 := by decide

/-- Plain memory, a key word and a window word, for a load. -/
theorem witness_Loads :
    LoadsPlain vec 0x10000 ∧ LoadsPlain vec 0x30000000 ∧ LoadsPlain vec 0x30000024 ∧ LoadsPlain vec 0xBFFFFFFC ∧
    dataAddress (at1 0 [(4, 0x10000)] []) 4 0 = 0x10000 ∧ dataAddress (at1 0 [(4, 0x10000)] []) 4 0xFFFE = 0xFFFE :=
  ⟨⟨by decide, by decide⟩, ⟨by decide, by decide⟩, ⟨by decide, by decide⟩, ⟨by decide, by decide⟩, by decide, by decide⟩

/-- Plain memory and a key word, for a store, at each offset in a word. -/
theorem witness_Stores :
    vec.wf = true ∧ StoresPlain vec 0x10003 ∧ StoresPlain vec 0x10002 ∧ StoresPlain vec 0x10001 ∧
    StoresPlain vec 0x30000000 ∧ dataAddress (at1 0 [(4, 0x10000)] []) 4 2 = 0x10002 ∧
    (0x10002 : Word).toNat % 2 = 0 ∧ (0x30000000 : Word).toNat % 4 = 0 :=
  ⟨by decide, .inr (by decide), .inr (by decide), .inr (by decide), .inl (by decide), by decide, by decide, by decide⟩

theorem witness_MisalignedWordAccess :
    (dataAddress (linked (at1 0 [(4, 0x10000)] [])) 4 1).toNat % 4 ≠ 0 ∧
    (dataAddress (linked (at1 0 [(4, 0x10000)] [])) 4 3).toNat % 4 ≠ 0 ∧
    (linked (at1 0 [(4, 0x10000)] [])).llbit = true := by decide

theorem witness_OddHalfword :
    (∀ h : HalfOdd, let s := under { vec with halfOdd := h } (at1 0 [(4, 0x10000)] [])
      s.cfg.halfOdd = h ∧ dataAddress s 4 1 = 0x10001 ∧ s.cfg.wf = true) ∧
    (0x10001 : Word).toNat % 2 = 1 ∧ LoadsAt vec 0x10001 ∧ LoadsAt vec 0x10002 ∧
    StoresPlain vec 0x10001 ∧ StoresPlain vec 0x10002 :=
  ⟨fun h => by cases h <;> decide, by decide, .inl ⟨by decide, by decide⟩, .inl ⟨by decide, by decide⟩,
   .inr (by decide), .inr (by decide)⟩

/-- The tests' instance with its register slots open to data accesses. -/
def aliasing : Config := { vec with regfileData := .aliased }

/-- Odd addresses in the register slots under `alias`: slot 0 and the last byte of the last slot; the addresses before and
after the view; and one in the window, for a load. -/
theorem witness_OddHalfword_alias :
    (LoadsAt aliasing 0xC0000001 ∧ StoresAt aliasing 0xC0000001) ∧
    (LoadsAt aliasing 0xC000008B ∧ StoresAt aliasing 0xC000008B) ∧
    (LoadsAt aliasing 0xC000008C ∧ StoresAt aliasing 0xC000008C) ∧
    (LoadsAt aliasing 0xBFFFFFFF ∧ StoresAt aliasing 0xBFFFFFFF) ∧ LoadsAt vec 0x30000021 :=
  ⟨⟨.inr (by decide), .inr (by decide)⟩, ⟨.inr (by decide), .inr (by decide)⟩,
   ⟨.inl ⟨by decide, by decide⟩, .inl (.inr (by decide))⟩, ⟨.inl ⟨by decide, by decide⟩, .inl (.inr (by decide))⟩,
   .inl ⟨by decide, by decide⟩⟩

/-- The addresses where an odd halfword access is refused: the slots under `refuse`, the trigger and, for a store, the
window; and a first byte that is not refused before one that is. -/
theorem witness_OddHalfword_refused :
    LoadRefused vec 0xC0000003 .regfileData ∧ StoreRefused vec 0xC000008B .regfileData ∧
    LoadRefused vec 0x30000011 .oracleAccess ∧ StoreRefused vec 0x30000013 .oracleAccess ∧
    StoreRefused vec 0x30000027 .oracleAccess ∧
    (LoadsAt vec 0xBFFFFFFF ∧ LoadRefused vec 0xC0000000 .regfileData) ∧
    (StoresAt vec 0x3000001F ∧ StoreRefused vec 0x30000020 .oracleAccess) := by
  unfold LoadRefused StoreRefused LoadsAt StoresAt LoadsPlain StoresPlain
  decide

/-- Each of those addresses is the effective address of some operands. -/
theorem witness_OddHalfword_reached :
    dataAddress (at1 0 [(4, 0xC0000000)] []) 4 1 = 0xC0000001 ∧
    dataAddress (at1 0 [(4, 0xC0000000)] []) 4 0x8B = 0xC000008B ∧
    dataAddress (at1 0 [(4, 0xC0000000)] []) 4 0xFFFF = 0xBFFFFFFF ∧
    dataAddress (at1 0 [(4, 0x30000010)] []) 4 3 = 0x30000013 ∧
    dataAddress (at1 0 [(4, 0x30000010)] []) 4 0x17 = 0x30000027 ∧ (0xBFFFFFFF : Word).toNat % 2 = 1 := by decide

/-- The four places in a word. -/
theorem witness_UnalignedLoads_UnalignedStores :
    ∀ k : Fin 4, (let s := at1 0 [(4, 0x10000)] []
      (dataAddress s 4 (BitVec.ofNat 16 k)).toNat % 4 = k ∧ LoadsPlain s.cfg (dataAddress s 4 (BitVec.ofNat 16 k)) ∧
      StoresPlain s.cfg (dataAddress s 4 (BitVec.ofNat 16 k)) ∧ s.cfg.wf = true) := by
  unfold LoadsPlain StoresPlain
  decide

theorem witness_LoadLinkedStoreConditional :
    (at1 0 [] []).llbit = false ∧ (linked (at1 0 [] [])).llbit = true ∧ vec.wf = true ∧
    dataAddress (at1 0 [(4, 0x10000)] []) 4 0 = 0x10000 ∧ LoadsPlain vec 0x10000 ∧ StoresPlain vec 0x10000 :=
  ⟨rfl, rfl, by decide, by decide, ⟨by decide, by decide⟩, .inr (by decide)⟩

/-- The first and the last slot, under both settings, the link bit set. -/
theorem witness_RegisterSlotWord :
    ∀ p ∈ [(RegFileData.refuse, 0), (RegFileData.aliased, 34)],
      let s := linked (under { vec with regfileData := p.1 } (at1 0 [(4, 0xC0000000)] []))
      s.cfg.wf = true ∧ s.cfg.regfileData = p.1 ∧ p.2 < 35 ∧ s.llbit = true ∧
      dataAddress s 4 (BitVec.ofNat 16 (4 * p.2)) = s.cfg.regBase + BitVec.ofNat 32 (4 * p.2) := by decide

theorem witness_RegisterSlotSubword :
    ∀ p ∈ [(RegFileData.refuse, 0, 0), (RegFileData.aliased, 34, 3), (RegFileData.aliased, 32, 2)],
      let s := under { vec with regfileData := p.1 } (at1 0 [(4, 0xC0000000)] [])
      s.cfg.wf = true ∧ s.cfg.regfileData = p.1 ∧ p.2.1 < 35 ∧ p.2.2 < 4 ∧
      dataAddress s 4 (BitVec.ofNat 16 (4 * p.2.1 + p.2.2)) =
        s.cfg.regBase + BitVec.ofNat 32 (4 * p.2.1 + p.2.2) := by decide

/-- The key of V44.34 to V44.36: an answer that fits, a miss, an answer that does not fit, and a cached one. -/
theorem witness_OracleTriggerLoad :
    vec.oracleKeyOf = .keyWords ∧ ({ vec with oracleKeyOf := .other 7 } : Config).oracleKeyOf = .other 7 ∧
    (let s := at1 0 [(4, 0x30000010)] [(0x30000000, 0x2A)]
     let key := oracleKey s
     s.cfg.wf = true ∧ dataAddress s 4 0 = s.cfg.oracleTrigger ∧ assoc key s.cache = none ∧
     assoc key s.inputs.oracle = some [0xAB, 0xCD] ∧ oracleLayout s.cfg [0xAB, 0xCD] = some [2, 0xABCD0000]) ∧
    (let s := at1 0 [(4, 0x30000010)] [(0x30000000, 0x2B)]
     let key := oracleKey s
     dataAddress s 4 0 = s.cfg.oracleTrigger ∧ assoc key s.cache = none ∧ assoc key s.inputs.oracle = none) ∧
    (let s := at1 0 [(4, 0x30000010)] [(0x30000000, 0x2C)]
     let key := oracleKey s
     dataAddress s 4 0 = s.cfg.oracleTrigger ∧ assoc key s.inputs.oracle = some [1, 2, 3, 4, 5] ∧
     oracleLayout s.cfg [1, 2, 3, 4, 5] = none) ∧
    (let s : State := { at1 0 [(4, 0x30000010)] [(0x30000000, 0x2B)] with cache := [([0, 0, 0, 0x2B], [0xAB, 0xCD])] }
     let key := oracleKey s
     dataAddress s 4 0 = s.cfg.oracleTrigger ∧ assoc key s.cache = some [0xAB, 0xCD]) := by decide

/-- The trigger and the two ends of the window. -/
theorem witness_OracleAccessRefused :
    (let s := linked (at1 0 [(4, 0x30000010)] [])
     classOf s.cfg (wordAddress (dataAddress s 4 0)) = .trig ∧ (dataAddress s 4 0).toNat % 4 = 0 ∧
     classOf s.cfg (wordAddress (dataAddress s 4 16)) = .win ∧
     classOf s.cfg (wordAddress (dataAddress s 4 23)) = .win ∧ s.llbit = true) := by decide

theorem witness_UnmodelledGroups :
    (Instr.syscall 0).group = .syscall ∧ vec.presence .syscall = .unknown ∧
    Config.instanceAtReset.presence .syscall = .invalid ∧ Fetches (at1 0x0000000C [] []) 0x0000000C ∧
    decodeWord 0x0000000C = some (.syscall 0) :=
  ⟨by decide, by decide, by decide, ⟨⟨rfl, rfl, by decide⟩, by decide, by decide⟩, by decide⟩

end Sys2Proof.Tests
end

section
/-! PROOF. The state, its registers and their invariants (10_state.md; 00_scope.md R11; 60_exceptions.md R522). First the
laws this family needs beside those of Laws/, then its obligations by tier. -/

namespace Sys2Proof.Machine

open Memory

/-! Slots of the Register File View -/

/-- The word at `P_REG_BASE` is slot 0 of the view. -/
theorem slot_zero_eq_mword (s : State) : s.slot 0 = s.mword s.cfg.regBase := by
  simp [State.slot, slotAddr]

/-- The commit writes the PC slot and no other. -/
theorem commit_slot (ct : Bool) (c : Ctl) (s : State) (k : Nat) (hk : k < 35) (hpc : k ≠ Config.slotPC) :
    (commit ct c s).slot k = s.slot k :=
  State.slot_setSlot_ne s k Config.slotPC _ hk (by decide) hpc

/-! What every step keeps -/

/-- No instruction changes the slot of register 0. -/
theorem exec_slot_zero (i : Instr) (s t : State) (hc : s.cfg.wf = true) (h : exec i s = .next t) :
    t.slot 0 = s.slot 0 := by
  rcases exec_shape i s t h with ⟨e, rfl, -⟩ | ⟨s1, c, rfl, -, -, -, hw⟩
  · rfl
  · calc (commit i.isCT c s1).slot 0 = s1.slot 0 := commit_slot _ _ _ _ (by decide) (by decide)
      _ = s.slot 0 := hw.slot_zero hc

/-- The parameters are fixed for the run (00_scope.md R21). -/
theorem step_cfg (s t : State) (h : step s = .next t) : t.cfg = s.cfg := by
  cases step_shape s t h with
  | budget => rfl
  | early => rfl
  | ran i u _ _ _ _ _ hx =>
    obtain ⟨-, -, -, hcfg, -⟩ := exec_loop i _ u hx
    rw [closeStep_cfg, hcfg, charge_cfg]

/-- No step changes the slot of register 0. -/
theorem step_slot_zero (s t : State) (hc : s.cfg.wf = true) (h : step s = .next t) : t.slot 0 = s.slot 0 := by
  cases step_shape s t h with
  | budget => rfl
  | early => rfl
  | ran i u _ _ _ _ _ hx => rw [closeStep_slot, exec_slot_zero i (charge i s) u hc hx, charge_slot]

/-- Settles O26: no write an instruction is made of reaches slot 0 (`Writes.slot_zero`), the commit writes the PC slot
alone, and the rest of the step writes no memory. -/
theorem registerZeroWordKept : Obligations.RegisterZeroWordKept := by
  intro s t hc h
  calc t.mword s.cfg.regBase = t.slot 0 := by rw [slot_zero_eq_mword, step_cfg s t h]
    _ = s.slot 0 := step_slot_zero s t hc h
    _ = s.mword s.cfg.regBase := slot_zero_eq_mword s

/-! The writers of `llbit`, HI and LO -/

theorem isLl_iff (i : Instr) : isLl i = true ↔ IsLl i := by
  constructor
  · intro h
    cases i with
    | ll rs rt imm => exact ⟨rs, rt, imm, rfl⟩
    | _ => cases h
  · rintro ⟨rs, rt, imm, rfl⟩
    rfl

/-- Settles O28: of the writes an instruction is made of, one alone touches `llbit`; it sets it, and only LL has it. -/
theorem llbitWriters : Obligations.LlbitWriters := by
  intro i s t h
  rcases exec_shape i s t h with ⟨e, rfl, -⟩ | ⟨s1, c, rfl, -, -, -, hw⟩
  · exact ⟨id, fun _ => rfl⟩
  · rw [commit_llbit]
    refine ⟨hw.llbit_mono, fun hl => ?_⟩
    rw [← isLl_iff, Bool.not_eq_true] at hl
    rw [hl] at hw
    exact hw.llbit_kept

/-- With register slots closed to data accesses, a slot from HI on changes only where the instruction's own rule
writes it. -/
theorem exec_slot_kept (i : Instr) (s t : State) (hc : s.cfg.wf = true) (hr : s.cfg.regfileData = .refuse)
    (h : exec i s = .next t) (k : Nat) (hlo : Config.slotPC < k) (hhi : k < 35) (hk : k ∉ slotsOf i) :
    t.slot k = s.slot k := by
  rcases exec_shape i s t h with ⟨e, rfl, -⟩ | ⟨s1, c, rfl, -, -, -, hw⟩
  · rfl
  · calc (commit i.isCT c s1).slot k = s1.slot k := commit_slot _ _ _ _ hhi hlo.ne'
      _ = s.slot k := hw.slot_kept hc hr k hlo.le hhi hk

theorem slotHI_mem_slotsOf (i : Instr) (h : Config.slotHI ∈ slotsOf i) :
    i.mnemonic ∈ [.mult, .multu, .div, .divu, .madd, .maddu, .msub, .msubu, .mul, .mthi] := by
  unfold slotsOf at h
  split_ifs at h with hmthi hmtlo hboth
  · rw [hmthi]; decide
  · exact absurd h (by decide)
  · exact List.mem_append_left [.mthi] hboth
  · exact absurd h List.not_mem_nil

theorem slotLO_mem_slotsOf (i : Instr) (h : Config.slotLO ∈ slotsOf i) :
    i.mnemonic ∈ [.mult, .multu, .div, .divu, .madd, .maddu, .msub, .msubu, .mul, .mtlo] := by
  unfold slotsOf at h
  split_ifs at h with hmthi hmtlo hboth
  · exact absurd h (by decide)
  · rw [hmtlo]; decide
  · exact List.mem_append_left [.mtlo] hboth
  · exact absurd h List.not_mem_nil

/-- Settles O29: an instruction outside the list has no write of HI's slot, and no data access reaches a register
slot. -/
theorem hiLoWriters : Obligations.HiLoWriters := by
  intro i s t hc hr h
  exact ⟨fun hi => exec_slot_kept i s t hc hr h Config.slotHI (by decide) (by decide) (mt (slotHI_mem_slotsOf i) hi),
    fun hi => exec_slot_kept i s t hc hr h Config.slotLO (by decide) (by decide) (mt (slotLO_mem_slotsOf i) hi)⟩

/-! The state at reset -/

theorem readByte_of_keyFree (m : Memory) (x : Nat) (h : KeyFree m x) : readByte m x = unlisted := by
  induction m with
  | nil => rfl
  | cons p rest ih =>
    obtain ⟨a, b⟩ := p
    have hne : a ≠ x := h (a, b) List.mem_cons_self
    rw [readByte, if_neg hne]
    exact ih fun q hq => h q (List.mem_cons_of_mem _ hq)

section
variable (c : Config) (inp : RunInputs) (m0 : Memory) (pc : Word) (gas0 : Nat)

theorem start_getPC : (State.start c inp m0 pc gas0).getPC = pc := mword_setMword _ _ _

/-- Reset writes the PC slot and no other (70_reset_and_hazards.md R550). -/
theorem start_slot (k : Nat) (hk : k < 35) (hpc : k ≠ Config.slotPC) :
    (State.start c inp m0 pc gas0).slot k = mword m0 (slotAddr c k) :=
  mword_setMword_of_far _ _ _ _ (slotAddr_far c _ _ hk (by decide) hpc) (slotAddr_far c _ _ (by decide) hk hpc.symm)

theorem start_getReg (n : RegNum) (hn : n ≠ 0) :
    (State.start c inp m0 pc gas0).getReg n = mword m0 (slotAddr c n.toNat) := by
  have hlt : n.toNat < 32 := n.isLt
  rw [State.getReg_of_ne _ _ hn]
  exact start_slot c inp m0 pc gas0 _ (by omega) hlt.ne

theorem start_readByte (x : Nat) (hx : ¬ InSlot c Config.slotPC x) :
    readByte (State.start c inp m0 pc gas0).mem x = readByte m0 x :=
  readByte_setMword_of_ne _ _ _ _ fun k hk e => hx ⟨k, hk, e⟩

end

/-- Settles O1: reset writes the PC slot alone, and the other fields are those of `State.start`. -/
theorem resetState : Obligations.ResetState := by
  intro c inp m0 pc gas0
  exact ⟨start_readByte c inp m0 pc gas0, readByte_of_keyFree m0, start_getReg c inp m0 pc gas0,
    State.getReg_zero _, start_slot c inp m0 pc gas0 Config.slotHI (by decide) (by decide),
    start_slot c inp m0 pc gas0 Config.slotLO (by decide) (by decide), start_getPC c inp m0 pc gas0,
    rfl, rfl, rfl, rfl, rfl, rfl, rfl, rfl⟩

/-! Registers as words of memory -/

/-- Settles O4: `getReg` and `setReg` never look at the slot of register 0. -/
theorem registerZero : Obligations.RegisterZero := by
  intro s v
  refine ⟨State.getReg_zero s, State.getReg_zero _, State.setReg_zero s v, State.getReg_zero _, ?_⟩
  exact mword_setMword s.mem s.cfg.regBase v

theorem regWritten_setReg (s : State) (n : RegNum) (v : Word) : RegWritten s (s.setReg n v) n v where
  regs k := State.getReg_setReg s n k v
  hi := State.getHI_setReg s n v
  lo := State.getLO_setReg s n v

/-- Settles O5: the slots of the view are apart, so a write of one keeps the others. -/
theorem registerFileView : Obligations.RegisterFileView := by
  intro s n v
  refine ⟨State.getReg_of_ne s n, rfl, rfl, rfl, ⟨regWritten_setReg s n v, State.getPC_setReg s n v⟩, ?_, ?_, ?_⟩
  · exact ⟨State.getPC_setPC s v, fun k => State.getReg_setPC s k v, State.getHI_setPC s v, State.getLO_setPC s v⟩
  · exact ⟨State.getHI_setHI s v, fun k => State.getReg_setHI s k v, State.getPC_setHI s v, State.getLO_setHI s v⟩
  · exact ⟨State.getLO_setLO s v, fun k => State.getReg_setLO s k v, State.getPC_setLO s v, State.getHI_setLO s v⟩

/-! The end of a run -/

/-- A state with the refusal mark has no next state (10_state.md R74). -/
theorem step_of_marked (s : State) (q : Refusal) (h : s.refused = some q) : step s = .refused .alreadyRefused := by
  simp only [step, loopTurn, h]

/-- A run that is over has no next step (60_exceptions.md R522). -/
theorem step_of_over (s : State) (h : s.refused = none) (hs : s.status ≠ .running) : step s = .fault .runEnded := by
  simp only [step, loopTurn, h]
  cases hst : s.status with
  | running => exact absurd hst hs
  | halted => rfl
  | budget => rfl
  | error e => rfl

/-- Settles O20: the marks `step` looks at first, and the four cases of the outcome port. -/
theorem runIsOver : Obligations.RunIsOver := by
  intro s
  refine ⟨step_of_marked s, step_of_over s, ?_, fun e he => ?_, fun hr => ?_⟩
  · rintro (hs | hs) <;> simp only [outcome, hs]
  · simp only [outcome, he]
  · simp only [outcome, hr]

end Sys2Proof.Machine
end

section
/-! PROOF. Memory, its data accesses and the oracle mailbox (20_memory.md; 60_exceptions.md R501). Each obligation
stands after the laws it needs beside those of Laws/. -/

namespace Sys2Proof.Machine

open Memory

/-! The oracle window without a trigger -/

/-- An instruction that is no trigger keeps every word of class TRIG or WINR. -/
theorem exec_mword_kept (i : Instr) (s t : State) (hc : s.cfg.wf = true) (h : exec i s = .next t)
    (hn : ¬ IsTrigger i s) (a : Word) (ha : a.toNat % 4 = 0)
    (hcl : classOf s.cfg a = .trig ∨ classOf s.cfg a = .win) : t.mword a = s.mword a := by
  have hr : inWords s.cfg.regBase Config.slots a = false :=
    classOf_not_reg _ _ (by rcases hcl with e | e <;> rw [e] <;> decide)
  rcases exec_writes i s t h hn with ⟨e, rfl⟩ | ⟨s1, c, rfl, hw⟩
  · rfl
  · have hcfg : s1.cfg = s.cfg := hw.loopKept.cfg
    calc (commit i.isCT c s1).mword a = s1.mword a :=
          commit_mword _ _ _ _ (hcfg ▸ regBase_aligned _ hc) ha (hcfg ▸ hr)
      _ = s.mword a := hw.mword_kept hc a ha hcl

/-- An instruction that is no trigger keeps the oracle cache. -/
theorem exec_cache_kept (i : Instr) (s t : State) (h : exec i s = .next t) (hn : ¬ IsTrigger i s) :
    t.cache = s.cache := by
  rcases exec_writes i s t h hn with ⟨e, rfl⟩ | ⟨s1, c, rfl, hw⟩
  · rfl
  · rw [commit_cache, hw.cache_kept]

/-- The window's words are aligned. -/
theorem win_aligned (c : Config) (h : c.Apart) (k : Nat) (hk : k < c.oracleWinWords) :
    (c.oracleWinBase + BitVec.ofNat 32 (4 * k)).toNat % 4 = 0 := by
  have hbase := h.win.1
  rw [win_word c h k hk]
  omega

/-- Settles O27: the trigger word has class TRIG and the window's words class WINR or TRIG, and the writes of an
instruction that is no trigger reach neither. -/
theorem oracleWindowKept : Obligations.OracleWindowKept := by
  intro i s t hc h hn
  have ha := s.cfg.apart hc
  have hkept := exec_mword_kept i s t hc h hn
  exact ⟨exec_cache_kept i s t h hn, hkept _ ha.trig (.inl (classOf_trig _ ha)),
    fun k hk => hkept _ (win_aligned _ ha k hk) (classOf_window _ ha k hk)⟩

/-! The routing of each access by its alignment -/

theorem memReadWord_aligned (lw : Bool) (a : Word) (s : State) (h : a.toNat % 4 = 0) :
    memReadWord lw a s = routeRead lw (wordAddress a) s := if_pos h

theorem memReadWord_misaligned (lw : Bool) (a : Word) (s : State) (h : a.toNat % 4 ≠ 0) :
    memReadWord lw a s = .error (.unalignedAccess a) := if_neg h

theorem memWriteWord_aligned (a v : Word) (s : State) (h : a.toNat % 4 = 0) :
    memWriteWord a v s = routeWrite (wordAddress a) (fun _ => v) s := if_pos h

theorem memWriteWord_misaligned (a v : Word) (s : State) (h : a.toNat % 4 ≠ 0) :
    memWriteWord a v s = .error (.unalignedAccess a) := if_neg h

theorem memReadHalf_even (a : Word) (s : State) (h : a.toNat % 2 = 0) : memReadHalf a s = memReadEvenHalf a s := by
  rw [memReadHalf, if_neg (by rw [getLsbD_zero_iff]; omega)]

theorem memWriteHalf_even (a v : Word) (s : State) (h : a.toNat % 2 = 0) :
    memWriteHalf a v s = memWriteEvenHalf a v s := by
  rw [memWriteHalf, if_neg (by rw [getLsbD_zero_iff]; omega)]

/-- The word access of LWL, LWR, SWL and SWR passes its alignment check. -/
theorem memReadWord_word (lw : Bool) (a : Word) (s : State) :
    memReadWord lw (wordAddress a) s = routeRead lw (wordAddress a) s := by
  rw [memReadWord_aligned _ _ _ (wordAddress_aligned a), wordAddress_idem]

theorem memWriteWord_word (a v : Word) (s : State) :
    memWriteWord (wordAddress a) v s = routeWrite (wordAddress a) (fun _ => v) s := by
  rw [memWriteWord_aligned _ _ _ (wordAddress_aligned a), wordAddress_idem]

/-- SC with `llbit` set is a store and a register write (44_load_store.md R421). -/
theorem exec_sc_linked (s : State) (rs rt : RegNum) (imm : Imm16) (h : s.llbit = true) :
    exec (.sc rs rt imm) s =
      finish s (memWriteWord (dataAddress s rs imm) (s.getReg rt) s) fun s1 => s1.setReg rt 1 := if_pos h

/-! A word read back, and the bytes a store changes -/

/-- The bytes of a word plain for a load are plain for a load. -/
theorem LoadsPlain.byte {c : Config} {a : Word} {k : Nat} (hp : LoadsPlain c a) (ha : a.toNat % 4 = 0) (hk : k < 4) :
    LoadsPlain c (a + BitVec.ofNat 32 k) := by
  have hw : wordAddress (a + BitVec.ofNat 32 k) = wordAddress a := by
    rw [(wordAddress_add_lt a k ha hk).1, wordAddress_of_aligned a ha]
  rwa [LoadsPlain, hw]

theorem byteFrom_setMword (s : State) (a v : Word) (k : Nat) (hk : k < 4) :
    byteFrom (s.setMword a v) a k = byteAt v k :=
  readByte_setMword_byteAt s.mem a v k hk

/-- A byte of a word just stored (20_memory.md R105, R106). -/
theorem memReadByte_setMword (s : State) (a v : Word) (k : Nat) (hp : LoadsPlain s.cfg a) (ha : a.toNat % 4 = 0)
    (hk : k < 4) : memReadByte (a + BitVec.ofNat 32 k) (s.setMword a v) = .ok ((byteAt v k).zeroExtend 32) := by
  rw [memReadByte_plain _ (s.setMword a v) (hp.byte ha hk), byteFrom_add]
  exact congrArg (fun b : Byte => Res.ok (b.zeroExtend 32)) (byteFrom_setMword s a v k hk)

/-- A halfword of a word just stored (20_memory.md R105, R106). -/
theorem memReadHalf_setMword (s : State) (a v : Word) (k : Nat) (hp : LoadsPlain s.cfg a) (ha : a.toNat % 4 = 0)
    (hk : k = 0 ∨ k = 2) :
    memReadHalf (a + BitVec.ofNat 32 k) (s.setMword a v) =
      .ok ((byteAt v k ++ byteAt v (k + 1)).zeroExtend 32) := by
  have he : (a + BitVec.ofNat 32 k).toNat % 2 = 0 := by bv_omega
  rw [memReadHalf_even _ _ he,
    memReadEvenHalf_plain _ (s.setMword a v) (hp.byte ha (by omega)) (getLsbD_zero_false _ he),
    byteFrom_add, byteFrom_add, byteFrom_setMword _ _ _ _ (by omega), byteFrom_setMword _ _ _ _ (by omega)]
  rfl

/-- Settles O3: the stored word is read back byte by byte, and a byte store merges one byte into its word. -/
theorem mixedWidthViews : Obligations.MixedWidthViews := by
  intro s a v hp
  refine ⟨fun ha => ⟨s.setMword a v, ?_, ?_, ?_, ?_, ?_, ?_, ?_⟩, _, routeWrite_plain _ _ _ hp,
    readByte_storeByte s.mem a v⟩
  · rw [memWriteWord_aligned _ _ _ ha, routeWrite_plain _ _ _ hp, wordAddress_of_aligned a ha]
  · have h := memReadByte_setMword s a v 0 hp.loads ha (by decide)
    rw [BitVec.add_zero] at h
    exact h
  · exact memReadByte_setMword s a v 1 hp.loads ha (by decide)
  · exact memReadByte_setMword s a v 2 hp.loads ha (by decide)
  · exact memReadByte_setMword s a v 3 hp.loads ha (by decide)
  · have h := memReadHalf_setMword s a v 0 hp.loads ha (.inl rfl)
    rwa [byteAt_high_half, BitVec.add_zero] at h
  · have h := memReadHalf_setMword s a v 2 hp.loads ha (.inr rfl)
    rwa [byteAt_low_half] at h

/-! Misaligned word accesses -/

/-- An access error ends the instruction. -/
theorem finish_error {α : Type} (s : State) (r : Res α) (k : α → State) (e : EngineError) (h : r = .error e) :
    finish s r k = .next (errorState e s) := by rw [h]; rfl

/-- Settles O50: the alignment check comes before the routing. -/
theorem misalignedWordAccess : Obligations.MisalignedWordAccess := by
  intro s rs rt imm ea h
  refine ⟨finish_error s _ _ _ (memReadWord_misaligned true ea s h),
    finish_error s _ _ _ (memWriteWord_misaligned ea _ s h),
    finish_error s _ _ _ (memReadWord_misaligned false ea s h), fun hl => ?_⟩
  rw [exec_sc_linked s rs rt imm hl]
  exact finish_error s _ _ _ (memWriteWord_misaligned ea _ s h)

/-! Refused accesses -/

section
variable {s : State} {a : Word} {q : Refusal}

theorem memReadByte_refused (h : LoadRefused s.cfg a q) : memReadByte a s = .refuse q := by
  rw [memReadByte, routeRead_stops s a q h]; rfl

theorem memReadEvenHalf_refused (h : LoadRefused s.cfg a q) : memReadEvenHalf a s = .refuse q := by
  rw [memReadEvenHalf, routeRead_stops s a q h]; rfl

theorem memReadHalf_refused (h : LoadRefused s.cfg a q) (ha : a.toNat % 2 = 0) : memReadHalf a s = .refuse q := by
  rw [memReadHalf_even a s ha, memReadEvenHalf_refused h]

theorem memWriteByte_refused (v : Word) (h : StoreRefused s.cfg a q) : memWriteByte a v s = .refuse q :=
  routeWrite_stops s a _ q h

theorem memWriteEvenHalf_refused (v : Word) (h : StoreRefused s.cfg a q) : memWriteEvenHalf a v s = .refuse q :=
  routeWrite_stops s a _ q h

theorem memWriteHalf_refused (v : Word) (h : StoreRefused s.cfg a q) (ha : a.toNat % 2 = 0) :
    memWriteHalf a v s = .refuse q := by
  rw [memWriteHalf_even a v s ha, memWriteEvenHalf_refused v h]

theorem memWriteWord_refused (v : Word) (h : StoreRefused s.cfg a q) (ha : a.toNat % 4 = 0) :
    memWriteWord a v s = .refuse q := by
  rw [memWriteWord_aligned a v s ha, routeWrite_stops s a _ q h]

/-- Where a store is refused, the load before it is refused for the same reason, or the word is a window word, which
loads may read (20_memory.md R112, R118). -/
theorem StoreRefused.load_or_window {c : Config} (h : StoreRefused c a q) :
    LoadRefused c a q ∨ classOf c (wordAddress a) = .win := by
  rcases h with h | ⟨h | h, hq⟩
  · exact .inl (.inl h)
  · exact .inl (.inr ⟨h, hq⟩)
  · exact .inr h

/-- The read and write of SWL and SWR at a word refused to stores. -/
theorem readModify_refused (f : Word → Word) (h : StoreRefused s.cfg a q) :
    ((memReadWord false (wordAddress a) s).andThen fun p => memWriteWord (wordAddress a) (f p.1) s) = .refuse q := by
  rw [memReadWord_word]
  rcases h.load_or_window with hl | hw
  · rw [routeRead_stops s a q hl]; rfl
  · rw [routeRead_plain false _ s (by rw [hw]; decide) (by rw [hw]; decide)]
    exact (memWriteWord_word a _ s).trans (routeWrite_stops s a _ q h)

end

section
variable (s : State) (rs rt : RegNum) (imm : Imm16) (q : Refusal)

/-- The loads other than LW are refused at the effective address, each once its address passes the alignment check. -/
structure LoadsStop : Prop where
  lb : exec (.lb rs rt imm) s = .refused q
  lbu : exec (.lbu rs rt imm) s = .refused q
  lwl : exec (.lwl rs rt imm) s = .refused q
  lwr : exec (.lwr rs rt imm) s = .refused q
  lh : (dataAddress s rs imm).toNat % 2 = 0 → exec (.lh rs rt imm) s = .refused q
  lhu : (dataAddress s rs imm).toNat % 2 = 0 → exec (.lhu rs rt imm) s = .refused q
  ll : (dataAddress s rs imm).toNat % 4 = 0 → exec (.ll rs rt imm) s = .refused q

/-- The stores are refused at the effective address, each once its address passes the alignment check. -/
structure StoresStop : Prop where
  sb : exec (.sb rs rt imm) s = .refused q
  swl : exec (.swl rs rt imm) s = .refused q
  swr : exec (.swr rs rt imm) s = .refused q
  sh : (dataAddress s rs imm).toNat % 2 = 0 → exec (.sh rs rt imm) s = .refused q
  sw : (dataAddress s rs imm).toNat % 4 = 0 → exec (.sw rs rt imm) s = .refused q
  sc : (dataAddress s rs imm).toNat % 4 = 0 → s.llbit = true → exec (.sc rs rt imm) s = .refused q

theorem loadsStop_of_refused (h : LoadRefused s.cfg (dataAddress s rs imm) q) : LoadsStop s rs rt imm q where
  lb := finish_refuse s _ _ q (memReadByte_refused h)
  lbu := finish_refuse s _ _ q (memReadByte_refused h)
  lwl := finish_refuse s _ _ q ((memReadWord_word false _ s).trans (routeRead_stops s _ q h))
  lwr := finish_refuse s _ _ q ((memReadWord_word false _ s).trans (routeRead_stops s _ q h))
  lh ha := finish_refuse s _ _ q (memReadHalf_refused h ha)
  lhu ha := finish_refuse s _ _ q (memReadHalf_refused h ha)
  ll ha := finish_refuse s _ _ q ((memReadWord_aligned false _ s ha).trans (routeRead_stops s _ q h))

theorem storesStop_of_refused (h : StoreRefused s.cfg (dataAddress s rs imm) q) : StoresStop s rs rt imm q where
  sb := finish_refuse s _ _ q (memWriteByte_refused _ h)
  swl := finish_refuse s _ _ q (readModify_refused (mergeSwl · (s.getReg rt) (dataAddress s rs imm)) h)
  swr := finish_refuse s _ _ q (readModify_refused (mergeSwr · (s.getReg rt) (dataAddress s rs imm)) h)
  sh ha := finish_refuse s _ _ q (memWriteHalf_refused _ h ha)
  sw ha := finish_refuse s _ _ q (memWriteWord_refused _ h ha)
  sc ha hl := by
    rw [exec_sc_linked s rs rt imm hl]
    exact finish_refuse s _ _ q (memWriteWord_refused _ h ha)

end

/-- Settles O58: the trigger is refused to loads other than LW, the trigger and the window to stores. -/
theorem oracleAccessRefused : Obligations.OracleAccessRefused := by
  intro s rs rt imm ea
  constructor
  · intro h
    have hl := loadsStop_of_refused s rs rt imm .oracleAccess (.inr ⟨h, rfl⟩)
    exact ⟨hl.lb, hl.lbu, hl.lwl, hl.lwr, fun ha => ⟨hl.lh ha, hl.lhu ha⟩, hl.ll⟩
  · intro h
    have hs := storesStop_of_refused s rs rt imm .oracleAccess (.inr ⟨h, rfl⟩)
    exact ⟨hs.sb, hs.swl, hs.swr, hs.sh, fun ha => ⟨hs.sw ha, hs.sc ha⟩⟩

/-! Odd halfwords: what an access may do at an address depends on its word alone -/

section
variable {c : Config} {a b : Word} {q : Refusal} (e : wordAddress b = wordAddress a)
include e

theorem LoadsAt.congr (h : LoadsAt c a) : LoadsAt c b := by rwa [LoadsAt, LoadsPlain, e]

theorem StoresPlain.congr (h : StoresPlain c a) : StoresPlain c b := by rwa [StoresPlain, e]

theorem StoresAt.congr (h : StoresAt c a) : StoresAt c b := by rwa [StoresAt, StoresPlain, e]

theorem LoadRefused.congr (h : LoadRefused c a q) : LoadRefused c b q := by rwa [LoadRefused, e]

theorem StoreRefused.congr (h : StoreRefused c a q) : StoreRefused c b q := by rwa [StoreRefused, e]

end

theorem even_of_odd_pred {a : Word} (ho : a.toNat % 2 = 1) : (a - 1).toNat % 2 = 0 := by bv_omega

/-! The four settings of `P_HALF_ODD` (20_memory.md R109) -/

section
variable {s : State} {a : Word} (ho : a.toNat % 2 = 1)
include ho

theorem memReadHalf_odd_refuse (hp : s.cfg.halfOdd = .refuse) : memReadHalf a s = .refuse .halfOdd := by
  simp only [memReadHalf, (getLsbD_zero_iff a).2 ho, hp, if_true]

theorem memReadHalf_odd_unaligned (hp : s.cfg.halfOdd = .unaligned) : memReadHalf a s = .error (.unalignedAccess a) := by
  simp only [memReadHalf, (getLsbD_zero_iff a).2 ho, hp, if_true]

theorem memReadHalf_odd_clearBit0 (hp : s.cfg.halfOdd = .clearBit0) : memReadHalf a s = memReadEvenHalf (a - 1) s := by
  simp only [memReadHalf, (getLsbD_zero_iff a).2 ho, hp, if_true, ← and_not_one a ho]

theorem memReadHalf_odd_bytes (hp : s.cfg.halfOdd = .bytes) :
    memReadHalf a s = (memReadByte a s).andThen fun hi =>
      (memReadByte (a + 1) s).andThen fun lo => .ok ((hi <<< 8) ||| lo) := by
  simp only [memReadHalf, (getLsbD_zero_iff a).2 ho, hp, if_true]

variable (v : Word)

theorem memWriteHalf_odd_refuse (hp : s.cfg.halfOdd = .refuse) : memWriteHalf a v s = .refuse .halfOdd := by
  simp only [memWriteHalf, (getLsbD_zero_iff a).2 ho, hp, if_true]

theorem memWriteHalf_odd_unaligned (hp : s.cfg.halfOdd = .unaligned) :
    memWriteHalf a v s = .error (.unalignedAccess a) := by
  simp only [memWriteHalf, (getLsbD_zero_iff a).2 ho, hp, if_true]

theorem memWriteHalf_odd_clearBit0 (hp : s.cfg.halfOdd = .clearBit0) :
    memWriteHalf a v s = memWriteEvenHalf (a - 1) v s := by
  simp only [memWriteHalf, (getLsbD_zero_iff a).2 ho, hp, if_true, ← and_not_one a ho]

theorem memWriteHalf_odd_bytes (hp : s.cfg.halfOdd = .bytes) :
    memWriteHalf a v s = (memWriteByte a (v >>> 8) s).andThen fun s1 => memWriteByte (a + 1) v s1 := by
  simp only [memWriteHalf, (getLsbD_zero_iff a).2 ho, hp, if_true]

end

section
variable {s : State} {a : Word} {q : Refusal} (ho : a.toNat % 2 = 1)
include ho

theorem memReadHalf_odd_clearBit0_open (hp : s.cfg.halfOdd = .clearBit0) (h : LoadsAt s.cfg a) :
    memReadHalf a s = .ok ((loadedByte s (a - 1) ++ loadedByte s a).zeroExtend 32) := by
  rw [memReadHalf_odd_clearBit0 ho hp, memReadEvenHalf_open _ _ (h.congr (odd_pred a ho).1) (even_of_odd_pred ho),
    BitVec.sub_add_cancel]

theorem memReadHalf_odd_clearBit0_refused (hp : s.cfg.halfOdd = .clearBit0) (h : LoadRefused s.cfg a q) :
    memReadHalf a s = .refuse q := by
  rw [memReadHalf_odd_clearBit0 ho hp, memReadEvenHalf_refused (h.congr (odd_pred a ho).1)]

theorem memWriteHalf_odd_clearBit0_refused (v : Word) (hp : s.cfg.halfOdd = .clearBit0) (h : StoreRefused s.cfg a q) :
    memWriteHalf a v s = .refuse q := by
  rw [memWriteHalf_odd_clearBit0 ho v hp, memWriteEvenHalf_refused v (h.congr (odd_pred a ho).1)]

theorem memReadHalf_odd_bytes_open (hp : s.cfg.halfOdd = .bytes) (h : LoadsAt s.cfg a) (h' : LoadsAt s.cfg (a + 1)) :
    memReadHalf a s = .ok ((loadedByte s a ++ loadedByte s (a + 1)).zeroExtend 32) := by
  rw [memReadHalf_odd_bytes ho hp, memReadByte_open s a h, memReadByte_open s (a + 1) h']
  exact congrArg Res.ok (shift_or_bytes _ _)

/-- Under `bytes` the check of the first byte comes first. -/
theorem memReadHalf_odd_bytes_refused (hp : s.cfg.halfOdd = .bytes)
    (h : LoadRefused s.cfg a q ∨ (LoadsAt s.cfg a ∧ LoadRefused s.cfg (a + 1) q)) :
    memReadHalf a s = .refuse q := by
  rw [memReadHalf_odd_bytes ho hp]
  rcases h with h | ⟨h, h'⟩
  · rw [memReadByte_refused h]; rfl
  · rw [memReadByte_open s a h, memReadByte_refused h']; rfl

theorem memWriteHalf_odd_bytes_refused (v : Word) (hp : s.cfg.halfOdd = .bytes)
    (h : StoreRefused s.cfg a q ∨ (StoresAt s.cfg a ∧ StoreRefused s.cfg (a + 1) q)) :
    memWriteHalf a v s = .refuse q := by
  rw [memWriteHalf_odd_bytes ho v hp]
  rcases h with h | ⟨h, h'⟩
  · rw [memWriteByte_refused _ h]; rfl
  · obtain ⟨s1, e, hs, -⟩ := memWriteByte_open s a (v >>> 8) h
    have hcfg : s1.cfg = s.cfg := by rw [hs]
    rw [e]
    exact memWriteByte_refused v (hcfg ▸ h')

end

/-! LH, LHU and SH by their access -/

section
variable {s : State} {rs rt : RegNum} {imm : Imm16}

theorem halfLoads_complete {h : BitVec 16} (e : memReadHalf (dataAddress s rs imm) s = .ok (h.zeroExtend 32)) :
    Completes (.lh rs rt imm) s (RegEffect s rt (h.signExtend 32)) ∧
      Completes (.lhu rs rt imm) s (RegEffect s rt (h.zeroExtend 32)) :=
  ⟨load_completes rfl ⟨_, e, by rw [sextHalf_zeroExtend]⟩, load_completes rfl ⟨_, e, by rw [zextHalf_zeroExtend]⟩⟩

theorem halfLoads_refused {q : Refusal} (e : memReadHalf (dataAddress s rs imm) s = .refuse q) :
    exec (.lh rs rt imm) s = .refused q ∧ exec (.lhu rs rt imm) s = .refused q :=
  ⟨finish_refuse s _ _ q e, finish_refuse s _ _ q e⟩

theorem halfLoads_error {x : EngineError} (e : memReadHalf (dataAddress s rs imm) s = .error x) :
    exec (.lh rs rt imm) s = .next (errorState x s) ∧ exec (.lhu rs rt imm) s = .next (errorState x s) :=
  ⟨finish_error s _ _ x e, finish_error s _ _ x e⟩

/-- SH completes once its access does. -/
theorem halfStore_completes {post : State → Prop}
    (h : ∃ s1, memWriteHalf (dataAddress s rs imm) (s.getReg rt) s = .ok s1 ∧ post (commit false .seq s1)) :
    Completes (.sh rs rt imm) s post :=
  store_completes rfl h

end

/-- Settles O51: each setting of `P_HALF_ODD` gives LH, LHU and SH the form of one access at the even address below,
of two byte accesses, or of none. -/
theorem oddHalfword : Obligations.OddHalfword := by
  intro s rs rt imm c ea v b low loads stores loadsStop storeStops ho
  have hw : wordAddress (ea - 1) = wordAddress ea := (odd_pred ea ho).1
  have he : (ea - 1).toNat % 2 = 0 := even_of_odd_pred ho
  refine ⟨fun hp => ?refuse, fun hp => ?unaligned, fun hp => ?clearBit0, fun hp => ?bytes⟩
  case refuse =>
    exact ⟨halfLoads_refused (memReadHalf_odd_refuse ho hp), finish_refuse s _ _ _ (memWriteHalf_odd_refuse ho v hp)⟩
  case unaligned =>
    exact ⟨halfLoads_error (memReadHalf_odd_unaligned ho hp), finish_error s _ _ _ (memWriteHalf_odd_unaligned ho v hp)⟩
  case clearBit0 =>
    have hwrite := memWriteHalf_odd_clearBit0 ho v hp
    refine ⟨fun h => halfLoads_complete (memReadHalf_odd_clearBit0_open ho hp h),
      fun q h => halfLoads_refused (memReadHalf_odd_clearBit0_refused ho hp h), fun hc h => halfStore_completes ?_,
      fun hc h => halfStore_completes ?_, fun q h => finish_refuse s _ _ q (memWriteHalf_odd_clearBit0_refused ho v hp h)⟩
    · rw [hwrite]
      exact memWriteEvenHalf_effect s (ea - 1) v hc (h.congr hw) (getLsbD_zero_false _ he)
    · rw [hwrite]
      exact memWriteEvenHalf_stored s (ea - 1) v hc (h.congr hw) he
  case bytes =>
    have hwrite := memWriteHalf_odd_bytes ho v hp
    refine ⟨fun h h' => halfLoads_complete (memReadHalf_odd_bytes_open ho hp h h'),
      fun q h => halfLoads_refused (memReadHalf_odd_bytes_refused ho hp h), fun hc h h' => halfStore_completes ?_,
      fun hc h h' => halfStore_completes ?_, fun q h => finish_refuse s _ _ q (memWriteHalf_odd_bytes_refused ho v hp h)⟩
    · rw [hwrite]
      exact memWriteTwoBytes_effect s ea v hc h h'
    · rw [hwrite]
      exact memWriteTwoBytes_stored s ea v hc h h'

/-! Register slots open to data accesses -/

/-- An access that succeeds commits its writes. -/
theorem finish_ok {α : Type} (s : State) (r : Res α) (k : α → State) (a : α) (h : r = .ok a) :
    finish s r k = .next (commit false .seq (k a)) := by rw [h]; rfl

section
variable {s : State} {a : Word} {k o : Nat} (h : AtSlot s.cfg a k o)
include h

theorem AtSlot.even (ho : o % 2 = 0) : a.toNat % 2 = 0 := by
  have hoff : a.toNat % 4 = o := h.offset
  omega

variable (hk : k < 35) (ha : s.cfg.regfileData = .aliased)
include hk ha

theorem memReadByte_slot : memReadByte a s = .ok ((byteAt (slotValue s k) o).zeroExtend 32) := by
  rw [memReadByte, routeRead_slot false s a k o h hk ha, ← h.offset, ← extractByte_eq]
  rfl

theorem memReadHalf_slot (ho : o % 2 = 0) :
    memReadHalf a s = .ok ((byteAt (slotValue s k) o ++ byteAt (slotValue s k) (o + 1)).zeroExtend 32) := by
  rw [memReadHalf_even a s (h.even ho), memReadEvenHalf, routeRead_slot false s a k o h hk ha, ← h.offset,
    ← extractHalf_eq _ _ (getLsbD_zero_false a (h.even ho))]
  rfl

/-- The word read of LWL and LWR. -/
theorem memReadWord_slot_word : memReadWord false (wordAddress a) s = .ok (slotValue s k, s) := by
  rw [memReadWord_word, routeRead_slot false s a k o h hk ha]

theorem memWriteByte_slot (v : Word) :
    ∃ t, memWriteByte a v s = .ok t ∧ SlotWritten s k (insertByte (slotValue s k) a v) t :=
  routeWrite_slot s a _ k o h hk ha

theorem memWriteHalf_slot (v : Word) (ho : o % 2 = 0) :
    ∃ t, memWriteHalf a v s = .ok t ∧ SlotWritten s k (insertHalf (slotValue s k) a v) t := by
  rw [memWriteHalf_even a v s (h.even ho)]
  exact routeWrite_slot s a _ k o h hk ha

/-- The read and write of SWL and SWR. -/
theorem readModify_slot (f : Word → Word) :
    ∃ t, ((memReadWord false (wordAddress a) s).andThen fun p => memWriteWord (wordAddress a) (f p.1) s) = .ok t ∧
      SlotWritten s k (f (slotValue s k)) t := by
  rw [memReadWord_slot_word h hk ha]
  obtain ⟨t, e, ht⟩ := routeWrite_slot s a (fun _ => f (slotValue s k)) k o h hk ha
  exact ⟨t, (memWriteWord_word a _ s).trans e, ht⟩

end

/-- Word accesses to a slot, at its own address. -/
theorem memReadWord_slot (lw : Bool) {s : State} {a : Word} {k : Nat} (h : AtSlot s.cfg a k 0) (hk : k < 35)
    (ha : s.cfg.regfileData = .aliased) : memReadWord lw a s = .ok (slotValue s k, s) := by
  rw [memReadWord_aligned lw a s h.offset, routeRead_slot lw s a k 0 h hk ha]

theorem memWriteWord_slot {s : State} {a : Word} {k : Nat} (v : Word) (h : AtSlot s.cfg a k 0) (hk : k < 35)
    (ha : s.cfg.regfileData = .aliased) : ∃ t, memWriteWord a v s = .ok t ∧ SlotWritten s k v t := by
  rw [memWriteWord_aligned a v s h.offset]
  exact routeWrite_slot s a _ k 0 h hk ha

/-- A data store to a register slot completes once its access does. -/
theorem slotStore_completes {i : Instr} {s : State} {r : Res State} {k : Nat} {w : Word}
    (h : exec i s = finish s r id) (hr : ∃ t, r = .ok t ∧ SlotWritten s k w t) :
    Completes i s (SlotEffect s k w) := by
  obtain ⟨t, e, ht⟩ := hr
  exact store_completes h ⟨t, e, slotEffect_commit s t k w ht⟩

/-- LL is a load that sets `llbit` too (44_load_store.md R420). -/
theorem ll_completes {s : State} {rs rt : RegNum} {imm : Imm16} {w : Word}
    (h : memReadWord false (dataAddress s rs imm) s = .ok (w, s)) :
    Completes (.ll rs rt imm) s fun t =>
      LoopKept s t ∧ t.cache = s.cache ∧ t.llbit = true ∧ Advanced s t ∧
      RegWritten s t rt w ∧ BytesKept s t (RegBytes s.cfg rt) :=
  have hr := regEffect_commit s rt w
  ⟨_, finish_ok s _ _ _ h, ⟨hr.gas, hr.steps, hr.status, hr.refused, hr.cfg, hr.inputs⟩, hr.cache, rfl,
    ⟨hr.pc, hr.npc, hr.ds⟩, ⟨hr.regs, hr.hi, hr.lo⟩, hr.bytes⟩

/-- SC to a register slot: its register write comes after the store (44_load_store.md R421; 40_step_cycle.md R208). -/
theorem sc_slot_completes {s s1 : State} {rs rt : RegNum} {imm : Imm16} {k : Nat} (hl : s.llbit = true)
    (h : memWriteWord (dataAddress s rs imm) (s.getReg rt) s = .ok s1) (hw : SlotWritten s k (s.getReg rt) s1) :
    Completes (.sc rs rt imm) s fun t =>
      HiddenKept s t ∧ Advanced s t ∧
      (∀ j, t.getReg j =
        if j = rt ∧ rt ≠ 0 then 1 else if j.toNat = k ∧ j ≠ 0 then s.getReg rt else s.getReg j) ∧
      t.getHI = (if k = 33 then s.getReg rt else s.getHI) ∧ t.getLO = (if k = 34 then s.getReg rt else s.getLO) ∧
      BytesKept s t fun x => RegBytes s.cfg rt x ∨ (k ≠ 0 ∧ InSlot s.cfg k x) := by
  obtain ⟨m, rfl⟩ : ∃ m, s1 = { s with mem := m } := ⟨_, hw.keep⟩
  have hr := regEffect_commit { s with mem := m } rt 1
  refine ⟨_, (exec_sc_linked s rs rt imm hl).trans (finish_ok s _ _ _ h),
    ⟨⟨hr.gas, hr.steps, hr.status, hr.refused, hr.cfg, hr.inputs⟩, hr.cache, hr.llbit⟩, ⟨hr.pc, hr.npc, hr.ds⟩,
    fun j => ?_, hr.hi.trans hw.hi, hr.lo.trans hw.lo, fun x hpc hx => ?_⟩
  · rw [hr.regs, hw.regs]
  · exact (hr.bytes x hpc fun hreg => hx (.inl hreg)).trans (hw.bytes x fun hslot => hx (.inr hslot))

/-- Settles O55: word accesses at slot `k` are routed to the view's rules or refused. -/
theorem registerSlotWord : Obligations.RegisterSlotWord := by
  intro s rs rt imm k ea v hc hk hea
  have hat : AtSlot s.cfg ea k 0 := atSlot s.cfg ea k 0 hc hk (by decide) hea
  refine ⟨fun hr => ?_, fun ha => ?_⟩
  · have hl := loadsStop_of_refused s rs rt imm .regfileData (.inl ⟨hat.cls, hr, rfl⟩)
    have hs := storesStop_of_refused s rs rt imm .regfileData (.inl ⟨hat.cls, hr, rfl⟩)
    have hlw : memReadWord true ea s = .refuse .regfileData := by
      rw [memReadWord_aligned true ea s hat.offset, routeRead_refused true s _ hat.cls hr]
    exact ⟨finish_refuse s _ _ _ hlw, hs.sw hat.offset, hl.ll hat.offset, hs.sc hat.offset⟩
  · have hstore := memWriteWord_slot v hat hk ha
    refine ⟨load_completes rfl ⟨_, memReadWord_slot true hat hk ha, rfl⟩, slotStore_completes rfl hstore,
      ll_completes (memReadWord_slot false hat hk ha), fun hl => ?_⟩
    obtain ⟨s1, e, hw⟩ := hstore
    exact sc_slot_completes hl e hw

/-- Settles O56: sub-word accesses at byte `o` of slot `k` extract from, or merge into, the slot's value. -/
theorem registerSlotSubword : Obligations.RegisterSlotSubword := by
  intro s rs rt imm k o ea r w hc hk ho hea
  have hat : AtSlot s.cfg ea k o := atSlot s.cfg ea k o hc hk ho hea
  have hoff : byteOffset ea = o := hat.offset
  refine ⟨fun hr => ?_, fun ha => ?_⟩
  · have hl := loadsStop_of_refused s rs rt imm .regfileData (.inl ⟨hat.cls, hr, rfl⟩)
    have hs := storesStop_of_refused s rs rt imm .regfileData (.inl ⟨hat.cls, hr, rfl⟩)
    exact ⟨hl.lb, hl.lbu, hs.sb, hl.lwl, hl.lwr, hs.swl, hs.swr,
      fun he => ⟨hl.lh (hat.even he), hl.lhu (hat.even he), hs.sh (hat.even he)⟩⟩
  · have hbyte := memReadByte_slot hat hk ha
    have hword := memReadWord_slot_word hat hk ha
    refine ⟨load_completes rfl ⟨_, hbyte, by rw [sextByte_zeroExtend]⟩,
      load_completes rfl ⟨_, hbyte, by rw [zextByte_zeroExtend]⟩,
      ⟨mergeLwl w r ea, load_completes rfl ⟨_, hword, rfl⟩, fun j hj => ?lwl⟩,
      ⟨mergeLwr w r ea, load_completes rfl ⟨_, hword, rfl⟩, fun j hj => ?lwr⟩,
      ⟨insertByte w ea r, slotStore_completes rfl (memWriteByte_slot hat hk ha r), fun j hj => ?sb⟩,
      ⟨mergeSwl w r ea, slotStore_completes rfl (readModify_slot hat hk ha (mergeSwl · r ea)), fun j hj => ?swl⟩,
      ⟨mergeSwr w r ea, slotStore_completes rfl (readModify_slot hat hk ha (mergeSwr · r ea)), fun j hj => ?swr⟩,
      fun he => ?half⟩
    case lwl => simp only [byteAt_mergeLwl _ _ _ _ hj, hoff, Nat.lt_sub_iff_add_lt]
    case lwr =>
      have hcond : 3 ≤ j + o ↔ ¬ j < 3 - o := by omega
      simp only [byteAt_mergeLwr _ _ _ _ hj, hoff, hcond, ite_not]
    case sb =>
      rw [byteAt_insertByte _ _ _ _ hj, hoff]
      rfl
    case swl => simp only [byteAt_mergeSwl _ _ _ _ hj, hoff, ← Nat.not_lt, ite_not]
    case swr => rw [byteAt_mergeSwr _ _ _ _ hj, hoff]
    case half =>
      have hhalf := memReadHalf_slot hat hk ha he
      obtain ⟨hlh, hlhu⟩ := halfLoads_complete (rt := rt) hhalf
      refine ⟨hlh, hlhu, insertHalf w ea r, slotStore_completes rfl (memWriteHalf_slot hat hk ha r he),
        fun j hj => ?_⟩
      rw [byteAt_insertHalf _ _ _ _ hj (getLsbD_zero_false ea (hat.even he)), hoff]
      rfl

/-! The oracle trigger -/

/-- A layout fills the window exactly (20_memory.md R123). -/
theorem oracleLayout_length {c : Config} {bytes : List Byte} {ws : List Word} (h : oracleLayout c bytes = some ws) :
    ws.length = c.oracleWinWords := by
  unfold oracleLayout at h
  split at h
  · split at h
    · obtain rfl := Option.some.inj h
      assumption
    · cases h
  · cases h

theorem oracleAnswer_none {s : State} {key : Key} (hc : assoc key s.cache = none)
    (ho : assoc key s.inputs.oracle = none) : oracleAnswer s key = none := by
  rw [oracleAnswer, hc, ho]

/-- The answer comes from the cache, else from the provider (20_memory.md R121). -/
theorem oracleAnswer_some {s : State} {key : Key} {bytes : List Byte}
    (h : assoc key s.cache = some bytes ∨ (assoc key s.cache = none ∧ assoc key s.inputs.oracle = some bytes)) :
    oracleAnswer s key = some bytes := by
  rcases h with h | ⟨h, h'⟩
  · rw [oracleAnswer, h]
  · rw [oracleAnswer, h, h']

/-- The state a trigger with answer `bytes` and window words `ws` leaves (20_memory.md R121). -/
def answered (s : State) (bytes : List Byte) (ws : List Word) : State :=
  { s with
    mem := setMwords s.mem s.cfg.oracleWinBase ws
    cache := cachePut (oracleKey s) bytes s.cache }

section
variable {s : State} {bytes : List Byte} {ws : List Word}

theorem oracleTrigger_miss (h : oracleAnswer s (oracleKey s) = none) :
    oracleTrigger s = .error (.oracleMiss (oracleKey s)) := by
  simp only [oracleTrigger, h]

theorem oracleTrigger_unfit (h : oracleAnswer s (oracleKey s) = some bytes) (hl : oracleLayout s.cfg bytes = none) :
    oracleTrigger s = .refuse .oracleFit := by
  simp only [oracleTrigger, h, hl]

theorem oracleTrigger_fit (h : oracleAnswer s (oracleKey s) = some bytes)
    (hl : oracleLayout s.cfg bytes = some ws) : oracleTrigger s = .ok (triggerWord s ws, answered s bytes ws) := by
  simp only [oracleTrigger, h, hl, answered]

/-- LW of the trigger runs the oracle trigger (20_memory.md R112, R118). -/
theorem memReadWord_trigger (hc : s.cfg.wf = true) : memReadWord true s.cfg.oracleTrigger s = oracleTrigger s := by
  have ha := s.cfg.apart hc
  rw [memReadWord_aligned _ _ _ ha.trig, wordAddress_of_aligned _ ha.trig]
  simp only [routeRead, classOf_trig _ ha, if_true]

/-- The answer is in the cache under the key, with every earlier entry. -/
theorem answered_cache (k : Key) (h : oracleAnswer s (oracleKey s) = some bytes) :
    assoc k (answered s bytes ws).cache = if k = oracleKey s then some bytes else assoc k s.cache := by
  refine (assoc_cachePut _ _ _ _).trans ?_
  unfold oracleAnswer at h
  cases hkey : assoc (oracleKey s) s.cache with
  | none => rfl
  | some b =>
    simp only [hkey] at h
    simp only [h]

/-- The window is apart from the Register File View. -/
theorem answered_slot (ha : s.cfg.Apart) (hl : ws.length = s.cfg.oracleWinWords) (k : Nat) (hk : k < 35) :
    (answered s bytes ws).slot k = s.slot k :=
  mword_window_slot s.mem s.cfg ws k ha hl hk

theorem answered_regWritten (ha : s.cfg.Apart) (hl : ws.length = s.cfg.oracleWinWords) (n : RegNum) (v : Word) :
    RegWritten s ((answered s bytes ws).setReg n v) n v where
  regs k := by
    have hk : k.toNat < 35 := by have := k.isLt; omega
    rw [State.getReg_setReg]
    unfold State.getReg
    rw [answered_slot ha hl _ hk]
  hi := (State.getHI_setReg _ n v).trans (answered_slot ha hl _ (by decide))
  lo := (State.getLO_setReg _ n v).trans (answered_slot ha hl _ (by decide))

/-- Window word `k` holds word `k` of the layout. -/
theorem answered_window (ha : s.cfg.Apart) (hl : ws.length = s.cfg.oracleWinWords) (k : Nat) (w : Word)
    (hk : ws[k]? = some w) :
    (answered s bytes ws).mword (s.cfg.oracleWinBase + BitVec.ofNat 32 (4 * k)) = w :=
  mword_setMwords_get s.mem _ ws k w (by have := ha.win; omega) hk

theorem answered_readByte (hl : ws.length = s.cfg.oracleWinWords) (x : Nat)
    (hx : ¬ InBytes s.cfg.oracleWinBase (4 * s.cfg.oracleWinWords) x) :
    readByte (answered s bytes ws).mem x = readByte s.mem x :=
  readByte_setMwords_of_ne _ _ _ _ fun k hk e => hx ⟨k, hl ▸ hk, e⟩

/-- The trigger load gives the window's new word where the trigger lies in the window. -/
theorem triggerWord_in_window (ha : s.cfg.Apart) (hl : ws.length = s.cfg.oracleWinWords) (k : Nat) (w : Word)
    (hk : ws[k]? = some w) (ht : s.cfg.oracleWinBase + BitVec.ofNat 32 (4 * k) = s.cfg.oracleTrigger) :
    triggerWord s ws = w := by
  obtain ⟨hlt, -⟩ := List.getElem?_eq_some_iff.1 hk
  have hin := (trigger_in_window s.cfg ha).2 ⟨k, hl ▸ hlt, ht⟩
  have hindex : (s.cfg.oracleTrigger - s.cfg.oracleWinBase).toNat / 4 = k := by
    have := ha.win
    rw [← ht]
    bv_omega
  simp only [triggerWord, hin, if_true, hindex, List.getD_eq_getElem?_getD, hk, Option.getD_some]

/-- Elsewhere it gives the trigger's own word. -/
theorem triggerWord_outside (ha : s.cfg.Apart) (hl : ws.length = s.cfg.oracleWinWords)
    (h : ∀ k, k < ws.length → s.cfg.oracleWinBase + BitVec.ofNat 32 (4 * k) ≠ s.cfg.oracleTrigger) :
    triggerWord s ws = s.mword s.cfg.oracleTrigger := by
  have hout : inWords s.cfg.oracleWinBase s.cfg.oracleWinWords s.cfg.oracleTrigger = false := by
    rw [← Bool.not_eq_true, trigger_in_window s.cfg ha]
    rintro ⟨k, hk, e⟩
    exact h k (hl ▸ hk) e
  simp only [triggerWord, hout, Bool.false_eq_true, if_false]

end

/-- A register write leaves a word outside the Register File View alone. -/
theorem mword_setReg_of_word (u : State) (n : RegNum) (v a : Word) (hb : u.cfg.regBase.toNat % 4 = 0)
    (ha : a.toNat % 4 = 0) (hr : inWords u.cfg.regBase Config.slots a = false) :
    (u.setReg n v).mword a = u.mword a := by
  unfold State.setReg
  split
  · rfl
  · exact mword_setSlot_of_word u _ v a hb ha hr (by have := n.isLt; omega)

/-- The whole effect of a trigger load into register `n` with answer `bytes` and window words `ws`
(20_memory.md R121). -/
structure TriggerEffect (s : State) (n : RegNum) (bytes : List Byte) (ws : List Word) (t : State) : Prop
    extends LoopKept s t, Advanced s t, RegWritten s t n (triggerWord s ws) where
  llbit : t.llbit = s.llbit
  cache : ∀ k, assoc k t.cache = if k = oracleKey s then some bytes else assoc k s.cache
  window : ∀ k w, ws[k]? = some w → t.mword (s.cfg.oracleWinBase + BitVec.ofNat 32 (4 * k)) = w
  bytes : BytesKept s t fun x => RegBytes s.cfg n x ∨ InBytes s.cfg.oracleWinBase (4 * s.cfg.oracleWinWords) x

/-- The register write and the commit keep the words of the window. -/
theorem commit_setReg_window (u : State) (n : RegNum) (v : Word) (ha : u.cfg.Apart) (k : Nat)
    (hk : k < u.cfg.oracleWinWords) :
    (commit false .seq (u.setReg n v)).mword (u.cfg.oracleWinBase + BitVec.ofNat 32 (4 * k)) =
      u.mword (u.cfg.oracleWinBase + BitVec.ofNat 32 (4 * k)) := by
  have haligned := win_aligned _ ha k hk
  have hslot := win_not_slot _ ha k hk
  rw [commit_mword _ _ _ _ (by rw [State.setReg_cfg]; exact ha.reg.1) haligned
      (by rw [State.setReg_cfg]; exact hslot), mword_setReg_of_word u n v _ ha.reg.1 haligned hslot]

theorem triggerEffect_commit (s : State) (n : RegNum) (bytes : List Byte) (ws : List Word) (ha : s.cfg.Apart)
    (hans : oracleAnswer s (oracleKey s) = some bytes) (hl : ws.length = s.cfg.oracleWinWords) :
    TriggerEffect s n bytes ws (commit false .seq ((answered s bytes ws).setReg n (triggerWord s ws))) :=
  have hr := regEffect_commit (answered s bytes ws) n (triggerWord s ws)
  have hw := answered_regWritten (bytes := bytes) ha hl n (triggerWord s ws)
  { gas := hr.gas
    steps := hr.steps
    status := hr.status
    refused := hr.refused
    cfg := hr.cfg
    inputs := hr.inputs
    pc := hr.pc
    npc := hr.npc
    ds := hr.ds
    regs := fun k => (commit_getReg _ _ _ k).trans (hw.regs k)
    hi := (commit_getHI _ _ _).trans hw.hi
    lo := (commit_getLO _ _ _).trans hw.lo
    llbit := hr.llbit
    cache := fun k => by rw [hr.cache, answered_cache k hans]
    window := fun k w hk => by
      obtain ⟨hlt, -⟩ := List.getElem?_eq_some_iff.1 hk
      exact (commit_setReg_window (answered s bytes ws) n _ ha k (hl ▸ hlt)).trans (answered_window ha hl k w hk)
    bytes := fun x hpc hx =>
      (hr.bytes x hpc fun h => hx (.inl h)).trans (answered_readByte hl x fun h => hx (.inr h)) }

/-- Settles O57: an LW of the trigger is the oracle trigger, whose window lies apart from the register slots. -/
theorem oracleTriggerLoad : Obligations.OracleTriggerLoad := by
  intro s rs rt imm hc hea key win
  have ha := s.cfg.apart hc
  have hread : memReadWord true (dataAddress s rs imm) s = oracleTrigger s := by rw [hea, memReadWord_trigger hc]
  refine ⟨oracleKey_keyWords s, oracleKey_other s, fun h h' => ?miss, fun bytes h =>
    have hans : oracleAnswer s key = some bytes := oracleAnswer_some h
    ⟨fun hl => ?unfit, fun ws hl => ?fit⟩⟩
  case miss => exact finish_error s _ _ _ (hread.trans (oracleTrigger_miss (oracleAnswer_none h h')))
  case unfit => exact finish_refuse s _ _ _ (hread.trans (oracleTrigger_unfit hans hl))
  case fit =>
    have hlen := oracleLayout_length hl
    have ht := triggerEffect_commit s rt bytes ws ha hans hlen
    refine ⟨hlen, _, finish_ok s _ _ _ (hread.trans (oracleTrigger_fit hans hl)), ht.toLoopKept, ht.llbit,
      ht.toAdvanced, ht.cache, ht.window, fun k w hk hwin => ?_, fun hout => ?_, ht.bytes⟩
    · rw [← triggerWord_in_window ha hlen k w hk hwin]
      exact ht.toRegWritten
    · rw [← triggerWord_outside ha hlen hout]
      exact ht.toRegWritten

end Sys2Proof.Machine
end

section
/-! PROOF. Decoding and encoding (30_encoding.md). Each obligation stands after the laws it needs beside those of
Laws/. -/

namespace Sys2Proof.Laws.RoundTrip

/-- The laws of Laws/PerInstr.lean, put together over the opcode table. -/
theorem roundTrip : ∀ i : Instr, Statement i
  | .sll .. => sll .. | .movci .. => movci .. | .srl .. => srl .. | .sra .. => sra .. | .sllv .. => sllv ..
  | .srlv .. => srlv .. | .srav .. => srav .. | .jr .. => jr .. | .jalr .. => jalr .. | .movz .. => movz ..
  | .movn .. => movn .. | .syscall .. => syscall .. | .break_ .. => break_ .. | .sync .. => sync ..
  | .mfhi .. => mfhi .. | .mthi .. => mthi .. | .mflo .. => mflo .. | .mtlo .. => mtlo .. | .mult .. => mult ..
  | .multu .. => multu .. | .div .. => div .. | .divu .. => divu .. | .add .. => add .. | .addu .. => addu ..
  | .sub .. => sub .. | .subu .. => subu .. | .and .. => and .. | .or .. => or .. | .xor .. => xor ..
  | .nor .. => nor .. | .slt .. => slt .. | .sltu .. => sltu .. | .tge .. => tge .. | .tgeu .. => tgeu ..
  | .tlt .. => tlt .. | .tltu .. => tltu .. | .teq .. => teq .. | .tne .. => tne .. | .bltz .. => bltz ..
  | .bgez .. => bgez .. | .bltzl .. => bltzl .. | .bgezl .. => bgezl .. | .tgei .. => tgei ..
  | .tgeiu .. => tgeiu .. | .tlti .. => tlti .. | .tltiu .. => tltiu .. | .teqi .. => teqi ..
  | .tnei .. => tnei .. | .bltzal .. => bltzal .. | .bgezal .. => bgezal .. | .bltzall .. => bltzall ..
  | .bgezall .. => bgezall .. | .synci .. => synci .. | .madd .. => madd .. | .maddu .. => maddu ..
  | .mul .. => mul .. | .msub .. => msub .. | .msubu .. => msubu .. | .clz .. => clz .. | .clo .. => clo ..
  | .sdbbp .. => sdbbp .. | .j .. => j .. | .jal .. => jal .. | .beq .. => beq .. | .bne .. => bne ..
  | .blez .. => blez .. | .bgtz .. => bgtz .. | .addi .. => addi .. | .addiu .. => addiu .. | .slti .. => slti ..
  | .sltiu .. => sltiu .. | .andi .. => andi .. | .ori .. => ori .. | .xori .. => xori .. | .lui .. => lui ..
  | .cop0 .. => cop0 .. | .cop1 .. => cop1 .. | .cop2 .. => cop2 .. | .cop1x .. => cop1x .. | .beql .. => beql ..
  | .bnel .. => bnel .. | .blezl .. => blezl .. | .bgtzl .. => bgtzl .. | .jalx .. => jalx ..
  | .special3 .. => special3 .. | .lb .. => lb .. | .lh .. => lh .. | .lwl .. => lwl .. | .lw .. => lw ..
  | .lbu .. => lbu .. | .lhu .. => lhu .. | .lwr .. => lwr .. | .sb .. => sb .. | .sh .. => sh ..
  | .swl .. => swl .. | .sw .. => sw .. | .swr .. => swr .. | .cache .. => cache .. | .ll .. => ll ..
  | .lwc1 .. => lwc1 .. | .lwc2 .. => lwc2 .. | .pref .. => pref .. | .ldc1 .. => ldc1 .. | .ldc2 .. => ldc2 ..
  | .sc .. => sc .. | .swc1 .. => swc1 .. | .swc2 .. => swc2 .. | .sdc1 .. => sdc1 .. | .sdc2 .. => sdc2 ..

end Sys2Proof.Laws.RoundTrip

namespace Sys2Proof

theorem decodeWord_encode (i : Instr) : decodeWord (encode i) = some i := (Laws.RoundTrip.roundTrip i).1

theorem fieldsOK_encode (i : Instr) : fieldsOK (encode i) i.mnemonic = true := (Laws.RoundTrip.roundTrip i).2

theorem decodeBytes_of_decodeWord {w : Word} {i : Instr} (rest : List Byte) (h : decodeWord w = some i) :
    decodeBytes (wordBytes w ++ rest) = .ok (i, rest) := by
  simp only [decodeBytes_wordBytes, h]

/-- The number of a word in the opcode table is the word's own value. -/
theorem decodeTableWord_of_decodeWord {w : Word} {i : Instr} (h : decodeWord w = some i) :
    decodeTableWord 32 w.toNat = some i := by
  have hw : BitVec.ofNat 32 (w.toNat % 2 ^ 32) = w := by
    rw [Nat.mod_eq_of_lt w.isLt, BitVec.ofNat_toNat, BitVec.setWidth_eq]
  have hbytes : decodeBytes (wordBytes w) = .ok (i, []) := by
    rw [← List.append_nil (wordBytes w), decodeBytes_of_decodeWord [] h]
  simp only [decodeTableWord, hw, hbytes]

/-! The verdict of each setting of a group's parameter (30_encoding.md R161, R166) -/

section
variable {c : Config} {w : Word} {i : Instr} (h : decodeWord w = some i)
include h

theorem decode_implemented (hp : c.presence i.group = .implemented) : decode c w = fieldsVerdict c w i := by
  simp only [decode_of_decodeWord c w i h, hp]

theorem decode_invalid (hp : c.presence i.group = .invalid) : decode c w = .invalidOpcode := by
  simp only [decode_of_decodeWord c w i h, hp]

theorem decode_unknown (hp : c.presence i.group = .unknown) : decode c w = .groupUnknown i.group := by
  simp only [decode_of_decodeWord c w i h, hp]

theorem decode_of_fieldsOK (hp : c.presence i.group = .implemented) (hf : fieldsOK w i.mnemonic = true) :
    decode c w = .op (describe w i) := by
  rw [decode_implemented h hp, fieldsVerdict, if_pos hf]

/-- Where the must-be-zero check fails, `P_STRICT_FIELDS` decides (30_encoding.md R167). -/
theorem decode_of_not_fieldsOK (hp : c.presence i.group = .implemented) (hf : fieldsOK w i.mnemonic ≠ true) :
    (c.strictFields = .ignore → decode c w = .op (describe w i)) ∧
    (c.strictFields = .invalid → decode c w = .invalidOpcode) ∧
    (c.strictFields = .refuse → decode c w = .fieldsRefused) := by
  rw [decode_implemented h hp, fieldsVerdict, if_neg hf]
  refine ⟨fun hs => ?_, fun hs => ?_, fun hs => ?_⟩ <;> simp only [hs]

/-- The must-be-zero check of a word, as the encoder's word for its instruction. -/
theorem encode_eq_iff_fieldsOK : encode i = w ↔ fieldsOK w i.mnemonic = true := by
  obtain ⟨hs, hi⟩ := decodeWord_eq w i h
  rw [← encode_ofFields w i.mnemonic hs, ← hi]

end

theorem decode_encode (c : Config) (i : Instr) (hp : c.presence i.group = .implemented) :
    decode c (encode i) = .op (describe (encode i) i) :=
  decode_of_fieldsOK (decodeWord_encode i) hp (fieldsOK_encode i)

end Sys2Proof

namespace Sys2Proof.Machine

/-- Settles O6: the round trip of each instruction's word, of which the byte and the table reading are views; the word
meets its must-be-zero check, so a parameter set with the group decodes it. -/
theorem encodeDecode : Obligations.EncodeDecode :=
  ⟨fun i rest =>
    have h := decodeWord_encode i
    ⟨h, decodeBytes_of_decodeWord rest h, decodeTableWord_of_decodeWord h⟩,
    fun c i hi => decode_encode c i (beq_iff_eq.1 hi)⟩

/-- Settles O7: the encoder gives a decoded word back exactly when the word's must-be-zero check holds. -/
theorem fieldChecks : Obligations.FieldChecks := by
  intro c w i h hp
  rw [ne_eq, encode_eq_iff_fieldsOK h]
  refine ⟨decode_of_fieldsOK h hp, fun hf => ?_⟩
  obtain ⟨hignore, hinvalid, hrefuse⟩ := decode_of_not_fieldsOK h hp hf
  exact ⟨fun hs => ⟨hignore hs, decode_encode c i hp⟩, hinvalid, hrefuse⟩

/-! The reserved entries of each map (30_encoding.md R157 to R160, R165) -/

theorem assoc_special_none : ∀ k < 64, assoc k specialMap = none ↔
    k = 0x05 ∨ k = 0x0E ∨ (0x14 ≤ k ∧ k ≤ 0x17) ∨ (0x1C ≤ k ∧ k ≤ 0x1F) ∨ k = 0x28 ∨ k = 0x29 ∨
      (0x2C ≤ k ∧ k ≤ 0x2F) ∨ k = 0x35 ∨ 0x37 ≤ k := by decide

theorem assoc_regimm_none : ∀ k < 32, assoc k regimmMap = none ↔
    (0x04 ≤ k ∧ k ≤ 0x07) ∨ k = 0x0D ∨ k = 0x0F ∨ (0x14 ≤ k ∧ k ≤ 0x1E) := by decide

theorem assoc_special2_none : ∀ k < 64, assoc k special2Map = none ↔
    k = 0x03 ∨ (0x06 ≤ k ∧ k ≤ 0x1F) ∨ (0x22 ≤ k ∧ k ≤ 0x3E) := by decide

/-- The three second-level maps have no entry in the primary map either. -/
theorem assoc_primary_none : ∀ k < 64, assoc k primaryMap = none ↔ k ∈ [0x00, 0x01, 0x1C] ∨
    k ∈ [0x18, 0x19, 0x1A, 0x1B, 0x1E, 0x27, 0x2C, 0x2D, 0x34, 0x37, 0x3B, 0x3C, 0x3F] := by decide

theorem decodeWord_eq_none_iff (w : Word) : decodeWord w = none ↔ selectMnemonic w = none := Option.map_eq_none_iff

theorem decode_reserved (c : Config) (w : Word) (h : decodeWord w = none) : decode c w = .invalidOpcode := by
  simp only [decode, h]

/-- Settles O8: a word selects no entry exactly when its selector is not listed in the map its primary opcode leads
to. -/
theorem reservedEncodings : Obligations.ReservedEncodings := by
  intro c w op funct sel reserved
  have hnone : decodeWord w = none ↔ reserved := by
    rw [decodeWord_eq_none_iff]
    by_cases h0 : op = 0x00
    · rw [select_special w (BitVec.eq_of_toNat_eq h0), assoc_special_none _ (functField w).isLt]
      simp [reserved, h0, funct, functField]
    by_cases h1 : op = 0x01
    · rw [select_regimm w (BitVec.eq_of_toNat_eq h1), assoc_regimm_none _ (rtField w).isLt]
      simp [reserved, h1, sel, rtField]
    by_cases h2 : op = 0x1C
    · rw [select_special2 w (BitVec.eq_of_toNat_eq h2), assoc_special2_none _ (functField w).isLt]
      simp [reserved, h2, funct, functField]
    · rw [select_primary w (fun e => h0 (congrArg BitVec.toNat e)) (fun e => h1 (congrArg BitVec.toNat e))
        (fun e => h2 (congrArg BitVec.toNat e)), assoc_primary_none _ (opField w).isLt]
      change op ∈ _ ∨ op ∈ _ ↔ _
      simp [reserved, h0, h1, h2]
  exact ⟨hnone, fun h => decode_reserved c w (hnone.2 h)⟩

/-! The unmodelled groups (45_system.md R450 to R458) -/

theorem toPresence_ne_implemented (a : Absence) : a.toPresence ≠ .implemented := by
  cases a <;> decide

/-- The parameter of an unmodelled group is never `implemented` (00_scope.md R7). -/
theorem presence_of_unmodelled (c : Config) (g : Group) (h : Unmodelled g) : c.presence g ≠ .implemented := by
  simp only [Unmodelled, List.mem_cons, List.not_mem_nil, or_false] at h
  rcases h with rfl | rfl | rfl | rfl | rfl | rfl <;> exact toPresence_ne_implemented _

theorem presence_cases {p : Presence} (h : p ≠ .implemented) : p = .invalid ∨ p = .unknown := by
  cases p with
  | implemented => exact absurd rfl h
  | invalid => exact .inl rfl
  | unknown => exact .inr rfl

theorem unmodelled_invalid {g : Group} {s : State} (w : Word) (h : s.cfg.presence g = .invalid) :
    unmodelled g w s = .next (errorState (.invalidOpcode w) s) := by
  simp only [unmodelled, h, takeError_eq]

theorem unmodelled_unknown {g : Group} {s : State} (w : Word) (h : s.cfg.presence g = .unknown) :
    unmodelled g w s = .refused (.groupUnknown g) := by
  simp only [unmodelled, h]

/-- The meaning of an instruction of an unmodelled group is its group's verdict on its word. -/
theorem exec_of_unmodelled (i : Instr) (h : Unmodelled i.group) (s : State) :
    exec i s = unmodelled i.group (encode i) s := by
  cases i with
  | movci | syscall | break_ | tge | tgeu | tlt | tltu | teq | tne | tgei | tgeiu | tlti | tltiu | teqi | tnei
  | synci | sdbbp | jalx | special3 | cop0 | cop1 | cop2 | cop1x | cache | pref | lwc1 | lwc2 | ldc1 | ldc2 | swc1
  | swc2 | sdc1 | sdc2 => rfl
  | _ => exact absurd h (of_decide_eq_false rfl) -- every other instruction's group is modelled

/-- A word that decodes to InvalidOpcode ends the run before the charge (40_step_cycle.md R203). -/
theorem step_of_invalidOpcode {s : State} {w : Word} (h : Fetches s w) (hd : decode s.cfg w = .invalidOpcode) :
    step s = .next (errorState (.invalidOpcode w) s) := by
  simp only [step_of_fetches s w h, runWord, hd, takeError_eq]

/-- A word of an unknown group is refused before the charge (40_step_cycle.md R203). -/
theorem step_of_groupUnknown {s : State} {w : Word} {g : Group} (h : Fetches s w)
    (hd : decode s.cfg w = .groupUnknown g) : step s = .refused (.groupUnknown g) := by
  simp only [step_of_fetches s w h, runWord, hd]

/-! The rows of the opcode table that have no fixed field. A row is named by its mnemonic; the rest is read off the
maps. -/

section
variable {val : Word} {g : Group} {f : Word → Instr} (m : Mnemonic)

theorem freeRow_special (hv : opField val = 0x00 := by decide)
    (hs : assoc (functField val).toNat specialMap = some m := by decide)
    (hf : ∀ w, f w = Instr.ofFields w m := by exact fun _ => rfl) (hg : m.group = g := by rfl)
    (hk : ∀ w, fieldsOK w m = true := by exact fun _ => rfl) : RowIs 0xFC00003F val NoFixed g f :=
  rowIs_special m hv hs hf hg (fields_none hk)

theorem freeRow_special2 (hv : opField val = 0x1C := by decide)
    (hs : assoc (functField val).toNat special2Map = some m := by decide)
    (hf : ∀ w, f w = Instr.ofFields w m := by exact fun _ => rfl) (hg : m.group = g := by rfl)
    (hk : ∀ w, fieldsOK w m = true := by exact fun _ => rfl) : RowIs 0xFC00003F val NoFixed g f :=
  rowIs_special2 m hv hs hf hg (fields_none hk)

theorem freeRow_regimm (hv : opField val = 0x01 := by decide)
    (hs : assoc (rtField val).toNat regimmMap = some m := by decide)
    (hf : ∀ w, f w = Instr.ofFields w m := by exact fun _ => rfl) (hg : m.group = g := by rfl)
    (hk : ∀ w, fieldsOK w m = true := by exact fun _ => rfl) : RowIs 0xFC1F0000 val NoFixed g f :=
  rowIs_regimm m hv hs hf hg (fields_none hk)

theorem freeRow_primary (hv : opField val ≠ 0x00 ∧ opField val ≠ 0x01 ∧ opField val ≠ 0x1C := by decide)
    (hs : assoc (opField val).toNat primaryMap = some m := by decide)
    (hf : ∀ w, f w = Instr.ofFields w m := by exact fun _ => rfl) (hg : m.group = g := by rfl)
    (hk : ∀ w, fieldsOK w m = true := by exact fun _ => rfl) : RowIs 0xFC000000 val NoFixed g f :=
  rowIs_primary m hv hs hf hg (fields_none hk)

end

/-- Settles O60: each row is an entry of the opcode maps with no fixed field, and the meaning and the decode verdict of
its instruction both answer by the group's parameter. -/
theorem unmodelledGroups : Obligations.UnmodelledGroups :=
  ⟨freeRow_special .movci, freeRow_special .syscall, freeRow_special .break_, freeRow_special .tge,
    freeRow_special .tgeu, freeRow_special .tlt, freeRow_special .tltu, freeRow_special .teq, freeRow_special .tne,
    freeRow_regimm .tgei, freeRow_regimm .tgeiu, freeRow_regimm .tlti, freeRow_regimm .tltiu, freeRow_regimm .teqi,
    freeRow_regimm .tnei, freeRow_regimm .synci, freeRow_special2 .sdbbp, freeRow_primary .cop0,
    freeRow_primary .cop1, freeRow_primary .cop2, freeRow_primary .cop1x, freeRow_primary .jalx,
    freeRow_primary .special3, freeRow_primary .cache, freeRow_primary .lwc1, freeRow_primary .lwc2,
    freeRow_primary .pref, freeRow_primary .ldc1, freeRow_primary .ldc2, freeRow_primary .swc1, freeRow_primary .swc2,
    freeRow_primary .sdc1, freeRow_primary .sdc2, fun i hi s =>
    have hexec := exec_of_unmodelled i hi s
    ⟨presence_cases (presence_of_unmodelled s.cfg i.group hi),
      fun hp => hexec.trans (unmodelled_invalid _ hp),
      fun hp => hexec.trans (unmodelled_unknown _ hp),
      fun _ hw hd => ⟨fun hp => step_of_invalidOpcode hw (decode_invalid hd hp),
        fun hp => step_of_groupUnknown hw (decode_unknown hd hp)⟩⟩⟩

/-- Settles O9: the verdict follows the group's parameter, and CORE and the unmodelled groups have theirs fixed. -/
theorem groupVerdicts : Obligations.GroupVerdicts := fun c _ i h =>
  ⟨decode_of_fieldsOK h, decode_invalid h, decode_unknown h, fun hg => congrArg c.presence hg,
    presence_of_unmodelled c i.group⟩

/-! Words written out in the spec (30_encoding.md R157 to R160, R168) -/

/-- Settles O10: each word is evaluated. -/
theorem decodesSpecWords : Obligations.DecodesSpecWords := by
  unfold Obligations.DecodesSpecWords
  decide

/-- A shift to register 0 writes nothing (10_state.md R54). -/
theorem sll_zero_completes (s : State) (rt : RegNum) (sa : BitVec 5) :
    Completes (.sll rt 0 sa) s (RegEffect s 0 0) :=
  reg_completes _ s 0 0 (by rw [State.setReg_zero]; exact congrArg commitSeq (State.setReg_zero s _))

/-- Settles O11: each of the three words is an SLL to register 0, whose write has no effect; SYNC does not read its
stype. -/
theorem noOpForms : Obligations.NoOpForms :=
  ⟨by decide, by decide, by decide, fun s sa _ => ⟨sll_zero_completes s 0 sa, rfl⟩⟩

/-! The operand forms and the fields as numbers (30_encoding.md R150, R155) -/

theorem boff_eq (imm : Imm16) : boff imm = BitVec.ofInt 32 (imm.toInt * 4) := by
  rw [boff, simm_eq, BitVec.shiftLeft_eq_mul_twoPow, BitVec.ofInt_mul]
  rfl

theorem append_toNat_eq {n m : Nat} (a : BitVec n) (b : BitVec m) : (a ++ b).toNat = a.toNat * 2 ^ m + b.toNat := by
  rw [BitVec.toNat_append, ← Nat.shiftLeft_add_eq_or_of_lt b.isLt, Nat.shiftLeft_eq]

theorem field_toNat (w : Word) (lo len : Nat) : (w.extractLsb' lo len).toNat = w.toNat / 2 ^ lo % 2 ^ len := by
  rw [BitVec.extractLsb'_toNat, Nat.shiftRight_eq_div_pow]

/-- A field at the low end of the word. -/
theorem field_zero_toNat (w : Word) (len : Nat) : (w.extractLsb' 0 len).toNat = w.toNat % 2 ^ len := by
  rw [field_toNat, Nat.pow_zero, Nat.div_one]

theorem zimm_toNat (imm : Imm16) : (zimm imm).toNat = imm.toNat := by
  rw [zimm_eq, BitVec.toNat_ofNat, Nat.mod_eq_of_lt (by omega)]

theorem uimm_toNat (imm : Imm16) : (uimm imm).toNat = imm.toNat * 2 ^ 16 := by
  rw [uimm_eq, BitVec.toNat_ofNat, Nat.mod_eq_of_lt (by omega)]

theorem branchTarget_eq (s : State) (imm : Imm16) : branchTarget s.getPC imm = branchGoal s imm := by
  rw [branchTarget, boff_eq, branchGoal]

theorem jumpTarget_toNat (pc : Word) (index : Index26) :
    (jumpTarget pc index).toNat = (pc + 4).toNat / 2 ^ 28 * 2 ^ 28 + index.toNat * 4 := by
  have hpc := (pc + 4).isLt
  have h0 : (0 : BitVec 2).toNat = 0 := rfl
  rw [jumpTarget, append_toNat_eq, append_toNat_eq, field_toNat, h0]
  omega

theorem jumpTarget_eq (s : State) (index : Index26) : jumpTarget s.getPC index = jumpGoal s index := by
  rw [jumpGoal, ← jumpTarget_toNat, BitVec.ofNat_toNat, BitVec.setWidth_eq]

theorem effectiveAddress_eq (r : Word) (imm : Imm16) :
    effectiveAddress r imm = BitVec.ofInt 32 (r.toNat + imm.toInt) := by
  rw [effectiveAddress, simm_eq, BitVec.ofInt_add, BitVec.ofInt_natCast, BitVec.ofNat_toNat, BitVec.setWidth_eq]

/-- Settles O12: each operand form as the number its bits give, and each raw field as a quotient and a remainder of the
word's value. -/
theorem operandForms : Obligations.OperandForms :=
  ⟨fun s imm index _ r => ⟨simm_toInt imm, zimm_toNat imm, uimm_toNat imm, branchTarget_eq s imm,
      jumpTarget_eq s index, rfl, vshamt_eq r, effectiveAddress_eq r imm⟩,
    fun w _ => ⟨rfl, rfl, field_toNat w 21 5, field_toNat w 16 5, field_toNat w 11 5, field_toNat w 6 5,
      field_zero_toNat w 6, field_zero_toNat w 16, field_zero_toNat w 26⟩⟩

end Sys2Proof.Machine
end

section
/-! PROOF. The step cycle (40_step_cycle.md R200 to R220). Each obligation stands after the laws it needs beside those
of Laws/. -/

namespace Sys2Proof.Machine

/-! Steps in a row -/

/-- The steps in a row start with one step. -/
theorem stepsFrom_succ_next {k : Nat} {s t : State} (h : stepsFrom (k + 1) s = .next t) :
    ∃ u, step s = .next u ∧ stepsFrom k u = .next t := by
  cases hs : step s with
  | next u => exact ⟨u, rfl, by simpa only [stepsFrom, hs] using h⟩
  | fault f => simp only [stepsFrom, hs, reduceCtorEq] at h
  | refused q => simp only [stepsFrom, hs, reduceCtorEq] at h

theorem totalCharge_succ {k : Nat} {s u : State} (h : step s = .next u) :
    totalCharge (k + 1) s = stepCharge s + totalCharge k u := by
  simp only [totalCharge, h]

/-- Settles O21, by induction on the number of steps: each takes its own charge off the gas (`step_gas`). -/
theorem gasConservation : Obligations.GasConservation := by
  intro k
  induction k with
  | zero =>
    intro s t h
    obtain rfl : s = t := Host.Outcome.next.inj h
    rfl
  | succ k ih =>
    intro s t h
    obtain ⟨u, hu, ht⟩ := stepsFrom_succ_next h
    have hfirst : u.gas + stepCharge s = s.gas := step_gas s u hu
    have hrest : t.gas + totalCharge k u = u.gas := ih u t ht
    rw [totalCharge_succ hu]
    omega

/-! The step on a decoded word -/

section
variable {s t : State} {w : Word} {i : Instr} (h : Fetches s w) (hd : decode s.cfg w = .op (describe w i))
include h hd

/-- The delay-slot check comes before the charge (40_step_cycle.md R204). -/
theorem step_of_ctRefused (hc : CtRefused i s) : step s = .refused .ctInDs := by
  rw [step_of_op s w i h hd, runInstr, if_pos ((ctRefused_iff s i).2 hc)]

/-- A charge that exceeds the gas ends the run before the instruction runs (40_step_cycle.md R205). -/
theorem step_of_outOfGas (hc : ¬ CtRefused i s) (hg : s.gas < s.cfg.gasCost i.mnemonic) :
    step s = .next (errorState .outOfGas s) := by
  rw [step_of_op s w i h hd, runInstr, if_neg (mt (ctRefused_iff s i).1 hc),
    if_pos (show s.gas < gasCostOf s i from hg), takeError_eq]

theorem step_of_charged (hc : ¬ CtRefused i s) (hg : s.cfg.gasCost i.mnemonic ≤ s.gas) :
    step s = ranStep i (s.cfg.gasCost i.mnemonic) s := by
  rw [ranStep_eq]
  exact step_of_decode s w i h hd (eq_false_of_ne_true (mt (ctRefused_iff s i).1 hc)) hg

/-- With the charge passed, a next state is what the instruction leaves of the charged state, closed. -/
theorem step_next_of_charged (hg : s.cfg.gasCost i.mnemonic ≤ s.gas) (ht : step s = .next t) :
    ∃ u, exec i (charge i s) = .next u ∧ closeStep u = t := by
  by_cases hc : CtRefused i s
  · cases (step_of_ctRefused h hd hc).symm.trans ht
  · rw [step_of_charged h hd hc hg, ranStep_eq] at ht
    cases hx : exec i (charge i s) with
    | next u => exact ⟨u, rfl, by simpa only [hx, closeOutcome, Host.Outcome.next.injEq] using ht⟩
    | fault f => simp only [hx, closeOutcome, reduceCtorEq] at ht
    | refused q => simp only [hx, closeOutcome, reduceCtorEq] at ht

end

/-- Settles O13: with the checks before execute passed, the step is what `ranStep` says. -/
theorem stepRunsDecoded : Obligations.StepRunsDecoded := fun _ _ _ => step_of_charged

/-- A word whose must-be-zero check is refused is refused before the charge (30_encoding.md R167; 40_step_cycle.md
R203). -/
theorem step_of_fieldsRefused {s : State} {w : Word} (h : Fetches s w) (hd : decode s.cfg w = .fieldsRefused) :
    step s = .refused .fields := by
  simp only [step_of_fetches s w h, runWord, hd]

/-- Settles O15: the three verdicts of decode that are no operation, each with its own answer of the step. -/
theorem decodeFailures : Obligations.DecodeFailures := fun _ _ h =>
  ⟨step_of_invalidOpcode h, fun _ => step_of_groupUnknown h, step_of_fieldsRefused h⟩

/-- Settles O16: `CtRefused` is the one refusal of the delay-slot check, and outside it the charge decides. -/
theorem ctInDelaySlot : Obligations.CtInDelaySlot := by
  intro s w i h hd hds
  refine ⟨fun hct hr => step_of_ctRefused h hd ⟨hct, hds, hr⟩, fun hor => ?_⟩
  have hc : ¬ CtRefused i s := by
    rintro ⟨hct, -, hr⟩
    rcases hor with hi | hp
    · cases hct.symm.trans hi
    · cases hr.symm.trans hp
  exact ⟨step_of_outOfGas h hd hc, step_of_charged h hd hc⟩

/-- Settles O17: the charge is taken once, before execute; execute and the close of the step keep the gas. -/
theorem gasCharge : Obligations.GasCharge := by
  intro s w i h hd hc
  refine ⟨step_of_outOfGas h hd hc, fun hg t ht => ?_⟩
  obtain ⟨u, hu, rfl⟩ := step_next_of_charged h hd hg ht
  obtain ⟨hgas, -⟩ := exec_loop i (charge i s) u hu
  rw [closeStep_gas, hgas, charge_gas, gasCostOf]

/-! The end of a step -/

@[simp] theorem haltedNow_closeStep (s : State) : haltedNow (closeStep s) = haltedNow s := by
  simp only [haltedNow, State.mword, closeStep_cfg, closeStep_mem]

/-- The step from `s` to `t` committed: it counts once, and the halting predicate decides the status
(40_step_cycle.md R211, R212). -/
structure Committed (s t : State) : Prop where
  budget : s.steps ≠ s.inputs.maxSteps
  steps : t.steps = s.steps + 1
  status : t.status = if haltedNow t then .halted else .running

/-- The step from `s` to `t` ended the run without a commit: by the budget or by an error (40_step_cycle.md R201,
R207). -/
structure Stopped (s t : State) : Prop where
  steps : t.steps = s.steps
  status : t.status = .budget ∨ ∃ e, t.status = .error e

/-- The close of what a live step left running is its commit. -/
theorem closeStep_committed {s u : State} (hb : s.steps ≠ s.inputs.maxSteps) (hsteps : u.steps = s.steps)
    (hu : u.status = .running) : Committed s (closeStep u) where
  budget := hb
  steps := by rw [closeStep_running u hu, hsteps]
  status := by rw [haltedNow_closeStep, closeStep_running u hu]

theorem Committed.running_or_halted {s t : State} (h : Committed s t) : t.status = .running ∨ t.status = .halted := by
  rw [h.status]
  split
  · exact .inr rfl
  · exact .inl rfl

theorem Committed.halted_iff {s t : State} (h : Committed s t) : t.status = .halted ↔ haltedNow t = true := by
  rw [h.status]
  split <;> simp [*]

theorem Stopped.not_running {s t : State} (h : Stopped s t) : t.status ≠ .running := by
  rcases h.status with hs | ⟨e, hs⟩ <;> simp [hs]

theorem Stopped.not_halted {s t : State} (h : Stopped s t) : t.status ≠ .halted := by
  rcases h.status with hs | ⟨e, hs⟩ <;> simp [hs]

/-- A step that answers a next state commits or ends the run. -/
theorem step_committed_or_stopped {s t : State} (h : step s = .next t) : Committed s t ∨ Stopped s t := by
  cases step_shape s t h with
  | budget => exact .inr ⟨rfl, .inl rfl⟩
  | early e => exact .inr ⟨rfl, .inr ⟨e, rfl⟩⟩
  | ran i u hf _ _ _ _ hx =>
    obtain ⟨-, hsteps, -⟩ := exec_loop i (charge i s) u hx
    rcases exec_status i (charge i s) u hx hf.running with hu | ⟨e, hu⟩
    · exact .inl (closeStep_committed hf.budget hsteps hu)
    · have hclose : closeStep u = u := closeStep_of_not_running u (by simp [hu])
      rw [hclose]
      exact .inr ⟨hsteps, .inr ⟨e, hu⟩⟩

/-- Settles O18: a commit leaves no error; an instruction's own error leaves the charged state, and the rules of the
modelled groups raise three errors only. -/
theorem executeErrors : Obligations.ExecuteErrors := by
  intro s t w i e h hd hg ht he
  obtain ⟨u, hu, rfl⟩ := step_next_of_charged h hd hg ht
  rcases exec_shape i (charge i s) u hu with ⟨e', rfl, -, hrule⟩ | ⟨s1, c, rfl, -, -, -, hw⟩
  · rw [closeStep_of_not_running _ (by simp [errorState])] at he ⊢
    obtain rfl : e' = e := Status.error.inj he
    exact ⟨rfl, hrule.resolve_right (not_unmodelled_of_decode s.cfg w i hd)⟩
  · have hrunning : (commit i.isCT c s1).status = .running := hw.loopKept.status.trans h.running
    have hc : Committed s (closeStep (commit i.isCT c s1)) :=
      closeStep_committed h.budget hw.loopKept.steps hrunning
    rcases hc.running_or_halted with hs | hs <;> simp [hs] at he

theorem success_iff (s : State) : success s = true ↔ s.mword s.cfg.resultA &&& s.mword s.cfg.resultB = 1 := beq_iff_eq

/-- Settles O19: a step commits or ends the run, and only a commit counts; the predicate is `haltedNow` by its cases. -/
theorem countAndHalt : Obligations.CountAndHalt := by
  refine ⟨fun s t h => ?_, fun s => ⟨fun hs => ?_, haltedNow_other s, success_iff s⟩, fun _ _ _ _ _ => rfl⟩
  · rcases step_committed_or_stopped h with hc | hs
    · refine ⟨fun _ => ⟨hc.steps, hc.halted_iff, observation_of_committed s t hc.steps⟩, fun hend => ?_⟩
      rcases hc.running_or_halted with hst | hst <;> simp [hst] at hend
    · exact ⟨fun hend => (hend.elim hs.not_running hs.not_halted).elim,
        fun _ => ⟨hs.steps, observation_of_uncounted s t hs.steps⟩⟩
  · rw [haltedNow_sentinel s hs, bne_iff_ne]

/-! The budget, and runs that end at their first turn -/

/-- The budget check at the loop head (40_step_cycle.md R201). -/
theorem step_of_budget {s : State} (hs : s.status = .running) (hr : s.refused = none)
    (hb : s.steps = s.inputs.maxSteps) : step s = .next { s with status := .budget } := by
  simp only [step, loopTurn, hr, hs, if_pos hb, endByBudget]

/-- The run's inputs are fixed while it runs (00_scope.md R10). -/
theorem step_inputs (s t : State) (h : step s = .next t) : t.inputs = s.inputs := by
  cases step_shape s t h with
  | budget => rfl
  | early => rfl
  | ran i u _ _ _ _ _ hx =>
    obtain ⟨-, -, -, -, hinputs⟩ := exec_loop i _ u hx
    rw [closeStep_inputs, hinputs, charge_inputs]

theorem runLoop_of_over (fuel : Nat) (s : State) (hr : s.refused = none) (hs : s.status ≠ .running) :
    runLoop fuel s = (s, []) := by
  cases fuel with
  | zero => rfl
  | succ fuel => simp only [runLoop, step_of_over s hr hs]

/-- A step that ends the run without a commit is the run's last, and is not shown (40_step_cycle.md R200, R210). -/
theorem runLoop_of_stopped (fuel : Nat) {s t : State} (h : step s = .next t) (hr : t.refused = none)
    (hst : Stopped s t) : runLoop (fuel + 1) s = (t, []) := by
  simp only [runLoop, h, runLoop_of_over fuel t hr hst.not_running, observation_of_uncounted s t hst.steps,
    Option.toList_none, List.append_nil]

/-- Settles O14: the budget check comes first at the loop head, so a step that counts starts below MAX_STEPS. -/
theorem budgetCheck : Obligations.BudgetCheck := by
  refine ⟨fun s => step_of_budget, fun c inp m0 pc gas0 hmax => ?_, fun s t hle h => ?_⟩
  · exact runLoop_of_stopped inp.maxSteps (step_of_budget rfl rfl hmax.symm) rfl ⟨rfl, .inl rfl⟩
  · have hinputs := step_inputs s t h
    refine ⟨hinputs, ?_⟩
    rw [hinputs]
    rcases step_committed_or_stopped h with hc | hs
    · rw [hc.steps]
      exact Nat.lt_of_le_of_ne hle hc.budget
    · exact hs.steps.trans_le hle

/-- The first fetch of a run with budget left and an aligned start pc (40_step_cycle.md R202). -/
theorem start_fetches (c : Config) (inp : RunInputs) (m0 : Memory) (pc : Word) (gas0 : Nat) (hmax : 1 ≤ inp.maxSteps)
    (hpc : pc.toNat % 4 = 0) :
    Fetches (State.start c inp m0 pc gas0) (Memory.mword (State.start c inp m0 pc gas0).mem pc) where
  running := rfl
  unmarked := rfl
  budget := (Nat.pos_iff_ne_zero.1 hmax).symm
  aligned := by rw [start_getPC]; exact hpc
  word := by rw [start_getPC]; rfl

/-- Settles O22: the first step passes fetch, decode and the delay-slot check, and fails its charge. -/
theorem outOfGasAtFirstStep : Obligations.OutOfGasAtFirstStep := by
  intro c inp m0 pc gas0 i hmax hpc w hd hg
  have hct : ¬ CtRefused i (State.start c inp m0 pc gas0) := fun ⟨_, hds, _⟩ => Bool.false_ne_true hds
  have hstep := step_of_outOfGas (start_fetches c inp m0 pc gas0 hmax hpc) hd hct hg
  have hrun : run c inp m0 pc gas0 = (errorState .outOfGas (State.start c inp m0 pc gas0), []) :=
    runLoop_of_stopped inp.maxSteps hstep rfl ⟨rfl, .inr ⟨_, rfl⟩⟩
  rw [hrun]
  exact ⟨rfl, rfl, rfl⟩

/-! The pc/npc pair -/

/-- A control transfer that answers a next state raised no error: it moves to its delay slot, or it is a branch-likely
that annuls it (40_step_cycle.md R206). -/
theorem exec_ct_cases {i : Instr} {s t : State} (hi : i.isCT = true) (h : exec i s = .next t) :
    (t.ds = true ∧ t.getPC = s.npc) ∨
      (t.ds = false ∧ t.getPC = s.npc + 4 ∧ t.npc = s.npc + 8 ∧ i.group = .likely) := by
  rcases exec_shape i s t h with ⟨e, -, hct, -⟩ | ⟨s1, c, rfl, -, hlikely, -, hw⟩
  · cases hi.symm.trans hct
  · have hds : (commit i.isCT c s1).ds = !(c == .annul) := by rw [commit_ds, hi, Bool.true_and]
    have hpc := commit_getPC i.isCT c s1
    have hnpc := commit_npc i.isCT c s1
    rw [hw.npc] at hpc hnpc
    cases c with
    | seq => exact .inl ⟨hds, hpc⟩
    | branchTo T => exact .inl ⟨hds, hpc⟩
    | annul => exact .inr ⟨hds, hpc, hnpc, hlikely rfl⟩

/-- An instruction that is no control transfer, and commits, has the control outcome `seq` (40_step_cycle.md R206). -/
theorem exec_advanced {i : Instr} {s t : State} (hi : i.isCT = false) (h : exec i s = .next t)
    (ht : t.status = .running) : Advanced s t := by
  rcases exec_shape i s t h with ⟨e, rfl, -⟩ | ⟨s1, c, rfl, hseq, -, -, hw⟩
  · cases ht
  · obtain rfl := hseq hi
    exact ⟨by rw [commit_getPC, hw.npc, Ctl.nextPair], by rw [commit_npc, hw.npc, Ctl.nextPair],
      by rw [commit_ds, hi, Bool.false_and]⟩

/-- Settles O23: outcomes `seq` and `branchTo` put the pc at the old npc, `annul` skips it; the sequential instruction
after that takes the npc the control transfer chose. -/
theorem delaySlot : Obligations.DelaySlot := by
  intro i s t hi _ hpair _ h
  have hnext : ∀ (j : Instr) (u : State), j.isCT = false → exec j t = .next u → u.status = .running →
      u.getPC = t.npc ∧ u.npc = t.npc + 4 ∧ u.ds = false := fun j u hj hx hu =>
    have ha := exec_advanced hj hx hu
    ⟨ha.pc, ha.npc, ha.ds⟩
  rcases exec_ct_cases hi h with ⟨hds, hpc⟩ | ⟨hds, hpc, hnpc, hlikely⟩
  · exact ⟨fun _ => hpc.trans hpair, fun hf => (Bool.false_ne_true (hf.symm.trans hds)).elim, hnext⟩
  · rw [hpair, BitVec.add_assoc] at hpc hnpc
    exact ⟨fun ht => (Bool.false_ne_true (hds.symm.trans ht)).elim, fun _ => ⟨hpc, hnpc, hlikely⟩, hnext⟩

end Sys2Proof.Machine
end

section
/-! PROOF. The integer ALU (41_alu.md R250 to R279). First the rows and the results this family needs beside the laws of
Laws/, then its obligations. -/

namespace Sys2Proof.Machine

/-! The rows of the opcode table with a must-be-zero field. A row is named by its mnemonic; the rest is read off the
maps. -/

section
variable {val : Word} {g : Group} {f : Word → Instr} (m : Mnemonic)

/-- A SPECIAL row whose `sa` field is 0: the three-register instructions. -/
theorem saRow_special (hv : opField val = 0x00 := by decide)
    (hs : assoc (functField val).toNat specialMap = some m := by decide)
    (hf : ∀ w, f w = Instr.ofFields w m := by exact fun _ => rfl) (hg : m.group = g := by rfl)
    (hk : ∀ w, fieldsOK w m = (saField w == 0) := by exact fun _ => rfl) : RowIs 0xFC00003F val (ZeroAt 0x7C0) g f :=
  rowIs_special m hv hs hf hg (fields_sa hk)

/-- A SPECIAL row whose `rs` field is 0: the shifts by a constant. -/
theorem rsRow_special (hv : opField val = 0x00 := by decide)
    (hs : assoc (functField val).toNat specialMap = some m := by decide)
    (hf : ∀ w, f w = Instr.ofFields w m := by exact fun _ => rfl) (hg : m.group = g := by rfl)
    (hk : ∀ w, fieldsOK w m = (rsField w == 0) := by exact fun _ => rfl) :
    RowIs 0xFC00003F val (ZeroAt 0x03E00000) g f :=
  rowIs_special m hv hs hf hg (fields_rs hk)

/-- A SPECIAL2 row whose `sa` field is 0 and whose `rt` and `rd` fields agree: the counts. -/
theorem countRow_special2 (hv : opField val = 0x1C := by decide)
    (hs : assoc (functField val).toNat special2Map = some m := by decide)
    (hf : ∀ w, f w = Instr.ofFields w m := by exact fun _ => rfl) (hg : m.group = g := by rfl)
    (hk : ∀ w, fieldsOK w m = (saField w == 0 && rtField w == rdField w) := by exact fun _ => rfl) :
    RowIs 0xFC00003F val (fun w => w.extractLsb 10 6 = 0#5 ∧ w.extractLsb 20 16 = w.extractLsb 15 11) g f :=
  rowIs_special2 m hv hs hf hg fun w => by
    rw [hk, Bool.and_eq_true, beq_iff_eq, beq_iff_eq]
    rfl

end

/-! Sums and differences -/

/-- Settles O30: ADD, SUB and ADDI are each a signed result, written or an overflow (`signedResult_spec`). -/
theorem addSubOverflow : Obligations.AddSubOverflow := by
  refine ⟨saRow_special .add, saRow_special .sub, freeRow_primary .addi, fun s rs rt rd imm => ⟨?_, ?_, ?_⟩⟩
  · exact signedResult_spec _ s rd _ rfl
  · exact signedResult_spec _ s rd _ rfl
  · rw [← simm_toInt]
    exact signedResult_spec _ s rt _ rfl

/-- Settles O31: each is one register write, whose sum or difference mod 2^32 is that of the numbers. ADDIU adds as an
effective address does. -/
theorem wrappingAddSub : Obligations.WrappingAddSub := by
  refine ⟨saRow_special .addu, saRow_special .subu, freeRow_primary .addiu, fun s rs rt rd imm => ⟨?_, ?_, ?_⟩⟩
  · exact reg_completes_eq rfl (BitVec.add_def _ _)
  · exact reg_completes_eq rfl (sub_eq_ofInt _ _)
  · exact reg_completes_eq rfl (effectiveAddress_eq _ imm)

/-! Comparisons -/

theorem setWord_decide (p : Prop) [Decidable p] : setWord (decide p) = if p then 1 else 0 := by
  simp only [setWord, decide_eq_true_eq]

theorem setWord_signedLess (a b : Word) : setWord (signedLess a b) = if a.toInt < b.toInt then 1 else 0 :=
  setWord_decide _

theorem setWord_unsignedLess (a b : Word) : setWord (unsignedLess a b) = if a.toNat < b.toNat then 1 else 0 :=
  setWord_decide _

/-- SLTI compares with the immediate as a signed number. -/
theorem setWord_signedLess_simm (a : Word) (imm : Imm16) :
    setWord (signedLess a (simm imm)) = if a.toInt < imm.toInt then 1 else 0 := by
  rw [setWord_signedLess, simm_toInt]

/-- SLTIU compares with the sign-extended immediate as an unsigned number (41_alu.md R260). -/
theorem setWord_unsignedLess_simm (a : Word) (imm : Imm16) :
    setWord (unsignedLess a (simm imm)) = if (a.toNat : Int) < imm.toInt % 2 ^ 32 then 1 else 0 := by
  simp only [setWord_unsignedLess, ← simm_toNat, Nat.cast_lt]

/-- Settles O32: each is one register write, of the comparison of the operands as numbers. -/
theorem setOnLess : Obligations.SetOnLess := by
  refine ⟨saRow_special .slt, saRow_special .sltu, freeRow_primary .slti, freeRow_primary .sltiu,
    fun s rs rt rd imm => ⟨?_, ?_, ?_, ?_⟩⟩
  · exact reg_completes_eq rfl (setWord_signedLess _ _)
  · exact reg_completes_eq rfl (setWord_unsignedLess _ _)
  · exact reg_completes_eq rfl (setWord_signedLess_simm _ imm)
  · exact reg_completes_eq rfl (setWord_unsignedLess_simm _ imm)

/-! Bitwise operations -/

/-- A bit of NOR's result (41_alu.md R264). -/
theorem getLsbD_nor (a b : Word) (k : Nat) (hk : k < 32) :
    (~~~(a ||| b)).getLsbD k = !(a.getLsbD k || b.getLsbD k) := by
  rw [BitVec.getLsbD_not, BitVec.getLsbD_or, decide_eq_true hk, Bool.true_and]

/-- Settles O33: each is one register write, of a word whose bits are known. -/
theorem bitwiseRegister : Obligations.BitwiseRegister := by
  refine ⟨saRow_special .and, saRow_special .or, saRow_special .xor, saRow_special .nor,
    fun s rs rt rd => ⟨?_, ?_, ?_, ?_⟩⟩
  · exact ⟨_, reg_completes _ s rd _ rfl, fun _ _ => BitVec.getLsbD_and⟩
  · exact ⟨_, reg_completes _ s rd _ rfl, fun _ _ => BitVec.getLsbD_or⟩
  · exact ⟨_, reg_completes _ s rd _ rfl, fun _ _ => BitVec.getLsbD_xor⟩
  · exact ⟨_, reg_completes _ s rd _ rfl, getLsbD_nor _ _⟩

/-- Settles O34: each is one register write; the immediate is its own number, in the lower or the upper half. -/
theorem bitwiseImmediate : Obligations.BitwiseImmediate := by
  refine ⟨freeRow_primary .andi, freeRow_primary .ori, freeRow_primary .xori,
    rowIs_primary .lui (by decide) (by decide) (fun _ => rfl) rfl (fields_rs fun _ => rfl),
    fun s rs rt imm => ⟨?_, ?_, ?_, ?_⟩⟩
  · exact reg_completes_eq rfl (congrArg (s.getReg rs &&& ·) (zimm_eq imm))
  · exact reg_completes_eq rfl (congrArg (s.getReg rs ||| ·) (zimm_eq imm))
  · exact reg_completes_eq rfl (congrArg (s.getReg rs ^^^ ·) (zimm_eq imm))
  · exact reg_completes_eq rfl (uimm_eq imm)

/-! Shifts -/

/-- Settles O35: each is one register write, of the shift as a product or a quotient; the register amount is its value
mod 32 (`vshamt_eq`). -/
theorem shifts : Obligations.Shifts := by
  refine ⟨rsRow_special .sll, rsRow_special .srl, rsRow_special .sra, saRow_special .sllv, saRow_special .srlv,
    saRow_special .srav, fun s rs rt rd sa => ?_⟩
  rw [← vshamt_eq]
  refine ⟨?_, ?_, ?_, ?_, ?_, ?_⟩
  · exact reg_completes_eq rfl (shiftLeft_eq _ _)
  · exact reg_completes_eq rfl (shiftRight_eq _ _)
  · exact reg_completes_eq rfl (sshiftRight_eq _ _)
  · exact reg_completes_eq rfl (shiftLeft_eq _ _)
  · exact reg_completes_eq rfl (shiftRight_eq _ _)
  · exact reg_completes_eq rfl (sshiftRight_eq _ _)

/-! Conditional moves and counts -/

/-- Settles O36: each is a register write under a condition. -/
theorem conditionalMoves : Obligations.ConditionalMoves := by
  refine ⟨saRow_special .movz, saRow_special .movn, fun s rs rt rd => ⟨?_, ?_⟩⟩
  · exact reg_completes_if rfl
  · rw [← ite_not]
    exact reg_completes_if rfl

/-- An instruction that writes the length of the leading run of bits `b` of `x`, and the bits that pin it down. -/
theorem leadingRun_completes {i : Instr} {s : State} {rd : RegNum} (b : Bool) (x : Word)
    (h : exec i s = commitSeq (s.setReg rd (BitVec.ofNat 32 (leadingRun b x 32)))) :
    ∃ n, n ≤ 32 ∧ Completes i s (RegEffect s rd (BitVec.ofNat 32 n)) ∧
      (∀ k, k < n → x.getLsbD (31 - k) = b) ∧ (n < 32 → x.getLsbD (31 - n) = !b) :=
  have ⟨hle, hrun, hend⟩ := leadingRun_spec b x 32
  ⟨leadingRun b x 32, hle, reg_completes i s rd _ h, hrun, hend⟩

/-- Settles O37: CLZ writes the leading run of zeros and CLO that of ones (`leadingRun_spec`). -/
theorem leadingCounts : Obligations.LeadingCounts :=
  ⟨countRow_special2 .clz, countRow_special2 .clo, fun s rs _ =>
    ⟨leadingRun_completes false (s.getReg rs) rfl, leadingRun_completes true (s.getReg rs) rfl⟩⟩

end Sys2Proof.Machine
end

section
/-! PROOF. Multiply, divide, HI and LO (42_muldiv.md R300 to R314). First the rows and the writes of HI and LO this
family needs beside the laws of Laws/, then its obligations. -/

namespace Sys2Proof.Machine

/-! The rows of the opcode table, for any must-be-zero check. A row is named by its mnemonic and its check; the rest is
read off the maps. -/

section
variable {val : Word} {fixed : Word → Prop} {g : Group} {f : Word → Instr} (m : Mnemonic)

theorem row_special (hk : ∀ w, fieldsOK w m = true ↔ fixed w) (hv : opField val = 0x00 := by decide)
    (hs : assoc (functField val).toNat specialMap = some m := by decide)
    (hf : ∀ w, f w = Instr.ofFields w m := by exact fun _ => rfl) (hg : m.group = g := by rfl) :
    RowIs 0xFC00003F val fixed g f :=
  rowIs_special m hv hs hf hg hk

theorem row_special2 (hk : ∀ w, fieldsOK w m = true ↔ fixed w) (hv : opField val = 0x1C := by decide)
    (hs : assoc (functField val).toNat special2Map = some m := by decide)
    (hf : ∀ w, f w = Instr.ofFields w m := by exact fun _ => rfl) (hg : m.group = g := by rfl) :
    RowIs 0xFC00003F val fixed g f :=
  rowIs_special2 m hv hs hf hg hk

end

/-! Writes of HI and LO -/

section
variable {i : Instr} {s t : State} {n : RegNum} {v : Word}

/-- A sequential write of HI and LO completes, with the pair rewritten. -/
theorem hiLo_completes_eq {p p' : Word × Word} (h : exec i s = commitSeq (s.setHiLo p')) (hp : p' = p) :
    Completes i s (HiLoEffect s p.1 p.2) :=
  hiLo_completes i s p (hp ▸ h)

/-- A sequential write of the accumulator completes, with the halves of the double word in HI and LO. -/
theorem acc_completes {u : DWord} (h : exec i s = commitSeq (s.setAcc u)) :
    Completes i s (HiLoEffect s (hiHalf u) (loHalf u)) :=
  hiLo_completes i s (hiHalf u, loHalf u) h

/-- A sequential write of the accumulator whose double word is an integer mod 2^64. -/
theorem acc_completes_ofInt {u : DWord} {x : Int} (h : exec i s = commitSeq (s.setAcc u)) (hu : u = BitVec.ofInt 64 x) :
    ∃ hi lo, Completes i s (HiLoEffect s hi lo) ∧ hi ++ lo = BitVec.ofInt 64 x :=
  ⟨_, _, acc_completes h, (halves_append u).trans hu⟩

/-- What is kept from after a register write is kept from before it. -/
theorem HiddenKept.of_setReg (h : HiddenKept (s.setReg n v) t) : HiddenKept s t where
  gas := h.gas.trans (State.setReg_gas s n v)
  steps := h.steps.trans (State.setReg_steps s n v)
  status := h.status.trans (State.setReg_status s n v)
  refused := h.refused.trans (State.setReg_refused s n v)
  cfg := h.cfg.trans (State.setReg_cfg s n v)
  inputs := h.inputs.trans (State.setReg_inputs s n v)
  cache := h.cache.trans (State.setReg_cache s n v)
  llbit := h.llbit.trans (State.setReg_llbit s n v)

/-- A register write keeps the pair, so an advance from after it is one from before it. -/
theorem Advanced.of_setReg (h : Advanced (s.setReg n v) t) : Advanced s t := by
  obtain ⟨hpc, hnpc, hds⟩ := h
  rw [State.setReg_npc] at hpc hnpc
  exact ⟨hpc, hnpc, hds⟩

/-- A register write followed by a write of HI and LO completes: the effect of the second on the state after the first,
whose own changes are the register and its bytes. -/
theorem regHiLo_completes {p : Word × Word} (h : exec i s = commitSeq ((s.setReg n v).setHiLo p)) :
    Completes i s fun t =>
      HiddenKept s t ∧ Advanced s t ∧ (∀ k, t.getReg k = if k = n ∧ n ≠ 0 then v else s.getReg k) ∧
      t.getHI = p.1 ∧ t.getLO = p.2 ∧ BytesKept s t (fun x => RegBytes s.cfg n x ∨ HiLoBytes s.cfg x) := by
  obtain ⟨hidden, advanced, written, bytes⟩ := hiLoEffect_commit (s.setReg n v) p
  rw [BytesKept, State.setReg_cfg] at bytes
  exact ⟨_, h, hidden.of_setReg, advanced.of_setReg, fun k => (written.regs k).trans (State.getReg_setReg s n k v),
    written.hi, written.lo, fun x hpc hw =>
      (bytes x hpc (hw ∘ .inr)).trans (State.readByte_setReg s n v x (hw ∘ .inl))⟩

end

/-! Products -/

/-- Settles O38: each writes the accumulator, with a product that 64 bits hold exactly (`signedProduct_toInt`,
`unsignedProduct_toNat`). -/
theorem multiply : Obligations.Multiply := by
  refine ⟨row_special .mult (fields_rd_sa fun _ => rfl), row_special .multu (fields_rd_sa fun _ => rfl),
    fun s rs rt => ⟨⟨_, _, acc_completes rfl, ?_⟩, ⟨_, _, acc_completes rfl, ?_⟩⟩⟩
  · rw [halves_append, signedProduct_toInt]
  · rw [halves_toNat, unsignedProduct_toNat]

/-- The accumulator is the number that HI and LO write in base 2^32 (42_muldiv.md R310). -/
theorem getAcc_ofInt (s : State) : s.getAcc = BitVec.ofInt 64 (s.getHI.toNat * 2 ^ 32 + s.getLO.toNat) :=
  append_ofInt s.getHI s.getLO

/-- Settles O43: each writes the accumulator, and `BitVec.ofInt 64` takes the exact sum or difference of the numbers to
that of the double words. -/
theorem multiplyAccumulate : Obligations.MultiplyAccumulate := by
  refine ⟨row_special2 .madd (fields_rd_sa fun _ => rfl), row_special2 .maddu (fields_rd_sa fun _ => rfl),
    row_special2 .msub (fields_rd_sa fun _ => rfl), row_special2 .msubu (fields_rd_sa fun _ => rfl),
    fun s rs rt => ⟨acc_completes_ofInt rfl ?_, acc_completes_ofInt rfl ?_, acc_completes_ofInt rfl ?_,
      acc_completes_ofInt rfl ?_⟩⟩
  · rw [BitVec.ofInt_add, ← getAcc_ofInt, signedProduct]
  · rw [BitVec.ofInt_add, ← getAcc_ofInt, unsignedProduct_ofInt]
  · rw [ofInt64_sub, ← getAcc_ofInt, signedProduct]
  · rw [ofInt64_sub, ← getAcc_ofInt, unsignedProduct_ofInt]

/-- Settles O42: MUL writes the low word of the product (`loHalf_signedProduct`) and then HI and LO. -/
theorem multiplyToRegister : Obligations.MultiplyToRegister := by
  refine ⟨row_special2 .mul (fields_sa fun _ => rfl), fun s rs rt rd => regHiLo_completes ?_⟩
  rw [← loHalf_signedProduct]
  rfl

/-! Quotients -/

section
variable {a b : Word} (hi lo : Word)

theorem signedDivide_zero (hb : b.toInt = 0) : signedDivide a b hi lo = Config.div0 true a hi lo := if_pos hb

theorem signedDivide_overflow (ha : a.toInt = -2 ^ 31) (hb : b.toInt = -1) :
    signedDivide a b hi lo = Config.divOvf hi lo := by
  rw [signedDivide, if_neg (by rw [hb]; decide), if_pos ⟨ha, hb⟩]

/-- Away from the two open cases DIV divides with truncation (42_muldiv.md R303). -/
theorem signedDivide_defined (hb : b.toInt ≠ 0) (ho : ¬ (a.toInt = -2 ^ 31 ∧ b.toInt = -1)) :
    signedDivide a b hi lo = (BitVec.ofInt 32 (a.toInt.tmod b.toInt), BitVec.ofInt 32 (a.toInt.tdiv b.toInt)) := by
  rw [signedDivide, if_neg hb, if_neg ho, Int.tmod_def, Int.mul_comm]

theorem unsignedDivide_zero (hb : b.toNat = 0) : unsignedDivide a b hi lo = Config.div0 false a hi lo :=
  if_pos (BitVec.eq_of_toNat_eq hb)

theorem unsignedDivide_defined (hb : b.toNat ≠ 0) :
    unsignedDivide a b hi lo = (BitVec.ofNat 32 (a.toNat % b.toNat), BitVec.ofNat 32 (a.toNat / b.toNat)) :=
  if_neg fun h => hb (congrArg BitVec.toNat h)

end

/-- Settles O39: the three cases of `signedDivide`; in the third the quotient and the remainder are those of truncating
division (`tmod_spec`) and each fits a word. -/
theorem divideSigned : Obligations.DivideSigned := by
  refine ⟨row_special .div (fields_rd_sa fun _ => rfl), fun s rs rt => ⟨fun hb => ?zero, fun ha hb => ?overflow,
    fun hb ho => ?defined⟩⟩
  case zero => exact hiLo_completes_eq rfl (signedDivide_zero _ _ hb)
  case overflow => exact hiLo_completes_eq rfl (signedDivide_overflow _ _ ha hb)
  case defined =>
    have ⟨hdiv, hlt, hsign⟩ := tmod_spec (s.getReg rs).toInt _ hb
    refine ⟨_, _, hiLo_completes_eq rfl (signedDivide_defined _ _ hb ho), ?_⟩
    rw [signedQuotient_toInt _ _ hb ho, ofInt_toInt_of_abs _ _ hlt]
    exact ⟨hdiv, hlt, hsign⟩

/-- Settles O40: the two cases of `unsignedDivide`; the quotient and the remainder are at most the dividend, so each
fits a word. -/
theorem divideUnsigned : Obligations.DivideUnsigned := by
  refine ⟨row_special .divu (fields_rd_sa fun _ => rfl), fun s rs rt => ⟨fun hb => ?zero, fun hb => ?defined⟩⟩
  case zero => exact hiLo_completes_eq rfl (unsignedDivide_zero _ _ hb)
  case defined =>
    refine ⟨_, _, hiLo_completes_eq rfl (unsignedDivide_defined _ _ hb), ?_⟩
    have hfits := (s.getReg rs).isLt
    rw [BitVec.toNat_ofNat, BitVec.toNat_ofNat, Nat.mod_eq_of_lt ((Nat.mod_le _ _).trans_lt hfits),
      Nat.mod_eq_of_lt ((Nat.div_le_self _ _).trans_lt hfits)]
    exact ⟨(Nat.div_add_mod' _ _).symm, Nat.mod_lt _ (Nat.pos_of_ne_zero hb)⟩

/-! Moves -/

/-- Settles O41: each is one register write, of HI or LO, or one write of HI or LO alone. -/
theorem hiLoMoves : Obligations.HiLoMoves := by
  refine ⟨row_special .mfhi (fields_rs_rt_sa fun _ => rfl), row_special .mflo (fields_rs_rt_sa fun _ => rfl),
    row_special .mthi (fields_rt_rd_sa fun _ => rfl), row_special .mtlo (fields_rt_rd_sa fun _ => rfl),
    fun s rs rd => ⟨?_, ?_, ?_, ?_⟩⟩
  · exact reg_completes _ s rd _ rfl
  · exact reg_completes _ s rd _ rfl
  · exact ⟨_, rfl, hiEffect_commit s (s.getReg rs)⟩
  · exact ⟨_, rfl, loEffect_commit s (s.getReg rs)⟩

end Sys2Proof.Machine
end

section
/-! PROOF. Branches and jumps (43_branch_jump.md R350 to R375). Each obligation stands after the laws it needs beside those
of Laws/. -/

namespace Sys2Proof.Machine

/-! Rows and conditions -/

/-- A primary row whose `rt` field is 0: the branches that compare one register with 0. -/
theorem rtRow_primary {val : Word} {g : Group} {f : Word → Instr} (m : Mnemonic)
    (hv : opField val ≠ 0x00 ∧ opField val ≠ 0x01 ∧ opField val ≠ 0x1C := by decide)
    (hs : assoc (opField val).toNat primaryMap = some m := by decide)
    (hf : ∀ w, f w = Instr.ofFields w m := by exact fun _ => rfl) (hg : m.group = g := by rfl)
    (hk : ∀ w, fieldsOK w m = (rtField w == 0) := by exact fun _ => rfl) :
    RowIs 0xFC000000 val (ZeroAt 0x001F0000) g f :=
  rowIs_primary m hv hs hf hg (fields_rt hk)

/-- The condition of BNE and BNEL as a comparison (43_branch_jump.md R355). -/
theorem condNe_eq_bne (a b : Word) : condNe a b = (a != b) := decide_not

/-! Branches -/

/-- Settles O44: each is an ordinary branch on its condition, with no link (`branch_completes_nolink`). -/
theorem conditionalBranches : Obligations.ConditionalBranches := by
  refine ⟨freeRow_primary .beq, freeRow_primary .bne, rtRow_primary .blez, rtRow_primary .bgtz, freeRow_regimm .bltz,
    freeRow_regimm .bgez, fun s rs rt imm => ?_⟩
  rw [← branchTarget_eq, ← condNe_eq_bne]
  refine ⟨?_, ?_, ?_, ?_, ?_, ?_⟩ <;> exact branch_completes_nolink _ _ imm s rfl

/-- Settles O45: each is an ordinary branch whose link is written after its condition is read (`branch_completes`). -/
theorem linkingBranches : Obligations.LinkingBranches := by
  refine ⟨freeRow_regimm .bltzal, freeRow_regimm .bgezal, fun s rs imm => ?_⟩
  rw [← branchTarget_eq]
  exact ⟨branch_completes _ _ imm s 31 rfl, branch_completes _ _ imm s 31 rfl⟩

/-- Settles O47: each is a branch-likely on its condition, two of them with a link (`likely_completes`). -/
theorem branchesLikely : Obligations.BranchesLikely := by
  refine ⟨freeRow_primary .beql, freeRow_primary .bnel, rtRow_primary .blezl, rtRow_primary .bgtzl,
    freeRow_regimm .bltzl, freeRow_regimm .bgezl, freeRow_regimm .bltzall, freeRow_regimm .bgezall,
    fun s rs rt imm => ?_⟩
  rw [← branchTarget_eq, ← condNe_eq_bne]
  refine ⟨?_, ?_, ?_, ?_, ?_, ?_, likely_completes _ _ imm s 31 rfl, likely_completes _ _ imm s 31 rfl⟩ <;>
    exact likely_completes_nolink _ _ imm s rfl

/-! Jumps -/

/-- Settles O46: each is a jump to a target that is read before the link is written (`jump_completes`). -/
theorem jumps : Obligations.Jumps := by
  refine ⟨freeRow_primary .j, freeRow_primary .jal, row_special .jr (fields_rt_rd_sa fun _ => rfl),
    row_special .jalr (fields_rt_sa fun _ => rfl), fun s index rs rd => ?_⟩
  rw [← jumpTarget_eq]
  exact ⟨jump_completes_nolink _ _ s rfl, jump_completes _ _ s 31 rfl, jump_completes_nolink _ _ s rfl,
    jump_completes _ _ s rd rfl⟩

/-! Misaligned targets -/

/-- The pair of a control outcome is aligned, from an aligned `npc` and an aligned target (40_step_cycle.md R206). -/
theorem Ctl.nextPair_aligned {npc : Word} {c : Ctl} (hnpc : npc.toNat % 4 = 0)
    (hT : ∀ T, c = .branchTo T → T.toNat % 4 = 0) :
    (c.nextPair npc).1.toNat % 4 = 0 ∧ (c.nextPair npc).2.toNat % 4 = 0 := by
  cases c with
  | seq => exact ⟨hnpc, by rw [nextPair]; bv_omega⟩
  | branchTo T => exact ⟨hnpc, hT T rfl⟩
  | annul => rw [nextPair]; constructor <;> bv_omega

/-- Every instruction but JR and JALR keeps the pair aligned: its target, if it has one, is aligned (`exec_shape`). -/
theorem exec_keeps_pair_aligned {i : Instr} {s t : State} (hi : isJr i = false) (h : exec i s = .next t)
    (hpc : s.getPC.toNat % 4 = 0) (hnpc : s.npc.toNat % 4 = 0) : t.getPC.toNat % 4 = 0 ∧ t.npc.toNat % 4 = 0 := by
  rcases exec_shape i s t h with ⟨e, rfl, -⟩ | ⟨s1, c, rfl, -, -, htarget, hw⟩
  · exact ⟨hpc, hnpc⟩
  · rw [commit_getPC, commit_npc, hw.npc]
    exact Ctl.nextPair_aligned hnpc (htarget hi hpc)

/-- The pair after a taken branch or a jump: the target is in `npc`, aligned or not. -/
theorem pair_of_taken {i : Instr} {s : State} {n : RegNum} {T : Word} (h : Completes i s (BranchEffect s n true T)) :
    Completes i s fun t => t.getPC = s.npc ∧ t.npc = T :=
  have ⟨t, ht, heffect⟩ := h
  ⟨t, ht, heffect.pc, heffect.npc⟩

/-- Fetch fails at a misaligned pc, before the charge (40_step_cycle.md R202). -/
theorem step_of_misaligned {s : State} (h : Live s) (hpc : s.getPC.toNat % 4 ≠ 0) :
    step s = .next (errorState (.unalignedAccess s.getPC) s) := by
  have hfetch : fetchWord s = .error (.unalignedAccess s.getPC) := if_neg hpc
  simp only [step_of_live s h, cycle, hfetch, takeError_eq]

/-- Settles O24: a target that comes from no register is aligned (`exec_keeps_pair_aligned`); JR and JALR take theirs
as it is (`jumps`), and the fetch of a misaligned one fails (`step_of_misaligned`). -/
theorem misalignedTargets : Obligations.MisalignedTargets := by
  refine ⟨fun i s t hjr hjalr => exec_keeps_pair_aligned ?_, fun s rs rd => ?_, fun _ => step_of_misaligned⟩
  · simp only [isJr, beq_eq_false_iff_ne.2 hjr, beq_eq_false_iff_ne.2 hjalr, Bool.or_self]
  · obtain ⟨-, -, -, -, hjumps⟩ := jumps
    obtain ⟨-, -, hjr, hjalr⟩ := hjumps s 0 rs rd
    exact ⟨pair_of_taken hjr, pair_of_taken hjalr⟩

end Sys2Proof.Machine
end

section
/-! PROOF. Loads and stores outside the reserved ranges (44_load_store.md R401 to R421). Each obligation stands after
the laws it needs beside those of Laws/. -/

namespace Sys2Proof.Machine

open Memory

/-! Aligned loads and stores -/

theorem memReadHalf_plain (a : Word) (s : State) (hp : LoadsPlain s.cfg a) (ha : a.toNat % 2 = 0) :
    memReadHalf a s = .ok ((byteFrom s a 0 ++ byteFrom s a 1).zeroExtend 32) := by
  rw [memReadHalf_even a s ha, memReadEvenHalf_plain a s hp (getLsbD_zero_false a ha)]

theorem memWriteHalf_effect (s : State) (a v : Word) (hc : s.cfg.wf = true) (hp : StoresPlain s.cfg a)
    (ha : a.toNat % 2 = 0) :
    ∃ s1, memWriteHalf a v s = .ok s1 ∧ StoreEffect s a 2 (fun k => byteAt v (k + 2)) (commit false .seq s1) := by
  rw [memWriteHalf_even a v s ha]
  exact memWriteEvenHalf_effect s a v hc hp (getLsbD_zero_false a ha)

/-- Settles O48: each load is one register write, of the bytes its access reads at a plain word. -/
theorem loads : Obligations.Loads := by
  refine ⟨freeRow_primary .lb, freeRow_primary .lbu, freeRow_primary .lh, freeRow_primary .lhu, freeRow_primary .lw,
    fun s rs rt imm hp => ?_⟩
  have hbyte := memReadByte_plain _ s hp
  exact ⟨load_completes rfl ⟨_, hbyte, by rw [sextByte_zeroExtend]⟩,
    load_completes rfl ⟨_, hbyte, by rw [zextByte_zeroExtend]⟩,
    fun ha => halfLoads_complete (memReadHalf_plain _ s hp ha),
    fun ha => load_completes rfl ⟨_, memReadWord_plain true _ s hp ha, rfl⟩⟩

/-- Settles O49: each store is its access, whose effect at a plain word is known. -/
theorem stores : Obligations.Stores :=
  ⟨freeRow_primary .sb, freeRow_primary .sh, freeRow_primary .sw, fun s _ _ _ hc hp =>
    ⟨store_completes rfl (memWriteByte_effect s _ _ hc hp),
      fun ha => halfStore_completes (memWriteHalf_effect s _ _ hc hp ha),
      fun ha => store_completes rfl (memWriteWord_effect s _ _ hc hp ha)⟩⟩

/-! Unaligned loads: the merged register, byte by byte -/

section
variable (s : State) (r a : Word) {j : Nat} (hj : j < 4)
include hj

/-- LWL puts the bytes from `a` to the end of its word in the top of the register (44_load_store.md R410). -/
theorem byteAt_mergeLwl_mword :
    byteAt (mergeLwl (s.mword (wordAddress a)) r a) j =
      if j < 4 - a.toNat % 4 then byteFrom s (a - BitVec.ofNat 32 (a.toNat % 4)) (j + a.toNat % 4)
      else byteAt r j := by
  rw [byteAt_mergeLwl _ _ _ _ hj, byteOffset]
  split
  next h => rw [if_pos (by omega), byteAt_mword_sub s a _ h]
  next h => rw [if_neg (by omega)]

/-- LWR puts the bytes from the word's start up to `a` in the bottom of the register (44_load_store.md R411). -/
theorem byteAt_mergeLwr_mword :
    byteAt (mergeLwr (s.mword (wordAddress a)) r a) j =
      if j < 3 - a.toNat % 4 then byteAt r j
      else byteFrom s (a - BitVec.ofNat 32 (a.toNat % 4)) (j + a.toNat % 4 - 3) := by
  rw [byteAt_mergeLwr _ _ _ _ hj, byteOffset]
  split
  next h => rw [if_neg (by omega), byteAt_mword_sub s a _ (by omega)]
  next h => rw [if_pos (by omega)]

end

/-- Settles O52: LWL and LWR read the word the address lies in and write its merge with the old register. -/
theorem unalignedLoads : Obligations.UnalignedLoads := by
  refine ⟨freeRow_primary .lwl, freeRow_primary .lwr, fun s rs rt imm hp => ?_⟩
  have hword := memReadWord_wordAddress s _ hp
  exact ⟨⟨_, load_completes rfl ⟨_, hword, rfl⟩, fun _ hj => byteAt_mergeLwl_mword s _ _ hj⟩,
    ⟨_, load_completes rfl ⟨_, hword, rfl⟩, fun _ hj => byteAt_mergeLwr_mword s _ _ hj⟩⟩

/-! Unaligned stores: the merged word written back -/

/-- A byte at or after `a` in its word, counted from the word's start. -/
theorem add_ofNat_eq_wordAddress_add (a : Word) (k : Nat) :
    a + BitVec.ofNat 32 k = wordAddress a + BitVec.ofNat 32 (byteOffset a + k) := by
  rw [BitVec.ofNat_add, ← BitVec.add_assoc, wordAddress_add]

section
variable (s : State) (a r : Word) (hc : s.cfg.wf = true) (hp : StoresPlain s.cfg a)
include hc hp

/-- SWL's word write stores the register's top bytes from `a` to the end of its word (44_load_store.md R412). -/
theorem storeEffect_mergeSwl :
    StoreEffect s a (4 - a.toNat % 4) (fun j => byteAt r j)
      (commit false .seq (s.setMword (wordAddress a) (mergeSwl (s.mword (wordAddress a)) r a))) := by
  have hk : a.toNat % 4 = byteOffset a := rfl
  refine storeEffect_setMword s _ _ _ _ _ hc (wordAddress_aligned a) hp (fun i hi => ?_) fun j hj h => ?_
  · refine ⟨byteOffset a + i, by omega, add_ofNat_eq_wordAddress_add a i, ?_⟩
    rw [byteAt_mergeSwl _ _ _ _ (by omega), if_pos (by omega), Nat.add_sub_cancel_left]
  · rw [byteAt_mergeSwl _ _ _ _ hj, if_neg fun hle => h (j - byteOffset a) (by omega) ?_]
    rw [add_ofNat_eq_wordAddress_add, Nat.add_sub_cancel' hle]

/-- SWR's word write stores the register's low bytes from the word's start up to `a` (44_load_store.md R413). -/
theorem storeEffect_mergeSwr :
    StoreEffect s (a - BitVec.ofNat 32 (a.toNat % 4)) (a.toNat % 4 + 1) (fun j => byteAt r (j + 3 - a.toNat % 4))
      (commit false .seq (s.setMword (wordAddress a) (mergeSwr (s.mword (wordAddress a)) r a))) := by
  rw [← wordAddress_eq_sub]
  have hlt := byteOffset_lt a
  have hk : a.toNat % 4 = byteOffset a := rfl
  refine storeEffect_setMword s _ _ _ _ _ hc (wordAddress_aligned a) hp (fun i hi => ?_) fun j hj h => ?_
  · exact ⟨i, by omega, rfl, by rw [byteAt_mergeSwr _ _ _ _ (by omega), if_pos (by omega), hk]⟩
  · rw [byteAt_mergeSwr _ _ _ _ hj, if_neg fun hle => h j (by omega) rfl]

end

/-- Settles O53: SWL and SWR read the word the address lies in and write its merge with the register back. -/
theorem unalignedStores : Obligations.UnalignedStores :=
  ⟨freeRow_primary .swl, freeRow_primary .swr, fun s rs rt imm hc hp =>
    ⟨store_completes rfl ⟨_, readModify_plain s _ (mergeSwl · (s.getReg rt) (dataAddress s rs imm)) hp,
        storeEffect_mergeSwl s _ _ hc hp⟩,
      store_completes rfl ⟨_, readModify_plain s _ (mergeSwr · (s.getReg rt) (dataAddress s rs imm)) hp,
        storeEffect_mergeSwr s _ _ hc hp⟩⟩⟩

/-! Load linked and store conditional -/

theorem exec_sc_unlinked (s : State) (rs rt : RegNum) (imm : Imm16) (h : s.llbit = false) :
    exec (.sc rs rt imm) s = .refused .scNoLl :=
  if_neg (by rw [h]; decide)

/-- The slot of a general register lies within the Register File View. -/
theorem regNum_toNat_lt_slots (n : RegNum) : n.toNat < 35 := n.isLt.trans (by decide)

/-- The general registers are kept where the slots are. -/
theorem getReg_of_slots_kept {s t : State} (h : ∀ k, k < 35 → t.slot k = s.slot k) (n : RegNum) :
    t.getReg n = s.getReg n := by
  rw [State.getReg, State.getReg, h _ (regNum_toNat_lt_slots n)]

/-- SC at a plain word: the stored bytes lie in no slot, so neither its register write nor the commit reaches them
(44_load_store.md R421; 40_step_cycle.md R208). -/
theorem sc_plain_completes {s : State} {rs rt : RegNum} {imm : Imm16} (hl : s.llbit = true)
    (ha : (dataAddress s rs imm).toNat % 4 = 0) (hc : s.cfg.wf = true)
    (hp : StoresPlain s.cfg (dataAddress s rs imm)) :
    Completes (.sc rs rt imm) s fun t =>
      HiddenKept s t ∧ Advanced s t ∧ RegWritten s t rt 1 ∧
      (∀ k, k < 4 → readByte t.mem (dataAddress s rs imm + BitVec.ofNat 32 k).toNat = byteAt (s.getReg rt) k) ∧
      BytesKept s t (fun x => RegBytes s.cfg rt x ∨ InBytes (dataAddress s rs imm) 4 x) := by
  obtain ⟨s1, e, hs, hslot, hstored, hkept⟩ := memWriteWord_plain s _ (s.getReg rt) hc hp ha
  obtain ⟨m, rfl⟩ : ∃ m, s1 = { s with mem := m } := ⟨_, hs⟩
  have hr := regEffect_commit { s with mem := m } rt 1
  have hout {k j : Nat} (hk : k < 35) (hj : j < 4) :
      ¬ InSlot s.cfg k (dataAddress s rs imm + BitVec.ofNat 32 j).toNat :=
    not_inSlot_of_plain_word s.cfg _ k j hc hp ha hk hj
  refine ⟨_, (exec_sc_linked s rs rt imm hl).trans (finish_ok s _ _ _ e),
    ⟨⟨hr.gas, hr.steps, hr.status, hr.refused, hr.cfg, hr.inputs⟩, hr.cache, hr.llbit⟩, ⟨hr.pc, hr.npc, hr.ds⟩,
    ⟨fun j => ?regs, hr.hi.trans (hslot _ (by decide)), hr.lo.trans (hslot _ (by decide))⟩, fun k hk => ?stored,
    fun x hpc hx => ?kept⟩
  case regs => rw [hr.regs, getReg_of_slots_kept hslot]
  case stored =>
    exact (hr.bytes _ (hout (by decide) hk) fun h => hout (regNum_toNat_lt_slots rt) hk h.2).trans (hstored k hk)
  case kept => exact (hr.bytes x hpc fun h => hx (.inl h)).trans (hkept x fun h => hx (.inr h))

/-- Settles O54: LL is a plain word load that sets `llbit`, SC a plain word store with a register write after it
(`sc_plain_completes`). -/
theorem loadLinkedStoreConditional : Obligations.LoadLinkedStoreConditional :=
  ⟨freeRow_primary .ll, freeRow_primary .sc, fun s rs rt imm =>
    ⟨exec_sc_unlinked s rs rt imm, fun ha hp => ll_completes (memReadWord_plain false _ s hp ha), sc_plain_completes⟩⟩

end Sys2Proof.Machine
end

section
/-! PROOF. SYNC (45_system.md R455). -/

namespace Sys2Proof.Machine

/-- Settles O59: the row checks `rs`, `rt` and `rd` and leaves `stype` free; the meaning of SYNC is the sequential
commit of the unchanged state (`regEffect_commit_self`). -/
theorem sync : Obligations.Sync :=
  ⟨row_special .sync (fields_rs_rt_rd fun _ => rfl), fun s _ => ⟨_, rfl, regEffect_commit_self s⟩⟩

end Sys2Proof.Machine
end

section
/-! PROOF. The invariant of the run (70_reset_and_hazards.md R550, R555; 10_state.md R71; 20_memory.md R128): it holds at
reset, and each part of a step keeps it. -/

namespace Sys2Proof.Machine

open Memory

/-! The invariant at reset -/

/-- Reset on a canonical image starts with the sequential pair and an empty cache (70_reset_and_hazards.md R550). -/
theorem start_inv (c : Config) (inp : RunInputs) (m0 : Memory) (pc : Word) (gas0 : Nat) (hm : Memory.wf m0 = true) :
    Inv (State.start c inp m0 pc gas0) where
  mem := wf_setMword m0 _ pc hm
  pair _ := congrArg (· + 4) (start_getPC c inp m0 pc gas0).symm
  cache _ _ h := nomatch h

/-- Settles O2: the empty image is canonical, and the model's own parameter set passes `Config.wf`. -/
theorem invariantAtReset : Obligations.InvariantAtReset :=
  ⟨start_inv _ _ [] _ _ rfl, by decide⟩

/-! The invariant over one step -/

section
variable {s t : State}

/-- The charge touches `gas` alone. -/
theorem Inv.charge (h : Inv s) (i : Instr) : Inv (charge i s) := ⟨h.mem, h.pair, h.cache⟩

/-- An error touches `status` alone (60_exceptions.md R520). -/
theorem Inv.errorState (h : Inv s) (e : EngineError) : Inv (errorState e s) := ⟨h.mem, h.pair, h.cache⟩

/-- The count and the halt check touch `steps` and `status` alone. -/
theorem Inv.closeStep (h : Inv s) : Inv (closeStep s) where
  mem := by rw [closeStep_mem]; exact h.mem
  pair := by rw [closeStep_ds, closeStep_npc, closeStep_getPC]; exact h.pair
  cache := by rw [closeStep_cache, closeStep_inputs]; exact h.cache

/-- The outcomes `seq` and `annul` leave a sequential pair; only `branchTo` does not (40_step_cycle.md R206). -/
theorem Ctl.nextPair_sequential {c : Ctl} (npc : Word) (hc : c = .seq ∨ c = .annul) :
    (c.nextPair npc).2 = (c.nextPair npc).1 + 4 := by
  rcases hc with rfl | rfl
  · rfl
  · exact (BitVec.add_assoc npc 4 4).symm

/-- A commit outside a delay slot has the outcome `seq` or `annul`. -/
theorem seq_or_annul_of_commit_ds {ct : Bool} {c : Ctl} (hseq : ct = false → c = .seq)
    (hds : (commit ct c s).ds = false) : c = .seq ∨ c = .annul := by
  rw [commit_ds, Bool.and_eq_false_iff] at hds
  rcases hds with hct | hannul
  · exact .inl (hseq hct)
  · exact .inr (by simpa using hannul)

/-- The commit of an instruction's writes keeps the invariant: the pair it leaves is its own, whatever the writes did
to the PC slot. -/
theorem Writes.inv_commit {lw ll ct : Bool} {sl : List Nat} {c : Ctl} (hw : Writes lw ll sl s t) (h : Inv s)
    (hseq : ct = false → c = .seq) : Inv (commit ct c t) where
  mem := wf_setMword t.mem _ _ (hw.mem_wf h.mem)
  pair hds := by
    rw [commit_npc, commit_getPC]
    exact Ctl.nextPair_sequential t.npc (seq_or_annul_of_commit_ds hseq hds)
  cache := by
    rw [commit_cache, commit_inputs, hw.loopKept.inputs]
    exact hw.cache_agrees h.cache

/-- Every instruction keeps the invariant. -/
theorem exec_inv {i : Instr} (h : Inv s) (hx : exec i s = .next t) : Inv t := by
  rcases exec_shape i s t hx with ⟨e, rfl, -⟩ | ⟨s1, c, rfl, hseq, -, -, hw⟩
  · exact h.errorState e
  · exact hw.inv_commit h hseq

/-- Every step keeps the invariant. -/
theorem step_inv (h : Inv s) (hs : step s = .next t) : Inv t := by
  cases step_shape s t hs with
  | budget => exact ⟨h.mem, h.pair, h.cache⟩
  | early e => exact h.errorState e
  | ran i u _ _ _ _ _ hx => exact (exec_inv (h.charge i) hx).closeStep

end

/-- Settles O25: the charge, an error and the close of a step touch no field of the invariant, and the commit of an
instruction's writes keeps it (`Writes.inv_commit`). -/
theorem stepKeepsInvariant : Obligations.StepKeepsInvariant := fun s t h hs =>
  ⟨step_inv h hs, step_cfg s t hs, step_inputs s t hs⟩

end Sys2Proof.Machine
end
